-- ==== Sys2Proof/Word.lean ====
section
/-!
DEFINITION. The widths the spec fixes (00_scope.md R7, R9): registers and tag elements are 32 bits, real elements
64 bits, MLS elements 1 bit. Bit 0 is the least significant bit everywhere.
-/

namespace Sys2Proof

/-- A register or a tag element (R7). -/
abbrev Word32 := BitVec 32

/-- A binary64 value in its IEEE 754 encoding, or the DATA field of a transaction (R63, R94). -/
abbrev Word64 := BitVec 64

/-- A real element (R37): binary64 as its encoding. -/
abbrev Real64 := BitVec 64

/-- An MLS element (R37): 0 is the source's false, 1 its true. -/
abbrev Bit := BitVec 1

end Sys2Proof
end

