-- ==== Sys2Proof/Config.lean ====
section
/-!
DEFINITION. The implementation parameters of 00_scope.md R7 at the values this hardware takes, and the values the spec
leaves open, as constants without a body. (The taps ROM, parameter `TAPS`, is `Machine.taps` in Machine/Operands.lean;
the number format, parameter `Num`, is `Machine.binary64` in Machine/Real.lean.)
-/

namespace Sys2Proof.Config

/-- NMAX, the largest supported order (R7). -/
def nmax : Nat := 18

/-- CAP_SEQ, the capacity of MLS, PROBE, TAGS, TAGL and REC (R7, D44). -/
def capSeq : Nat := 2 ^ nmax - 1

/-- CAP_WORK, the capacity of WORK and IR (R7, D44). -/
def capWork : Nat := 2 ^ nmax

/-- The free value behind NaNResult (R7, R12, D41, U3): what the spec leaves open of the NaN that the draw with this
number returns. Log 5. -/
opaque nanDraw : Nat → Word64

/-- HOST_BASE (R68, U4): where the platform places the block. No rule depends on it. Log 17. -/
opaque hostBase : Nat

inductive ByteOrder where
  | little | big
  deriving DecidableEq, Repr, Inhabited

/-- HOST_BYTE_ORDER (R63, U5): the byte order of an adapter outside the block. No rule depends on it. Log 17. -/
opaque hostByteOrder : ByteOrder

end Sys2Proof.Config
end

