-- ==== Sys2Proof/Syntax.lean ====
section
/-!
DEFINITION. The instructions: one constructor per row of opcode_table.json (30_encoding.md R92, R94, R95). The six
commands have no operands (R91). A host transaction carries an INDEX, an unsigned integer (R96), and a write carries
DATA; a read's DATA is the value it returns, so it is no operand (R94).
-/

namespace Sys2Proof

/-- The spaces of R60; R95 gives their codes. -/
inductive Space where
  | reg | mls | probe | tags | tagl | recd | work | ir
  deriving DecidableEq, Repr

inductive Instr where
  | genseq
  | bipolar
  | gentags
  | gentagl
  | fht
  | estimate
  | rdReg (idx : Nat)
  | wrReg (idx : Nat) (dat : Word64)
  | rdMls (idx : Nat)
  | wrMls (idx : Nat) (dat : Word64)
  | rdProbe (idx : Nat)
  | wrProbe (idx : Nat) (dat : Word64)
  | rdTags (idx : Nat)
  | wrTags (idx : Nat) (dat : Word64)
  | rdTagl (idx : Nat)
  | wrTagl (idx : Nat) (dat : Word64)
  | rdRec (idx : Nat)
  | wrRec (idx : Nat) (dat : Word64)
  | rdWork (idx : Nat)
  | wrWork (idx : Nat) (dat : Word64)
  | rdIr (idx : Nat)
  | wrIr (idx : Nat) (dat : Word64)
  deriving DecidableEq, Repr

/-- The six commands, run by the engine (30_encoding.md R92); the others are host transactions (R94). -/
def Instr.isCommand : Instr → Bool
  | .genseq => true
  | .bipolar => true
  | .gentags => true
  | .gentagl => true
  | .fht => true
  | .estimate => true
  | .rdReg _ => false
  | .wrReg _ _ => false
  | .rdMls _ => false
  | .wrMls _ _ => false
  | .rdProbe _ => false
  | .wrProbe _ _ => false
  | .rdTags _ => false
  | .wrTags _ _ => false
  | .rdTagl _ => false
  | .wrTagl _ _ => false
  | .rdRec _ => false
  | .wrRec _ _ => false
  | .rdWork _ => false
  | .wrWork _ _ => false
  | .rdIr _ => false
  | .wrIr _ _ => false

/-- The eight reads (30_encoding.md R94). -/
def Instr.isRead : Instr → Bool
  | .genseq => false
  | .bipolar => false
  | .gentags => false
  | .gentagl => false
  | .fht => false
  | .estimate => false
  | .rdReg _ => true
  | .wrReg _ _ => false
  | .rdMls _ => true
  | .wrMls _ _ => false
  | .rdProbe _ => true
  | .wrProbe _ _ => false
  | .rdTags _ => true
  | .wrTags _ _ => false
  | .rdTagl _ => true
  | .wrTagl _ _ => false
  | .rdRec _ => true
  | .wrRec _ _ => false
  | .rdWork _ => true
  | .wrWork _ _ => false
  | .rdIr _ => true
  | .wrIr _ _ => false

end Sys2Proof
end

