-- ==== Sys2Proof/WellFormed.lean ====
section
/-!
DEFINITION. Which instruction terms have an encoding: the INDEX of a host transaction is a 32-bit unsigned integer
(30_encoding.md R94, R96). A command has no operand to check (R91), and every 64-bit DATA is allowed.
-/

namespace Sys2Proof

/-- INDEX fits its 32-bit field (R94). -/
def indexFits (idx : Nat) : Bool := decide (idx < 2 ^ 32)

def Instr.wellFormed : Instr → Bool
  | .genseq => true
  | .bipolar => true
  | .gentags => true
  | .gentagl => true
  | .fht => true
  | .estimate => true
  | .rdReg idx => indexFits idx
  | .wrReg idx _ => indexFits idx
  | .rdMls idx => indexFits idx
  | .wrMls idx _ => indexFits idx
  | .rdProbe idx => indexFits idx
  | .wrProbe idx _ => indexFits idx
  | .rdTags idx => indexFits idx
  | .wrTags idx _ => indexFits idx
  | .rdTagl idx => indexFits idx
  | .wrTagl idx _ => indexFits idx
  | .rdRec idx => indexFits idx
  | .wrRec idx _ => indexFits idx
  | .rdWork idx => indexFits idx
  | .wrWork idx _ => indexFits idx
  | .rdIr idx => indexFits idx
  | .wrIr idx _ => indexFits idx

end Sys2Proof
end

