-- ==== Sys2Proof/Decode.lean ====
section
/-!
DEFINITION. Decoding and encoding (30_encoding.md R90 to R99). The block has two formats and no other (R90): the 32-bit
command word and the host transaction. Each has its own decoder: a command word is one of the six commands or illegal
(R93, rejected by name), and every header is a transaction (R94, R99). No byte order enters: values cross the port whole
(20_memory.md R63).
-/

namespace Sys2Proof

/-- A host transaction as it crosses the port (R94). -/
structure Txn where
  header : BitVec 4
  index : Word32
  data : Word64
  deriving DecidableEq, Repr

/-- Why a word has no instruction: an illegal command word (R93). -/
inductive DecodeError where
  | illegalCommand (word : Word32)
  deriving DecidableEq, Repr

/-- OPCODE, bits [3:0] of a command word (R91). -/
def opcode (w : Word32) : BitVec 4 := w.extractLsb' 0 4

/-- MBZ, bits [31:4] of a command word (R91). -/
def mbz (w : Word32) : BitVec 28 := w.extractLsb' 4 28

/-- The opcode map (R92); a word with MBZ ≠ 0 or another OPCODE is illegal (R93). -/
def decodeCommand (w : Word32) : Except DecodeError Instr :=
  if mbz w ≠ 0#28 then .error (.illegalCommand w) else
  match (opcode w).toNat with
  | 1 => .ok .genseq
  | 2 => .ok .bipolar
  | 3 => .ok .gentags
  | 4 => .ok .gentagl
  | 5 => .ok .fht
  | 6 => .ok .estimate
  | _ => .error (.illegalCommand w)

/-- DIR, header bit [0]: 1 is a write (R94). -/
def Txn.isWrite (t : Txn) : Bool := t.header.getLsbD 0

/-- SPACE, header bits [3:1] (R94, R95). -/
def Txn.space (t : Txn) : Space :=
  match (t.header.extractLsb' 1 3).toNat with
  | 0 => .reg
  | 1 => .mls
  | 2 => .probe
  | 3 => .tags
  | 4 => .tagl
  | 5 => .recd
  | 6 => .work
  | _ => .ir

/-- Every header is a transaction (R94). A read has no DATA operand, so the DATA bits sent with it are not looked at
(DEDUCED, log 9). -/
def decodeTxn (t : Txn) : Instr :=
  match t.space, t.isWrite with
  | .reg, false => .rdReg t.index.toNat
  | .reg, true => .wrReg t.index.toNat t.data
  | .mls, false => .rdMls t.index.toNat
  | .mls, true => .wrMls t.index.toNat t.data
  | .probe, false => .rdProbe t.index.toNat
  | .probe, true => .wrProbe t.index.toNat t.data
  | .tags, false => .rdTags t.index.toNat
  | .tags, true => .wrTags t.index.toNat t.data
  | .tagl, false => .rdTagl t.index.toNat
  | .tagl, true => .wrTagl t.index.toNat t.data
  | .recd, false => .rdRec t.index.toNat
  | .recd, true => .wrRec t.index.toNat t.data
  | .work, false => .rdWork t.index.toNat
  | .work, true => .wrWork t.index.toNat t.data
  | .ir, false => .rdIr t.index.toNat
  | .ir, true => .wrIr t.index.toNat t.data

/-- One encoded instruction, in either format (R90). -/
inductive Encoded where
  | command (word : Word32)
  | transaction (t : Txn)
  deriving DecidableEq, Repr

def decode : Encoded → Except DecodeError Instr
  | .command w => decodeCommand w
  | .transaction t => .ok (decodeTxn t)

/-- SPACE codes (R95). -/
def Space.code : Space → BitVec 3
  | .reg => 0
  | .mls => 1
  | .probe => 2
  | .tags => 3
  | .tagl => 4
  | .recd => 5
  | .work => 6
  | .ir => 7

/-- The header of a read or a write, `{SPACE, DIR}` (R94). -/
def header (sp : Space) (write : Bool) : BitVec 4 := sp.code ++ BitVec.ofBool write

/-- A read's transaction. Its INDEX field holds `idx` modulo 2^32: an index of 2^32 or more has no encoding (R94), and what
stands here for one is the model's choice (DESIGN CHOICE, log 7). -/
def readTxn (sp : Space) (idx : Nat) : Encoded := .transaction ⟨header sp false, BitVec.ofNat 32 idx, 0⟩

/-- A write's transaction, its INDEX field as in `readTxn` (log 7). -/
def writeTxn (sp : Space) (idx : Nat) (dat : Word64) : Encoded :=
  .transaction ⟨header sp true, BitVec.ofNat 32 idx, dat⟩

/-- The words of an instruction, from the opcode map (R92) and the transaction format (R94, R95). -/
def encode : Instr → Encoded
  | .genseq => .command 0x00000001
  | .bipolar => .command 0x00000002
  | .gentags => .command 0x00000003
  | .gentagl => .command 0x00000004
  | .fht => .command 0x00000005
  | .estimate => .command 0x00000006
  | .rdReg idx => readTxn .reg idx
  | .wrReg idx dat => writeTxn .reg idx dat
  | .rdMls idx => readTxn .mls idx
  | .wrMls idx dat => writeTxn .mls idx dat
  | .rdProbe idx => readTxn .probe idx
  | .wrProbe idx dat => writeTxn .probe idx dat
  | .rdTags idx => readTxn .tags idx
  | .wrTags idx dat => writeTxn .tags idx dat
  | .rdTagl idx => readTxn .tagl idx
  | .wrTagl idx dat => writeTxn .tagl idx dat
  | .rdRec idx => readTxn .recd idx
  | .wrRec idx dat => writeTxn .recd idx dat
  | .rdWork idx => readTxn .work idx
  | .wrWork idx dat => writeTxn .work idx dat
  | .rdIr idx => readTxn .ir idx
  | .wrIr idx dat => writeTxn .ir idx dat

/-- How many bits an encoded instruction has (R90): 32, or 4 + 32 + 64. -/
def Encoded.nbits : Encoded → Nat
  | .command _ => 32
  | .transaction _ => 100

/-- An encoded instruction as one number: a command word as it is; a transaction as `{DATA, INDEX, header}`, header in
the least significant bits, as opcode_table.json numbers it (DESIGN CHOICE, log 8). -/
def Encoded.bits : Encoded → Nat
  | .command w => w.toNat
  | .transaction t => t.header.toNat + t.index.toNat * 2 ^ 4 + t.data.toNat * 2 ^ 36

/-- The encoded instruction that the low `nbits` bits of `w` hold: 32 bits are a command word, any other length is a
transaction whose bits above `nbits` are 0 (log 8). -/
def Encoded.ofBits (nbits w : Nat) : Encoded :=
  if nbits = 32 then .command (BitVec.ofNat 32 w)
  else .transaction ⟨BitVec.ofNat 4 w, BitVec.ofNat 32 (w / 2 ^ 4), BitVec.ofNat 64 (w / 2 ^ 36)⟩

/-- The instruction the decoder reads from a word numbered as opcode_table.json numbers it; none for an illegal command
word (R93). -/
def decodeTableWord (nbits w : Nat) : Option Instr :=
  match decode (Encoded.ofBits nbits w) with
  | .ok i => some i
  | .error _ => none

end Sys2Proof
end

