-- ==== Sys2Proof/Machine/State.lean ====
section
/-!
DEFINITION. The state of MLSCORE (10_state.md R20): registers, hidden latches and seven buffers, as plain data; and, in
`env`, what stands around the block so that one deterministic step can run two agents: the host's remaining program, whose
turn it is, the DATA the last read returned, and how many draws of the free value have been used. The reasons a step can
stop, and the state after reset (R50).
-/

namespace Sys2Proof.Machine

/-- STATUS.STATE (R26). Codes 6 and 7 are never produced and have no constructor (log 13). -/
inductive EngineState where
  | idle | permute | transform | permuteScale | done | exec
  deriving DecidableEq, Repr

/-- STATUS.ERRCODE (R27). Codes 7 to 15 are never produced and have no constructor (log 13). -/
inductive ErrCode where
  | none | config | integrity | shape | notReady | illegalCmd | cancelled
  deriving DecidableEq, Repr

/-- STATUS.ERRSTAGE (R28). PERMUTE is reserved: no rule produces it. Codes 6 and 7 have no constructor (log 13). -/
inductive ErrStage where
  | none | check | permute | transform | permuteScale | generate
  deriving DecidableEq, Repr

/-- STATUS by its fields (R25); the register the host reads is `Status.word` in Machine/Flags.lean. -/
structure Status where
  busy : Bool
  done : Bool
  err : Bool
  ovr : Bool
  errcode : ErrCode
  errcmd : BitVec 4
  state : EngineState
  errstage : ErrStage
  deriving DecidableEq, Repr

/-- A buffer (R11): the elements written so far, as (index, element) pairs, indices strictly rising. An index that is not
listed is unwritten. -/
abbrev Buf (α : Type) := List (Nat × α)

/-- The seven buffers (R37). `recd` is REC. -/
structure Memory where
  mls : Buf Bit
  probe : Buf Real64
  tags : Buf Word32
  tagl : Buf Word32
  recd : Buf Real64
  work : Buf Real64
  ir : Buf Real64
  deriving DecidableEq, Repr

/-- One line of a host program (R17, R97): a transaction, the WAIT loop, or the reset event. -/
inductive HostOp where
  | txn (t : Txn)
  | wait
  | reset
  deriving DecidableEq, Repr

/-- Whose step is next in the interleaving (R240, R251): the host's, the engine's, or a reset by the platform. -/
inductive Turn where
  | host | engine | reset
  deriving DecidableEq, Repr

/-- What stands around the block: the model's own fields, not the spec's (logs 1, 2, 4, 5). -/
structure Env where
  program : List HostOp
  turns : List Turn
  data : Option Word64
  draws : Nat
  deriving DecidableEq, Repr

/-- The machine (R20). CMD and PARAM need no field: CMD reads 0 (R24) and PARAM is hardwired (R35). -/
structure State where
  status : Status
  cancel : Bool
  order : Word32
  reclen : Word32
  worklen : Word32
  seqn : Word32
  errarg0 : Word32
  errarg1 : Word32
  curCmd : Word32
  curN : Word32
  curReclen : Word32
  curWorklen : Word32
  mem : Memory
  env : Env
  deriving DecidableEq, Repr

/-- The model fault (R14). -/
inductive Fault where
  /-- A read of an unwritten element by FHT, ESTIMATE or a host read, and by BIPOLAR, GENTAGS or GENTAGL in states no run
  reaches (R66, R217). Safe: the hardware returns some value here. -/
  | unwrittenRead (buffer : Space) (index : Nat)
  deriving DecidableEq, Repr

/-- Why a step has no meaning (R14). -/
inductive Refusal where
  /-- An arm of exec without a meaning. Safe. -/
  | notModelled (mnemonic : String)
  /-- Any buffer transaction while STATUS.BUSY = 1 (R181). Safe: the spec gives it no meaning. -/
  | bufferAccessWhileBusy
  /-- ESTIMATE at a STATUS.STATE that none of R161 to R163 names; no run reaches it (log 10). Safe. -/
  | estimateOutOfSequence
  deriving DecidableEq, Repr

def Status.reset : Status :=
  { busy := false, done := false, err := false, ovr := false, errcode := .none, errcmd := 0, state := .idle, errstage := .none }

/-- Every element unwritten (R50). -/
def Memory.reset : Memory :=
  { mls := [], probe := [], tags := [], tagl := [], recd := [], work := [], ir := [] }

/-- No program, no schedule, nothing read and no draw used (DESIGN CHOICE, logs 1, 2, 4, 5). -/
def Env.reset : Env := { program := [], turns := [], data := none, draws := 0 }

/-- The state after reset (R50). -/
def State.reset : State :=
  { status := .reset, cancel := false, order := 0, reclen := 0, worklen := 0, seqn := 0, errarg0 := 0, errarg1 := 0,
    curCmd := 0, curN := 0, curReclen := 0, curWorklen := 0, mem := .reset, env := .reset }

/-- What one step answers. -/
abbrev Result := Host.Outcome State Fault Refusal

end Sys2Proof.Machine
end

