-- ==== Sys2Proof/Machine/Flags.lean ====
section
/-!
DEFINITION. STATUS and CTRL as registers (10_state.md R25 to R29, R36), and every change the rules make to the STATUS
fields: accept (44_host_interface.md R185), the overrun bit (60_exceptions.md R215), and the two ways a command ends (R212).
-/

namespace Sys2Proof.Machine

/-- R26. -/
def EngineState.code : EngineState → BitVec 3
  | .idle => 0
  | .permute => 1
  | .transform => 2
  | .permuteScale => 3
  | .done => 4
  | .exec => 5

/-- R27. -/
def ErrCode.code : ErrCode → BitVec 4
  | .none => 0
  | .config => 1
  | .integrity => 2
  | .shape => 3
  | .notReady => 4
  | .illegalCmd => 5
  | .cancelled => 6

/-- R28. -/
def ErrStage.code : ErrStage → BitVec 3
  | .none => 0
  | .check => 1
  | .permute => 2
  | .transform => 3
  | .permuteScale => 4
  | .generate => 5

/-- STATUS as the host reads it (R25): [18:16] ERRSTAGE, [14:12] STATE, [11:8] ERRCMD, [7:4] ERRCODE, [3] OVR, [2] ERR,
[1] DONE, [0] BUSY; [31:19] and [15] read 0 (R36). -/
def Status.word (st : Status) : Word32 :=
  0#13 ++ st.errstage.code ++ 0#1 ++ st.state.code ++ st.errcmd ++ st.errcode.code ++
    BitVec.ofBool st.ovr ++ BitVec.ofBool st.err ++ BitVec.ofBool st.done ++ BitVec.ofBool st.busy

/-- CTRL as the host reads it (R29): [0] CANCEL, [31:1] read 0. -/
def ctrlWord (cancel : Bool) : Word32 := 0#31 ++ BitVec.ofBool cancel

/-- The command word of ESTIMATE (R92). -/
def estimateWord : Word32 := 0x00000006

/-- STATUS after accepting the word `v` (R185). -/
def Status.accepted (v : Word32) : Status :=
  { busy := true, done := false, err := false, ovr := false, errcode := .none, errcmd := 0,
    state := if v = estimateWord then .permute else .exec, errstage := .none }

/-- STATUS after a dropped CMD write (R215). -/
def Status.overrun (st : Status) : Status := { st with ovr := true }

/-- STATUS after `finish` (R212). -/
def Status.finished (st : Status) : Status := { st with busy := false, done := true, state := .done }

/-- STATUS after `raise Error` (R212). -/
def Status.errored (st : Status) (code : ErrCode) (stage : ErrStage) (cmd : BitVec 4) : Status :=
  { st with
    busy := false, done := true, err := true, errcode := code, errcmd := cmd, state := .done, errstage := stage }

/-- STATUS with its STATE field set (R161, R162). -/
def Status.withState (st : Status) (e : EngineState) : Status := { st with state := e }

end Sys2Proof.Machine
end

