-- ==== Sys2Proof/Machine/Real.lean ====
section
/-!
DEFINITION. The number format `Num` (00_scope.md R7) and its value for this hardware: IEEE 754 binary64, round to nearest,
ties to even, no traps and no flags (R12). The IEEE semantics are general knowledge in the spec itself (G3; PRESUMED, log 12).
Method: a finite binary64 value is an exact multiple of 2^-1074, so operands become integers in that unit, the result is
computed exactly and narrowed once.

Every operation that can return a NaN takes the number of its draw: a NaN result is the quiet NaN of that draw, whatever
the draw is (`NaNResult`, R12, D41; log 5).
-/

namespace Sys2Proof.Machine

/-- The real-number format and its operations (R7, R12). The first argument of `add`, `sub` and `mul` numbers the
draw of NaNResult the operation uses if its result is a NaN. -/
structure Num (α : Type) where
  zero : α
  one : α
  negOne : α
  add : Nat → α → α → α
  sub : Nat → α → α → α
  mul : Nat → α → α → α
  neg : α → α
  pow2neg : Nat → α

namespace Binary64

/-- Bit 63 (R63). -/
def sign (a : Real64) : Bool := a.getLsbD 63

/-- Bits 62 to 52 (R63). -/
def biased (a : Real64) : Nat := (a.extractLsb' 52 11).toNat

/-- Bits 51 to 0 (R63). -/
def fraction (a : Real64) : Nat := (a.extractLsb' 0 52).toNat

def isNaN (a : Real64) : Bool := biased a = 0x7FF && fraction a ≠ 0

def isInf (a : Real64) : Bool := biased a = 0x7FF && fraction a = 0

/-- The magnitude of a finite value in units of 2^-1074. -/
def magnitude (a : Real64) : Nat :=
  if biased a = 0 then fraction a else (2 ^ 52 + fraction a) * 2 ^ (biased a - 1)

/-- A finite value in units of 2^-1074. -/
def value (a : Real64) : Int := if sign a then -(magnitude a : Int) else magnitude a

/-- The bits of a positive infinity below the sign. -/
def infBits : Nat := 0x7FF * 2 ^ 52

def withSign (neg : Bool) (bits : Nat) : Real64 := BitVec.ofNat 64 (bits + if neg then 2 ^ 63 else 0)

/-- `m >>> k` rounded to nearest, ties to even. -/
def roundShift (m k : Nat) : Nat :=
  let keep := m >>> k
  let rem := m % 2 ^ k
  if 2 ^ k < 2 * rem ∨ (2 * rem = 2 ^ k ∧ keep % 2 = 1) then keep + 1 else keep

/-- The binary64 nearest to `m` units of 2^-(1074 + s), ties to even, overflowing to infinity (R12). With `k` the number
of low bits dropped, `k - s` counts the result's binades above the subnormals; a significand of 2^52 or more carries
into the exponent field by itself. -/
def round (neg : Bool) (m s : Nat) : Real64 :=
  let k := max s (Nat.log2 m - 52)
  withSign neg (min infBits ((k - s) * 2 ^ 52 + roundShift m k))

/-- The NaN an operation returns on draw `d`: any quiet NaN; its sign and payload are not fixed (R12, U3, log 5). -/
def quietNaN (d : Nat) : Real64 := Config.nanDraw d ||| 0x7FF8000000000000#64

end Binary64

open Binary64 in
/-- a + b (R12). -/
def fadd (d : Nat) (a b : Real64) : Real64 :=
  if isNaN a || isNaN b then quietNaN d
  else if isInf a then (if isInf b && sign a != sign b then quietNaN d else a)
  else if isInf b then b
  else
    let v := value a + value b
    if v = 0 then withSign (sign a && sign b) 0 else round (decide (v < 0)) v.natAbs 0

/-- Flips the sign bit (R12). -/
def fneg (a : Real64) : Real64 := a ^^^ 0x8000000000000000#64

/-- a − b (R12): IEEE 754 subtraction is the addition of the negated operand. -/
def fsub (d : Nat) (a b : Real64) : Real64 := fadd d a (fneg b)

open Binary64 in
/-- a · b (R12). -/
def fmul (d : Nat) (a b : Real64) : Real64 :=
  if isNaN a || isNaN b then quietNaN d
  else if isInf a || isInf b then
    (if (!isInf a && magnitude a = 0) || (!isInf b && magnitude b = 0) then quietNaN d
     else withSign (sign a != sign b) infBits)
  else round (sign a != sign b) (magnitude a * magnitude b) 1074

/-- 2^−n, exact for 1 ≤ n ≤ 1022 (R12). -/
def pow2neg (n : Nat) : Real64 := BitVec.ofNat 64 ((1023 - n) * 2 ^ 52)

/-- +1.0 (R189). -/
def plusOne : Real64 := 0x3FF0000000000000

/-- −1.0 (R189). -/
def minusOne : Real64 := 0xBFF0000000000000

/-- +0.0. -/
def plusZero : Real64 := 0

/-- `Num` for this hardware (R7, D5). -/
def binary64 : Num Real64 :=
  { zero := plusZero, one := plusOne, negOne := minusOne, add := fadd, sub := fsub, mul := fmul, neg := fneg, pow2neg := pow2neg }

end Sys2Proof.Machine
end

