-- ==== Sys2Proof/Machine/Ops.lean ====
section
/-!
DEFINITION. The named operations over buffers and registers: reading and writing elements (00_scope.md R11), reading a
register (44_host_interface.md R183), accepting a command (R185) and writing CTRL (R186), ending a command by `finish` or by
`raise Error`, this hardware's exceptions (60_exceptions.md R212; nothing returns from one, R220: the next accept clears it),
the reset event (70_reset_and_hazards.md R240), and the shape every buffer transaction has (R181, R182).
-/

namespace Sys2Proof.Machine

/-! ### Buffers -/

/-- Element `i`, none if it is unwritten (R11). -/
def Buf.read {α : Type} : Buf α → Nat → Option α
  | [], _ => none
  | (j, v) :: rest, i => if i = j then some v else Buf.read rest i

/-- BufWrite (R11): element `i` holds `v` from now on. -/
def Buf.write {α : Type} : Buf α → Nat → α → Buf α
  | [], i, v => [(i, v)]
  | (j, w) :: rest, i, v =>
    if i < j then (i, v) :: (j, w) :: rest
    else if i = j then (i, v) :: rest
    else (j, w) :: Buf.write rest i v

/-- `vs` as the elements `i`, `i + 1`, … -/
def indexedFrom {α : Type} : Nat → List α → Buf α
  | _, [] => []
  | i, v :: vs => (i, v) :: indexedFrom (i + 1) vs

/-- BufWrite of `vs` at `i`, `i + 1`, …, every other element kept. A loop that writes a run of elements does so once, after its
reads (R13, R16; DEDUCED, log 14). -/
def Buf.writeRun {α : Type} (b : Buf α) (i : Nat) (vs : List α) : Buf α :=
  b.filter (fun c => c.1 < i) ++ indexedFrom i vs ++ b.filter (fun c => i + vs.length ≤ c.1)

/-- BufWrite of each pair in turn. -/
def Buf.writeAll {α : Type} (b : Buf α) : List (Nat × α) → Buf α
  | [] => b
  | (i, v) :: rest => Buf.writeAll (Buf.write b i v) rest

/-- BufRead (R11): an unwritten element is the model fault (R66). -/
def bufRead {α : Type} (sp : Space) (b : Buf α) (i : Nat) : Except Fault α :=
  match Buf.read b i with
  | some v => .ok v
  | none => .error (.unwrittenRead sp i)

/-- `for i in [i, i + n)` (R13): the values of `f` in index order, or the first fault. -/
def forRange {β : Type} (f : Nat → Except Fault β) : Nat → Nat → Except Fault (List β)
  | _, 0 => .ok []
  | i, n + 1 =>
    match f i with
    | .error e => .error e
    | .ok v =>
      match forRange f (i + 1) n with
      | .error e => .error e
      | .ok vs => .ok (v :: vs)

/-- A step that goes on with what was read, or ends at the model fault (R14). -/
def withRead {α : Type} (x : Except Fault α) (go : α → Result) : Result :=
  match x with
  | .error e => .fault e
  | .ok v => go v

/-- The capacity of a space (R60, R182). -/
def capacity : Space → Nat
  | .reg => 256
  | .mls | .probe | .tags | .tagl | .recd => Config.capSeq
  | .work | .ir => Config.capWork

/-- The canonical form of one buffer: indices strictly rising from `lo`, all below `cap`. -/
def Buf.wfFrom {α : Type} (cap : Nat) : Nat → Buf α → Bool
  | _, [] => true
  | lo, (j, _) :: rest => decide (lo ≤ j) && decide (j < cap) && Buf.wfFrom cap (j + 1) rest

/-- The canonical form of the buffers: each has strictly rising indices within its capacity (R37). -/
def Memory.wf (m : Memory) : Bool :=
  Buf.wfFrom (capacity .mls) 0 m.mls && Buf.wfFrom (capacity .probe) 0 m.probe &&
  Buf.wfFrom (capacity .tags) 0 m.tags && Buf.wfFrom (capacity .tagl) 0 m.tagl &&
  Buf.wfFrom (capacity .recd) 0 m.recd && Buf.wfFrom (capacity .work) 0 m.work &&
  Buf.wfFrom (capacity .ir) 0 m.ir

/-! ### Ending a command -/

/-- `finish` (R212). -/
def finish (s : State) : State := { s with status := s.status.finished }

/-- `raise Error(code, stage, a0, a1)` (R212): the one way an architected error is taken. -/
def raiseError (code : ErrCode) (stage : ErrStage) (a0 a1 : Word32) (s : State) : State :=
  { s with status := s.status.errored code stage (opcode s.curCmd), errarg0 := a0, errarg1 := a1 }

/-- An illegal command word's one step (R93). -/
def raiseIllegal (s : State) : State := raiseError .illegalCmd .check s.curCmd 0 s

/-- `raise Error(CONFIG, CHECK, N, NMAX)` (R111, R213). -/
def raiseConfig (s : State) : State := raiseError .config .check s.curN (BitVec.ofNat 32 Config.nmax) s

/-- `raise Error(NOT_READY, CHECK, SEQN, N)` (R213). -/
def raiseNotReady (s : State) : State := raiseError .notReady .check s.seqn s.curN s

/-- `raise Error(SHAPE, CHECK, supplied, expected)` (R213). -/
def raiseShape (supplied : Word32) (expected : Nat) (s : State) : State :=
  raiseError .shape .check supplied (BitVec.ofNat 32 expected) s

/-- `raise Error(INTEGRITY, stage, where, which)` (R213). -/
def raiseIntegrity (stage : ErrStage) (found which : Nat) (s : State) : State :=
  raiseError .integrity stage (BitVec.ofNat 32 found) (BitVec.ofNat 32 which) s

/-- A cancellation taken at `stage` (R162, R163): CTRL.CANCEL is cleared and CANCELLED raised. -/
def takeCancel (stage : ErrStage) (s : State) : State := raiseError .cancelled stage 0 0 { s with cancel := false }

/-- STATUS.STATE <- e (R161, R162). -/
def setState (e : EngineState) (s : State) : State := { s with status := s.status.withState e }

/-- The step used `n` more draws of NaNResult (log 5). -/
def useDraws (n : Nat) (s : State) : State := { s with env := { s.env with draws := s.env.draws + n } }

/-! ### Registers -/

/-- accept(v) (R185). -/
def accept (v : Word32) (s : State) : State :=
  if s.status.busy then { s with status := s.status.overrun }
  else
    { s with
      curCmd := v, curN := s.order, curReclen := s.reclen, curWorklen := s.worklen
      cancel := false
      errarg0 := 0, errarg1 := 0
      status := .accepted v }

/-- write_ctrl(v) (R186). -/
def writeCtrl (v : Word32) (s : State) : State := { s with cancel := v.getLsbD 0 }

/-- PARAM (R35): NMAX in bits [4:0], the rest 0. -/
def paramWord : Word32 := BitVec.ofNat 32 Config.nmax

/-- Reg(idx) as the host reads it (R183): CMD, reserved indices and indices of 256 and above read 0. -/
def regRead (idx : Nat) (s : State) : Word32 :=
  match idx with
  | 0 => 0
  | 1 => s.status.word
  | 2 => ctrlWord s.cancel
  | 3 => s.order
  | 4 => s.reclen
  | 5 => s.worklen
  | 6 => s.seqn
  | 7 => s.errarg0
  | 8 => s.errarg1
  | 9 => paramWord
  | _ => 0

/-- A register write (R184): read-only, reserved and out-of-range indices have no effect. -/
def regWrite (idx : Nat) (v : Word32) (s : State) : State :=
  match idx with
  | 0 => accept v s
  | 2 => writeCtrl v s
  | 3 => { s with order := v }
  | 4 => { s with reclen := v }
  | 5 => { s with worklen := v }
  | _ => s

/-- The reset event (R240): every part of the block at its value of R50; what stands around the block stays (log 11). -/
def resetEvent (s : State) : State := { State.reset with env := s.env }

/-! ### Host transactions -/

/-- A read returns DATA (R180; log 4). -/
def respond (v : Word64) (s : State) : State := { s with env := { s.env with data := some v } }

/-- What every buffer transaction tests first: BUSY (R181), then the range (R182). -/
def bufferTxn (sp : Space) (idx : Nat) (s : State) (outside inside : Result) : Result :=
  if s.status.busy then .refused .bufferAccessWhileBusy
  else if idx < capacity sp then inside else outside

/-- A buffer read: DATA is 0 out of range (R182), the element as `toData` carries it otherwise. -/
def hostRead {α : Type} (sp : Space) (b : Buf α) (toData : α → Word64) (idx : Nat) (s : State) : Result :=
  bufferTxn sp idx s (.next (respond 0 s)) (withRead (bufRead sp b idx) fun v => .next (respond (toData v) s))

/-- A buffer write that leaves the buffers as `m`; out of range it has no effect (R182). -/
def hostWrite (sp : Space) (idx : Nat) (m : Memory) (s : State) : Result :=
  bufferTxn sp idx s (.next s) (.next { s with mem := m })

/-- A write to a buffer the host may only read: no effect (R188, R190, R200). -/
def hostIgnore (sp : Space) (idx : Nat) (s : State) : Result := bufferTxn sp idx s (.next s) (.next s)

end Sys2Proof.Machine
end

