-- ==== Sys2Proof/Machine/Operands.lean ====
section
/-!
DEFINITION. The operands of the commands: the taps ROM (40_sequence.md R110), the orders it supports (R111), the lengths P
and L (00_scope.md R8), indices modulo P (R10), parity (R10), the window function (41_tags.md R130) and the bijection
check (R132); and the operand of a register or tag write (30_encoding.md R96).
-/

namespace Sys2Proof.Machine

/-- `TAPS[N]` (R110): the mask of order N; bit k selects stage k. -/
def taps : Nat → Option Nat
  | 1 => some 0x1
  | 2 => some 0x3
  | 3 => some 0x6
  | 4 => some 0xC
  | 5 => some 0x14
  | 6 => some 0x30
  | 7 => some 0x60
  | 8 => some 0xB8
  | 9 => some 0x110
  | 10 => some 0x240
  | 11 => some 0x500
  | 12 => some 0x829
  | 13 => some 0x100D
  | 14 => some 0x2015
  | 15 => some 0x6000
  | 16 => some 0xD008
  | 17 => some 0x12000
  | 18 => some 0x20400
  | _ => none

/-- The mask of a supported order: `Supported(N)` (R111) holds when there is one. -/
def supportedMask (n : Nat) : Option Nat := if 1 ≤ n ∧ n ≤ Config.nmax then taps n else none

/-- `Supported(N)` (R111). -/
def supported (n : Nat) : Bool := (supportedMask n).isSome

/-- P = 2^N − 1 (R8). -/
def seqLen (n : Nat) : Nat := 2 ^ n - 1

/-- L = 2^N (R8). -/
def workLen (n : Nat) : Nat := 2 ^ n

/-- (i − k) mod P, the non-negative residue (R10). -/
def backMod (p i k : Nat) : Nat := (((i : Int) - (k : Int)) % (p : Int)).toNat

/-- parity of the low `width` bits of `x` (R10). -/
def parity : Nat → Nat → Nat
  | 0, _ => 0
  | width + 1, x => (x + parity width (x / 2)) % 2

/-- Σ_{k in [k, k + n)} BufRead(MLS, (i − k) mod P) · 2^(n − 1 − (k − start)): the sum of R130 from its k-th term on. -/
def windowFrom (mls : Buf Bit) (p i : Nat) : Nat → Nat → Except Fault Nat
  | _, 0 => .ok 0
  | k, n + 1 =>
    match bufRead .mls mls (backMod p i k) with
    | .error e => .error e
    | .ok b =>
      match windowFrom mls p i (k + 1) n with
      | .error e => .error e
      | .ok w => .ok (b.toNat * 2 ^ n + w)

/-- W(i) (R130): the N samples ending at i, the sample at i most significant. -/
def window (mls : Buf Bit) (n i : Nat) : Except Fault Nat := windowFrom mls (seqLen n) i 0 n

/-- The least index from `i` on whose value is outside [1, P] or is among the values before it, which `seen` holds (R132). -/
def firstOffender (p : Nat) : List Word32 → Nat → List Word32 → Option Nat
  | _, _, [] => none
  | seen, i, v :: vs =>
    if v.toNat < 1 ∨ p < v.toNat ∨ v ∈ seen then some i else firstOffender p (v :: seen) (i + 1) vs

/-- FirstBad(B, P) (R132): it reads B[0..P−1] in index order, and answers the least offending index. The reads come first, so
an unwritten element is the model fault wherever an offender stands (R66, R214). -/
def firstBad (sp : Space) (b : Buf Word32) (p : Nat) : Except Fault (Option Nat) :=
  match forRange (bufRead sp b) 0 p with
  | .error e => .error e
  | .ok vs => .ok (firstOffender p [] 0 vs)

/-- DATA[31:0], all that a write to REG, TAGS or TAGL uses (R96). -/
def lowData (d : Word64) : Word32 := d.extractLsb' 0 32

/-- A 32-bit value or a bit on the 64-bit DATA lines (R96). -/
def zextData {w : Nat} (v : BitVec w) : Word64 := v.zeroExtend 64

end Sys2Proof.Machine
end

