-- ==== Sys2Proof/Machine/HostPort.lean ====
section
/-!
DEFINITION. The sixteen host transactions (44_host_interface.md R183 to R200). Those on buffers test BUSY and then the
range first (R181, R182). An INDEX of 2^32 or more, which no encoding carries, is out of range like any other (log 15).
-/

namespace Sys2Proof.Machine

/-- RD.REG (R183). -/
def execRdReg (idx : Nat) (s : State) : Result := .next (respond (zextData (regRead idx s)) s)

/-- WR.REG (R184). -/
def execWrReg (idx : Nat) (dat : Word64) (s : State) : Result := .next (regWrite idx (lowData dat) s)

/-- RD.MLS (R187). -/
def execRdMls (idx : Nat) (s : State) : Result := hostRead .mls s.mem.mls zextData idx s

/-- WR.MLS (R188). -/
def execWrMls (idx : Nat) (_dat : Word64) (s : State) : Result := hostIgnore .mls idx s

/-- RD.PROBE (R189). -/
def execRdProbe (idx : Nat) (s : State) : Result := hostRead .probe s.mem.probe id idx s

/-- WR.PROBE (R190). -/
def execWrProbe (idx : Nat) (_dat : Word64) (s : State) : Result := hostIgnore .probe idx s

/-- RD.TAGS (R191). -/
def execRdTags (idx : Nat) (s : State) : Result := hostRead .tags s.mem.tags zextData idx s

/-- WR.TAGS (R192). -/
def execWrTags (idx : Nat) (dat : Word64) (s : State) : Result :=
  hostWrite .tags idx { s.mem with tags := s.mem.tags.write idx (lowData dat) } s

/-- RD.TAGL (R193). -/
def execRdTagl (idx : Nat) (s : State) : Result := hostRead .tagl s.mem.tagl zextData idx s

/-- WR.TAGL (R194). -/
def execWrTagl (idx : Nat) (dat : Word64) (s : State) : Result :=
  hostWrite .tagl idx { s.mem with tagl := s.mem.tagl.write idx (lowData dat) } s

/-- RD.REC (R195). -/
def execRdRec (idx : Nat) (s : State) : Result := hostRead .recd s.mem.recd id idx s

/-- WR.REC (R196). -/
def execWrRec (idx : Nat) (dat : Word64) (s : State) : Result :=
  hostWrite .recd idx { s.mem with recd := s.mem.recd.write idx dat } s

/-- RD.WORK (R197). -/
def execRdWork (idx : Nat) (s : State) : Result := hostRead .work s.mem.work id idx s

/-- WR.WORK (R198). -/
def execWrWork (idx : Nat) (dat : Word64) (s : State) : Result :=
  hostWrite .work idx { s.mem with work := s.mem.work.write idx dat } s

/-- RD.IR (R199). -/
def execRdIr (idx : Nat) (s : State) : Result := hostRead .ir s.mem.ir id idx s

/-- WR.IR (R200). -/
def execWrIr (idx : Nat) (_dat : Word64) (s : State) : Result := hostIgnore .ir idx s

end Sys2Proof.Machine
end

