-- ==== Sys2Proof/Machine/Transform.lean ====
section
/-!
DEFINITION. The transform kernel and FHT (42_transform.md R150, R151). The kernel is written for any `Num` (00_scope.md R7),
so that what it computes in exact arithmetic (R152) can be stated of the same text.
-/

namespace Sys2Proof.Machine

/-- `f` on corresponding elements of two lists, the draws numbered from `d` on. -/
def zipDraws {α : Type} (f : Nat → α → α → α) : Nat → List α → List α → List α
  | d, a :: as, b :: bs => f d a b :: zipDraws f (d + 1) as bs
  | _, _, _ => []

/-- One block of a stage (R150): (a, b) becomes (a + b, a − b) for each pair at distance half the block. -/
def butterflies {α : Type} (num : Num α) (d : Nat) (lo hi : List α) : List α :=
  zipDraws num.add d lo hi ++ zipDraws num.sub (d + lo.length) lo hi

/-- One stage (R150): `blocks` blocks of two halves of `h` elements each. -/
def htStage {α : Type} (num : Num α) (h : Nat) : Nat → Nat → List α → List α
  | 0, _, _ => []
  | blocks + 1, d, v =>
    butterflies num d (v.take h) ((v.drop h).take h) ++ htStage num h blocks (d + 2 * h) (v.drop (2 * h))

/-- The stages of HT (R150): `stages` of them, the first with butterflies at distance 2^(stages − 1) in `blocks` blocks, the
last at distance 1. Each element of each stage has its own draw. -/
def htStages {α : Type} (num : Num α) : Nat → Nat → Nat → List α → List α
  | 0, _, _, v => v
  | stages + 1, blocks, d, v =>
    htStages num stages (2 * blocks) (d + v.length) (htStage num (2 ^ stages) blocks d v)

/-- HT on L = 2^n values (R150). -/
def hadamard {α : Type} (num : Num α) (n d : Nat) (v : List α) : List α := htStages num n 1 d v

/-- The reads of the first stage (R150), in its order: element k, then element k + L/2, for each k. After them every
element has been read. -/
def readHalves {α : Type} (b : Buf α) (h : Nat) : Except Fault (List (α × α)) :=
  forRange (fun k =>
    match bufRead .work b k with
    | .error e => .error e
    | .ok x =>
      match bufRead .work b (k + h) with
      | .error e => .error e
      | .ok y => .ok (x, y)) 0 h

/-- HT(WORK, 2^n) (R150), the draws numbered from `d` on. With L = 1 the loop does not run. -/
def transform {α : Type} (num : Num α) (d : Nat) (work : Buf α) : Nat → Except Fault (Buf α)
  | 0 => .ok work
  | k + 1 =>
    match readHalves work (2 ^ k) with
    | .error e => .error e
    | .ok ps => .ok (work.writeRun 0 (hadamard num (k + 1) d (ps.map (·.1) ++ ps.map (·.2))))

/-- The draws that HT on 2^n elements uses (log 5). -/
def transformDraws (n : Nat) : Nat := n * workLen n

/-- FHT (R151). -/
def execFht (s : State) : Result :=
  let n := s.curN.toNat
  if !supported n then .next (raiseConfig s)
  else if s.curWorklen.toNat ≠ workLen n then .next (raiseShape s.curWorklen (workLen n) s)
  else
    withRead (transform binary64 s.env.draws s.mem.work n) fun work =>
      .next (finish (useDraws (transformDraws n) { s with mem := { s.mem with work := work } }))

end Sys2Proof.Machine
end

