-- ==== Sys2Proof/Machine/Pipeline.lean ====
section
/-!
DEFINITION. ESTIMATE (43_pipeline.md R160 to R163): one command, three engine steps chosen by STATUS.STATE. The three
stages are written for any `Num` (00_scope.md R7).
-/

namespace Sys2Proof.Machine

/-- The sum of the samples, a left fold from `acc` rounded after each addition (R161, D6). -/
def sumFrom {α : Type} (num : Num α) : Nat → α → List α → α
  | _, acc, [] => acc
  | d, acc, x :: xs => sumFrom num (d + 1) (num.add d acc x) xs

/-- (TAGS[i], REC[i]) for i in [0, P), as stage 1 reads them (R161). -/
def readPermutation {α : Type} (tags : Buf Word32) (recd : Buf α) (p : Nat) : Except Fault (List (Nat × α)) :=
  forRange (fun i =>
    match bufRead .tags tags i with
    | .error e => .error e
    | .ok t =>
      match bufRead .recd recd i with
      | .error e => .error e
      | .ok r => .ok (t.toNat, r)) 0 p

/-- Stage 1, signal permutation (R161): WORK[0] = −dc, WORK[TAGS[i]] = REC[i]. -/
def permuteStage {α : Type} (num : Num α) (d : Nat) (tags : Buf Word32) (recd work : Buf α) (p : Nat) :
    Except Fault (Buf α) :=
  match forRange (bufRead .recd recd) 0 p with
  | .error e => .error e
  | .ok xs =>
    match readPermutation tags recd p with
    | .error e => .error e
    | .ok ps => .ok ((work.write 0 (num.neg (sumFrom num d num.zero xs))).writeAll ps)

/-- WORK[TAGL[i]] · 2^−N for i in [0, P) (R163). -/
def scaledResponse {α : Type} (num : Num α) (d n : Nat) (tagl : Buf Word32) (work : Buf α) : Except Fault (List α) :=
  forRange (fun i =>
    match bufRead .tagl tagl i with
    | .error e => .error e
    | .ok t =>
      match bufRead .work work t.toNat with
      | .error e => .error e
      | .ok w => .ok (num.mul (d + i) w (num.pow2neg n))) 0 (seqLen n)

/-- Stage 3, response permutation and scaling (R163): IR[0..P−1], then IR[P] = +0.0. -/
def scaleStage {α : Type} (num : Num α) (d n : Nat) (tagl : Buf Word32) (work ir : Buf α) : Except Fault (Buf α) :=
  match scaledResponse num d n tagl work with
  | .error e => .error e
  | .ok vs => .ok (ir.writeRun 0 (vs ++ [num.zero]))

/-- The bijection check of a supplied tag array before stage 1 (R161; `which` names the array in ERRARG1, R213). -/
def checkSupplied (sp : Space) (b : Buf Word32) (p which : Nat) (s : State) (go : Result) : Result :=
  withRead (firstBad sp b p) fun
    | some f => .next (raiseIntegrity .check f which s)
    | none => go

/-- ESTIMATE step 1 (R161). -/
def estimatePermute (s : State) : Result :=
  let n := s.curN.toNat
  let p := seqLen n
  if !supported n then .next (raiseConfig s)
  else if s.curReclen.toNat ≠ p then .next (raiseShape s.curReclen p s)
  else
    checkSupplied .tags s.mem.tags p 0 s <|
      checkSupplied .tagl s.mem.tagl p 1 s <|
        withRead (permuteStage binary64 s.env.draws s.mem.tags s.mem.recd s.mem.work p) fun work =>
          .next (setState .transform (useDraws p { s with mem := { s.mem with work := work } }))

/-- ESTIMATE step 2 (R162). -/
def estimateTransform (s : State) : Result :=
  let n := s.curN.toNat
  if s.cancel then .next (takeCancel .transform s)
  else
    withRead (transform binary64 s.env.draws s.mem.work n) fun work =>
      .next (setState .permuteScale (useDraws (transformDraws n) { s with mem := { s.mem with work := work } }))

/-- ESTIMATE step 3 (R163). -/
def estimateScale (s : State) : Result :=
  let n := s.curN.toNat
  if s.cancel then .next (takeCancel .permuteScale s)
  else
    withRead (scaleStage binary64 s.env.draws n s.mem.tagl s.mem.work s.mem.ir) fun ir =>
      .next (finish (useDraws (seqLen n) { s with mem := { s.mem with ir := ir } }))

/-- ESTIMATE (R160): the step that STATUS.STATE names. No rule gives it a step at any other STATE, and no run reaches
one (log 10). -/
def execEstimate (s : State) : Result :=
  match s.status.state with
  | .permute => estimatePermute s
  | .transform => estimateTransform s
  | .permuteScale => estimateScale s
  | .idle => .refused .estimateOutOfSequence
  | .done => .refused .estimateOutOfSequence
  | .exec => .refused .estimateOutOfSequence

end Sys2Proof.Machine
end

