-- ==== Sys2Proof/Machine/Sequence.lean ====
section
/-!
DEFINITION. GENSEQ and BIPOLAR (40_sequence.md R112, R115).
-/

namespace Sys2Proof.Machine

/-- The delay line all ones (R112). The line is held as Σ d[k]·2^k. -/
def allOnes (n : Nat) : Nat := 2 ^ n - 1

/-- The feedback bit: the parity of the tapped stages, before the shift (R112). -/
def feedback (n m d : Nat) : Nat := parity n (m &&& d)

/-- The delay line after one step: stage i takes stage i−1, stage 0 the feedback bit (R112). -/
def shiftLine (n m d : Nat) : Nat := (2 * d + feedback n m d) % 2 ^ n

/-- The bit a step emits: stage N−1 before the shift (R112). -/
def lastStage (n d : Nat) : Bit := BitVec.ofBool (d.testBit (n - 1))

/-- The bits of the next `count` steps from the delay line `d` (R112). -/
def lfsr (n m : Nat) : Nat → Nat → List Bit
  | 0, _ => []
  | count + 1, d => lastStage n d :: lfsr n m count (shiftLine n m d)

/-- MLS[0..P−1] of order `n` with mask `m` (R112). -/
def sequence (n m : Nat) : List Bit := lfsr n m (seqLen n) (allOnes n)

/-- GENSEQ (R112). -/
def execGenseq (s : State) : Result :=
  match supportedMask s.curN.toNat with
  | none => .next (raiseConfig s)
  | some m =>
    .next (finish { s with
      mem := { s.mem with mls := s.mem.mls.writeRun 0 (sequence s.curN.toNat m) }
      seqn := s.curN })

/-- +1.0 for 0, −1.0 for 1 (R115). -/
def bipolar {α : Type} (num : Num α) (b : Bit) : α := if b = 0#1 then num.one else num.negOne

/-- PROBE[0..P−1] from MLS (R115). -/
def bipolarRun {α : Type} (num : Num α) (mls : Buf Bit) (p : Nat) : Except Fault (List α) :=
  forRange (fun i =>
    match bufRead .mls mls i with
    | .error e => .error e
    | .ok b => .ok (bipolar num b)) 0 p

/-- BIPOLAR (R115). -/
def execBipolar (s : State) : Result :=
  let n := s.curN.toNat
  if !supported n then .next (raiseConfig s)
  else if s.seqn ≠ s.curN then .next (raiseNotReady s)
  else
    withRead (bipolarRun binary64 s.mem.mls (seqLen n)) fun vs =>
      .next (finish { s with mem := { s.mem with probe := s.mem.probe.writeRun 0 vs } })

end Sys2Proof.Machine
end

