-- ==== Sys2Proof/Machine/Tags.lean ====
section
/-!
DEFINITION. GENTAGS and GENTAGL (41_tags.md R131, R134).
-/

namespace Sys2Proof.Machine

/-- A command that has just written the generated tags `b` of `p` elements: the bijection check of its own output
(R131, R134; `which` names the array in ERRARG1, R213). -/
def checkGenerated (sp : Space) (b : Buf Word32) (p which : Nat) (s : State) : Result :=
  withRead (firstBad sp b p) fun
    | some f => .next (raiseIntegrity .generate f which s)
    | none => .next (finish s)

/-- W(i) for i in [0, P) (R131; also phase (1) of R134, where it is colSum). -/
def windows (mls : Buf Bit) (n : Nat) : Except Fault (List Nat) := forRange (window mls n) 0 (seqLen n)

/-- GENTAGS (R131). -/
def execGentags (s : State) : Result :=
  let n := s.curN.toNat
  if !supported n then .next (raiseConfig s)
  else if s.seqn ≠ s.curN then .next (raiseNotReady s)
  else
    withRead (windows s.mem.mls n) fun ws =>
      let tags := s.mem.tags.writeRun 0 (ws.map (BitVec.ofNat 32))
      checkGenerated .tags tags (seqLen n) 0 { s with mem := { s.mem with tags := tags } }

/-- The positions from `i` on at which a list holds `v`: the set S of R134. -/
def positionsFrom (v : Nat) : Nat → List Nat → List Nat
  | _, [] => []
  | i, w :: ws => if w = v then i :: positionsFrom v (i + 1) ws else positionsFrom v (i + 1) ws

/-- index[j], index[j+1], … for `n` values of j (R134); or the least j whose unit value 2^j does not occur exactly once. -/
def unitIndexFrom (colSum : List Nat) : Nat → Nat → Except Nat (List Nat)
  | _, 0 => .ok []
  | j, n + 1 =>
    match positionsFrom (2 ^ j) 0 colSum with
    | [p] =>
      match unitIndexFrom colSum (j + 1) n with
      | .error e => .error e
      | .ok ps => .ok (p :: ps)
    | _ => .error j

/-- Σ_j BufRead(MLS, (index[j] − i) mod P) · 2^j, from bit j on (R134). -/
def tagSumFrom (mls : Buf Bit) (p i : Nat) : Nat → List Nat → Except Fault Nat
  | _, [] => .ok 0
  | j, x :: xs =>
    match bufRead .mls mls (backMod p x i) with
    | .error e => .error e
    | .ok b =>
      match tagSumFrom mls p i (j + 1) xs with
      | .error e => .error e
      | .ok w => .ok (b.toNat * 2 ^ j + w)

/-- TAGL[0..P−1] (R134, phase (2)). -/
def inverseTags (mls : Buf Bit) (index : List Nat) (p : Nat) : Except Fault (List Nat) :=
  forRange (fun i => tagSumFrom mls p i 0 index) 0 p

/-- GENTAGL (R134). -/
def execGentagl (s : State) : Result :=
  let n := s.curN.toNat
  if !supported n then .next (raiseConfig s)
  else if s.seqn ≠ s.curN then .next (raiseNotReady s)
  else
    withRead (windows s.mem.mls n) fun colSum =>
      match unitIndexFrom colSum 0 n with
      | .error j => .next (raiseIntegrity .generate j 2 s)
      | .ok index =>
        withRead (inverseTags s.mem.mls index (seqLen n)) fun ts =>
          let tagl := s.mem.tagl.writeRun 0 (ts.map (BitVec.ofNat 32))
          checkGenerated .tagl tagl (seqLen n) 1 { s with mem := { s.mem with tagl := tagl } }

end Sys2Proof.Machine
end

