-- ==== Sys2Proof/Machine/Dispatch.lean ====
section
/-! DEFINITION. One arm per instruction: each calls its meaning. -/

namespace Sys2Proof.Machine

def exec (i : Instr) (s : State) : Host.Outcome State Fault Refusal :=
  match i with
  | .genseq => Sys2Proof.Machine.execGenseq s
  | .bipolar => Sys2Proof.Machine.execBipolar s
  | .gentags => Sys2Proof.Machine.execGentags s
  | .gentagl => Sys2Proof.Machine.execGentagl s
  | .fht => Sys2Proof.Machine.execFht s
  | .estimate => Sys2Proof.Machine.execEstimate s
  | .rdReg idx => Sys2Proof.Machine.execRdReg idx s
  | .wrReg idx dat => Sys2Proof.Machine.execWrReg idx dat s
  | .rdMls idx => Sys2Proof.Machine.execRdMls idx s
  | .wrMls idx dat => Sys2Proof.Machine.execWrMls idx dat s
  | .rdProbe idx => Sys2Proof.Machine.execRdProbe idx s
  | .wrProbe idx dat => Sys2Proof.Machine.execWrProbe idx dat s
  | .rdTags idx => Sys2Proof.Machine.execRdTags idx s
  | .wrTags idx dat => Sys2Proof.Machine.execWrTags idx dat s
  | .rdTagl idx => Sys2Proof.Machine.execRdTagl idx s
  | .wrTagl idx dat => Sys2Proof.Machine.execWrTagl idx dat s
  | .rdRec idx => Sys2Proof.Machine.execRdRec idx s
  | .wrRec idx dat => Sys2Proof.Machine.execWrRec idx dat s
  | .rdWork idx => Sys2Proof.Machine.execRdWork idx s
  | .wrWork idx dat => Sys2Proof.Machine.execWrWork idx dat s
  | .rdIr idx => Sys2Proof.Machine.execRdIr idx s
  | .wrIr idx dat => Sys2Proof.Machine.execWrIr idx dat s

end Sys2Proof.Machine
end

