-- ==== Sys2Proof/Machine/Fetch.lean ====
section
/-!
DEFINITION. Which step is taken next, and what it runs (00_scope.md R17; 70_reset_and_hazards.md R240, R251). The block has
no program counter (10_state.md R22): the host's program order is the instruction stream of host steps, and the engine runs
the command in CUR_CMD.
-/

namespace Sys2Proof.Machine

/-- Who takes the next step; `ended` when neither agent has one (R17). -/
inductive Move where
  | host | engine | reset | ended
  deriving DecidableEq, Repr

/-- The host has a step while its program lasts (R17). -/
def hostEnabled (s : State) : Bool := !s.env.program.isEmpty

/-- The engine has a step exactly when STATUS.BUSY = 1 (R17). -/
def engineEnabled (s : State) : Bool := s.status.busy

/-- The agent of the first turn; a turn whose agent has no step falls to the other agent, and when no turns are listed
the engine goes first, which is weak fairness (R251; log 1). -/
def nextMove (s : State) : Move :=
  match s.env.turns with
  | .reset :: _ => .reset
  | .host :: _ => if hostEnabled s then .host else if engineEnabled s then .engine else .ended
  | _ => if engineEnabled s then .engine else if hostEnabled s then .host else .ended

/-- The turn is used up. -/
def takeTurn (s : State) : State := { s with env := { s.env with turns := s.env.turns.tail } }

def setProgram (ops : List HostOp) (s : State) : State := { s with env := { s.env with program := ops } }

/-- A step runs an instruction from a state, or it moves to a state without one. -/
inductive Fetched where
  | run (i : Instr) (s : State)
  | moved (s : State)
  deriving DecidableEq, Repr

/-- The engine's step: the command in CUR_CMD, or ILLEGAL_CMD for an illegal word (R93). -/
def engineFetch (s : State) : Fetched :=
  match decodeCommand s.curCmd with
  | .ok i => .run i s
  | .error _ => .moved (raiseIllegal s)

/-- WAIT reads STATUS, and stays in the program while bit [0] of the value read is 1 (R97). -/
def afterWait (rest : List HostOp) (s : State) : State :=
  if (regRead 1 s).getLsbD 0 then s else setProgram rest s

/-- The host's step: the next line of its program (R17, R97). -/
def hostFetch (s : State) : Fetched :=
  match s.env.program with
  | [] => .moved s
  | .txn t :: rest => .run (decodeTxn t) (setProgram rest s)
  | .wait :: rest => .run (.rdReg 1) (afterWait rest s)
  | .reset :: rest => .moved (resetEvent (setProgram rest s))

def fetch (s : State) : Fetched :=
  match nextMove s with
  | .host => hostFetch (takeTurn s)
  | .engine => engineFetch (takeTurn s)
  | .reset => .moved (resetEvent (takeTurn s))
  | .ended => .moved (takeTurn s)

/-- `s` with an encoded instruction placed where the next step takes it from (log 3): a transaction as the next line of
the program, the host to move; a command word accepted (R185) with the engine free, the engine to move. -/
def place (e : Encoded) (s : State) : State :=
  match e with
  | .transaction t => { s with env := { s.env with program := .txn t :: s.env.program, turns := .host :: s.env.turns } }
  | .command w =>
    let free : State :=
      { s with status := { s.status with busy := false }, env := { s.env with turns := .engine :: s.env.turns } }
    accept w free

end Sys2Proof.Machine
end

