-- ==== Sys2Proof/Machine/Step.lean ====
section
/-! DEFINITION. One step of the machine: the step that `fetch` selects, of either agent (00_scope.md R14, R17). -/

namespace Sys2Proof.Machine

def step (s : State) : Host.Outcome State Fault Refusal :=
  match fetch s with
  | .run i s' => exec i s'
  | .moved s' => .next s'

/-- `s` with the instruction of the word `w` placed so that the next step runs it (logs 2, 3). -/
def State.withFetchWord (s : State) (nbits w : Nat) : State := place (Encoded.ofBits nbits w) s

end Sys2Proof.Machine
end

