-- ==== Sys2Proof/Safety.lean ====
section
/-!
DEFINITION. The terms the claims use: what a buffer holds, what a bijection check finds, how a command's end shows in STATUS,
the transform element by element, exact arithmetic as a `Num`, and the invariants of a safe run (10_state.md R25, R33, R37, R39;
60_exceptions.md R217).
-/

namespace Sys2Proof.Machine

/-! ### Buffers -/

/-- Elements 0 to n − 1 hold the values `v`. -/
def Holds {α : Type} (b : Buf α) (n : Nat) (v : Nat → α) : Prop := ∀ i, i < n → Buf.read b i = some (v i)

/-- Elements 0 to n − 1 are written. -/
def Written {α : Type} (b : Buf α) (n : Nat) : Prop := ∀ i, i < n → (Buf.read b i).isSome = true

/-- `b'` is `b` with only elements 0 to n − 1 changed. -/
def SameFrom {α : Type} (n : Nat) (b b' : Buf α) : Prop := ∀ i, n ≤ i → Buf.read b' i = Buf.read b i

/-! ### Tags (41_tags.md R130, R132) -/

/-- `v` maps [0, p) one to one into {1, …, p}. -/
def Bijective (v : Nat → Nat) (p : Nat) : Prop :=
  (∀ i, i < p → 1 ≤ v i ∧ v i ≤ p) ∧ ∀ i j, i < p → j < p → v i = v j → i = j

/-- Index `f` offends in the sense of R132. -/
def Offends (v : Nat → Nat) (p f : Nat) : Prop := f < p ∧ (v f < 1 ∨ p < v f ∨ ∃ k, k < f ∧ v k = v f)

/-- `f` is the least offending index (R132). -/
def LeastOffender (v : Nat → Nat) (p f : Nat) : Prop := Offends v p f ∧ ∀ k, k < f → ¬ Offends v p k

/-- W(i) of R130 as the sum the rule writes, over the samples `m`. -/
def windowSum (m : Nat → Bit) (n i : Nat) : Nat :=
  ((List.range n).map fun k => (m (backMod (seqLen n) i k)).toNat * 2 ^ (n - 1 - k)).sum

/-- TAGL[i] of R134 as the sum the rule writes, over the samples `m` and the positions `index`. -/
def inverseSum (m : Nat → Bit) (index : Nat → Nat) (n i : Nat) : Nat :=
  ((List.range n).map fun j => (m (backMod (seqLen n) (index j) i)).toNat * 2 ^ j).sum

/-- `q` is the unique position whose window is 2^j (R134). -/
def UnitPosition (m : Nat → Bit) (n j q : Nat) : Prop :=
  q < seqLen n ∧ windowSum m n q = 2 ^ j ∧ ∀ i, i < seqLen n → windowSum m n i = 2 ^ j → i = q

/-! ### The generator (40_sequence.md R112, R113) -/

/-- The delay line at the start of step t. -/
def lineAt (n m : Nat) : Nat → Nat
  | 0 => allOnes n
  | t + 1 => shiftLine n m (lineAt n m t)

/-- A maximal mask of order n: the delay line first returns to all ones after exactly P steps (R113 item 3). -/
def MaximalMask (n m : Nat) : Prop :=
  1 ≤ n ∧ m < 2 ^ n ∧ lineAt n m (seqLen n) = allOnes n ∧ ∀ t, 0 < t → t < seqLen n → lineAt n m t ≠ allOnes n

/-- The taps of R110 by order 1 to 18, as the rule writes them: 1-based stage numbers, the last stage first. -/
def romStages : List (List Nat) :=
  [[1], [2, 1], [3, 2], [4, 3], [5, 3], [6, 5], [7, 6], [8, 6, 5, 4], [9, 5]] ++
  [[10, 7], [11, 9], [12, 6, 4, 1], [13, 4, 3, 1], [14, 5, 3, 1], [15, 14], [16, 15, 13, 4], [17, 14], [18, 11]]

/-- The mask of taps at these stages: stage s sets bit s − 1 (R110). -/
def stageMask (stages : List Nat) : Nat := (stages.map fun s => 2 ^ (s - 1)).sum

/-- MLS[i] as GENSEQ of order n with mask m writes it. -/
def sample (n m i : Nat) : Bit := (sequence n m).getD i 0#1

/-! ### Binary64 (00_scope.md R12) -/

/-- Neither an infinity nor a NaN. -/
def IsFinite (a : Real64) : Prop := Binary64.biased a ≠ 0x7FF

/-- `r` is a binary64 nearest to `v / scale` units of 2^-1074, and the one with an even fraction where two are nearest. -/
def NearestEven (r : Real64) (v : Int) (scale : Nat) : Prop :=
  ∀ c, IsFinite c →
    (Binary64.value r * scale - v).natAbs ≤ (Binary64.value c * scale - v).natAbs ∧
    ((Binary64.value r * scale - v).natAbs = (Binary64.value c * scale - v).natAbs →
      Binary64.value c ≠ Binary64.value r → Binary64.fraction r % 2 = 0)

/-- The infinity of a sign. -/
def infinity (neg : Bool) : Real64 := if neg then 0xFFF0000000000000 else 0x7FF0000000000000

/-- The zero of a sign. -/
def signedZero (neg : Bool) : Real64 := if neg then 0x8000000000000000 else 0x0000000000000000

/-- `r` is `v / scale` units of 2^-1074 rounded once to nearest, ties to even (R12): below 2^1024 − 2^970 in magnitude it is the
nearest finite value, from there on the infinity of that sign; a result that is not exactly zero keeps its sign. -/
def RoundsTo (r : Real64) (v : Int) (scale : Nat) : Prop :=
  (v.natAbs < (2 ^ 1024 - 2 ^ 970) * 2 ^ 1074 * scale → IsFinite r ∧ NearestEven r v scale) ∧
  ((2 ^ 1024 - 2 ^ 970) * 2 ^ 1074 * scale ≤ v.natAbs → r = infinity (decide (v < 0))) ∧
  (v ≠ 0 → Binary64.sign r = decide (v < 0))

/-! ### The transform (42_transform.md R150 to R153) -/

/-- Element k after the first `j` stages of HT on 2^n values `v` (R150): the pair at distance h = 2^(n−j) is (k, k + h), and
k is its lower element when bit n − j of k is 0. Draw numbers as the model assigns them (log 5). -/
def htValue {α : Type} (num : Num α) (n d : Nat) (v : Nat → α) : Nat → Nat → α
  | 0, k => v k
  | j + 1, k =>
    let h := 2 ^ (n - (j + 1))
    let draw := d + j * 2 ^ n + k
    if k / h % 2 = 0 then num.add draw (htValue num n d v j k) (htValue num n d v j (k + h))
    else num.sub draw (htValue num n d v j (k - h)) (htValue num n d v j k)

/-- Exact arithmetic on the integers; it has no halves, so `pow2neg` is not used of it. -/
def exactInt : Num Int :=
  { zero := 0, one := 1, negOne := -1, add := fun _ a b => a + b, sub := fun _ a b => a - b, mul := fun _ a b => a * b,
    neg := fun a => -a, pow2neg := fun _ => 0 }

/-- Exact arithmetic on the rationals. -/
def exactRat : Num Rat :=
  { zero := 0, one := 1, negOne := -1, add := fun _ a b => a + b, sub := fun _ a b => a - b, mul := fun _ a b => a * b,
    neg := fun a => -a, pow2neg := fun n => 1 / 2 ^ n }

/-- (−1)^popcount(u AND v), over the low n bits (R152). -/
def hadamardSign (n u v : Nat) : Int := if parity n (u &&& v) = 0 then 1 else -1

/-! ### How a command ends (60_exceptions.md R212) -/

/-- STATUS after `finish`. -/
def doneStatus (s : State) : Status := { s.status with busy := false, done := true, state := .done }

/-- STATUS after `raise Error(code, stage, …)`. -/
def errorStatus (s : State) (code : ErrCode) (stage : ErrStage) : Status :=
  { busy := false, done := true, err := true, ovr := s.status.ovr, errcode := code, errcmd := s.curCmd.extractLsb' 0 4,
    state := .done, errstage := stage }

/-- `s` with the error reported and nothing else changed. -/
def errorState (s : State) (code : ErrCode) (stage : ErrStage) (a0 a1 : Word32) : State :=
  { s with status := errorStatus s code stage, errarg0 := a0, errarg1 := a1 }

/-- A result with `f` applied to its next state. -/
def mapNext (f : State → State) : Result → Result
  | .next t => .next (f t)
  | .fault e => .fault e
  | .refused r => .refused r

/-! ### Runs and invariants -/

/-- The end of a run (00_scope.md R17). -/
def Ended (s : State) : Prop := s.env.program = [] ∧ s.status.busy = false

/-- What the rules keep of STATUS (R25), with STATE telling when a command runs (R26). -/
def StatusInv (st : Status) : Prop :=
  (st.busy = true → st.done = false ∧ st.err = false) ∧
  (st.err = true → st.done = true ∧ st.errcode ≠ .none) ∧
  (st.err = false → st.errcode = .none ∧ st.errcmd = 0 ∧ st.errstage = .none) ∧
  (st.busy = true ↔ st.state = .permute ∨ st.state = .transform ∨ st.state = .permuteScale ∨ st.state = .exec)

/-- While a command runs, STATE is one of ESTIMATE's exactly when CUR_CMD is ESTIMATE (R26, R185). -/
def CommandInv (s : State) : Prop :=
  s.status.busy = true → (s.status.state = .exec ↔ s.curCmd ≠ 0x00000006#32)

/-- SEQN is 0, or a supported order, and then MLS[0..P−1] holds the sequence of that order's ROM mask: only GENSEQ writes MLS
and SEQN (R33, R38). -/
def SeqnInv (s : State) : Prop :=
  s.seqn = 0 ∨ ∃ m, supportedMask s.seqn.toNat = some m ∧
    Holds s.mem.mls (seqLen s.seqn.toNat) (sample s.seqn.toNat m)

/-- PROBE holds only +1.0 and −1.0 (R39). -/
def ProbeInv (s : State) : Prop :=
  ∀ i v, Buf.read s.mem.probe i = some v → v = 0x3FF0000000000000#64 ∨ v = 0xBFF0000000000000#64

/-- An array that the check of step 1 has passed. -/
def CheckedTags (b : Buf Word32) (p : Nat) : Prop := ∃ v : Nat → Word32, Holds b p v ∧ Bijective (fun i => (v i).toNat) p

/-- Between the steps of ESTIMATE, what step 1 has checked and written still stands (R161 to R163). -/
def PipelineInv (s : State) : Prop :=
  s.status.state = .transform ∨ s.status.state = .permuteScale →
    supported s.curN.toNat = true ∧ CheckedTags s.mem.tags (seqLen s.curN.toNat) ∧
      CheckedTags s.mem.tagl (seqLen s.curN.toNat) ∧ Written s.mem.work (workLen s.curN.toNat)

/-- The invariant of the machine: buffers canonical and within their capacities, STATUS consistent, and what later steps of
a command rest on. -/
structure Inv (s : State) : Prop where
  memory : s.mem.wf = true
  status : StatusInv s.status
  command : CommandInv s
  seqn : SeqnInv s
  probe : ProbeInv s
  pipeline : PipelineInv s

end Sys2Proof.Machine
end

