-- ==== Sys2Proof/Certificates/Slice0/Obligations.lean ====
section
/-!
DEFINITION. What is claimed of the model, from the numbered rules of spec/. OBLIGATIONS.json says of each what it states in
words, its basis and the rules it cites.
-/

open Sys2Proof Sys2Proof.Machine

/-! ### Encoding -/

/-- R92, R94, R95, R99: the six command words, and the sixteen headers with any INDEX and DATA. That a read takes any DATA is
log 9. -/
def Obligations.SpecWordsDecode : Prop :=
  (decode (.command 0x00000001) = .ok .genseq ∧ decode (.command 0x00000002) = .ok .bipolar ∧
    decode (.command 0x00000003) = .ok .gentags ∧ decode (.command 0x00000004) = .ok .gentagl ∧
    decode (.command 0x00000005) = .ok .fht ∧ decode (.command 0x00000006) = .ok .estimate) ∧
  ∀ (idx : Word32) (dat : Word64),
    decode (.transaction ⟨0x0, idx, dat⟩) = .ok (.rdReg idx.toNat) ∧
    decode (.transaction ⟨0x1, idx, dat⟩) = .ok (.wrReg idx.toNat dat) ∧
    decode (.transaction ⟨0x2, idx, dat⟩) = .ok (.rdMls idx.toNat) ∧
    decode (.transaction ⟨0x3, idx, dat⟩) = .ok (.wrMls idx.toNat dat) ∧
    decode (.transaction ⟨0x4, idx, dat⟩) = .ok (.rdProbe idx.toNat) ∧
    decode (.transaction ⟨0x5, idx, dat⟩) = .ok (.wrProbe idx.toNat dat) ∧
    decode (.transaction ⟨0x6, idx, dat⟩) = .ok (.rdTags idx.toNat) ∧
    decode (.transaction ⟨0x7, idx, dat⟩) = .ok (.wrTags idx.toNat dat) ∧
    decode (.transaction ⟨0x8, idx, dat⟩) = .ok (.rdTagl idx.toNat) ∧
    decode (.transaction ⟨0x9, idx, dat⟩) = .ok (.wrTagl idx.toNat dat) ∧
    decode (.transaction ⟨0xA, idx, dat⟩) = .ok (.rdRec idx.toNat) ∧
    decode (.transaction ⟨0xB, idx, dat⟩) = .ok (.wrRec idx.toNat dat) ∧
    decode (.transaction ⟨0xC, idx, dat⟩) = .ok (.rdWork idx.toNat) ∧
    decode (.transaction ⟨0xD, idx, dat⟩) = .ok (.wrWork idx.toNat dat) ∧
    decode (.transaction ⟨0xE, idx, dat⟩) = .ok (.rdIr idx.toNat) ∧
    decode (.transaction ⟨0xF, idx, dat⟩) = .ok (.wrIr idx.toNat dat)

/-- R91, R93: exactly six of the 2^32 command words are legal, and every other word is rejected as itself. -/
def Obligations.SixCommandWordsAreLegal : Prop :=
  ∀ w : Word32,
    ((∃ i, decodeCommand w = .ok i) ↔ 1 ≤ w.toNat ∧ w.toNat ≤ 6) ∧
    (¬ (1 ≤ w.toNat ∧ w.toNat ≤ 6) → decodeCommand w = .error (.illegalCommand w))

/-- R92, R94, R96: decoding the bits of an encoded well-formed instruction gives it back, with every INDEX and DATA. -/
def Obligations.DecodeOfEncodeIsIdentity : Prop :=
  ∀ i : Instr, i.wellFormed = true → decodeTableWord (encode i).nbits (encode i).bits = some i

/-- R91, R94: encoding what was decoded gives the word back. A read's DATA is no operand (log 9), so it is 0 there. -/
def Obligations.EncodeOfDecodeIsIdentity : Prop :=
  (∀ (w : Word32) (i : Instr), decodeCommand w = .ok i → encode i = .command w ∧ i.wellFormed = true) ∧
  ∀ t : Txn, (t.isWrite = false → t.data = 0) →
    encode (decodeTxn t) = .transaction t ∧ (decodeTxn t).wellFormed = true

/-! ### Which step is taken -/

/-- A step runs the decoded instruction: when it is the host's turn and its next line is a transaction, `step` is `exec` of
what the transaction decodes to, the line and the turn used up. The same with no turn listed and the engine idle. -/
def Obligations.HostStepRunsTheTransaction : Prop :=
  ∀ (s : State) (t : Txn) (i : Instr) (ops : List HostOp) (turns : List Turn),
    decode (.transaction t) = .ok i →
    s.env.program = .txn t :: ops →
    (s.env.turns = .host :: turns ∨
      (s.status.busy = false ∧ (s.env.turns = .engine :: turns ∨ s.env.turns = [] ∧ turns = []))) →
    step s = exec i { s with env := { s.env with program := ops, turns := turns } }

/-- A step runs the decoded command: when it is the engine's turn, or no turn is listed, or the host has nothing left, and
STATUS.BUSY = 1, `step` is `exec` of what CUR_CMD decodes to, the turn used up. -/
def Obligations.EngineStepRunsTheCommand : Prop :=
  ∀ (s : State) (i : Instr) (turns : List Turn),
    s.status.busy = true →
    decode (.command s.curCmd) = .ok i →
    (s.env.turns = .engine :: turns ∨ (s.env.turns = [] ∧ turns = []) ∨
      (s.env.turns = .host :: turns ∧ s.env.program = [])) →
    step s = exec i { s with env := { s.env with turns := turns } }

/-- R93: the engine's step on an accepted illegal word reports ILLEGAL_CMD and changes STATUS, ERRARG0 and ERRARG1 only. -/
def Obligations.IllegalWordReportsIllegalCmd : Prop :=
  ∀ (s : State) (turns : List Turn),
    s.status.busy = true →
    ¬ (1 ≤ s.curCmd.toNat ∧ s.curCmd.toNat ≤ 6) →
    s.env.turns = .engine :: turns →
    step s = .next (errorState { s with env := { s.env with turns := turns } } .illegalCmd .check s.curCmd 0)

/-- R97: one step of WAIT reads STATUS, and the program goes on exactly when bit [0] of the value read is 0. -/
def Obligations.WaitPollsStatus : Prop :=
  ∀ (s : State) (ops : List HostOp) (turns : List Turn),
    s.env.program = .wait :: ops →
    s.env.turns = .host :: turns →
    step s = .next { s with env := { s.env with
      program := if s.status.busy = true then .wait :: ops else ops
      turns := turns
      data := some (BitVec.ofNat 64 s.status.word.toNat) } }

/-- R50, R240: a reset, by the program or by the platform, is taken in every state and gives every register, field, latch and
element its value of R50. The program and the schedule, outside the block, go on (log 11). -/
def Obligations.ResetGivesEveryPartItsResetValue : Prop :=
  ∀ (s : State) (ops : List HostOp) (turns : List Turn),
    (s.env.turns = .reset :: turns ∧ ops = s.env.program ∨
      s.env.turns = .host :: turns ∧ s.env.program = .reset :: ops) →
    ∃ t, step s = .next t ∧
      t.status.word = 0 ∧ ctrlWord t.cancel = 0 ∧ t.order = 0 ∧ t.reclen = 0 ∧ t.worklen = 0 ∧ t.seqn = 0 ∧
      t.errarg0 = 0 ∧ t.errarg1 = 0 ∧ regRead 9 t = 0x00000012 ∧
      t.curCmd = 0 ∧ t.curN = 0 ∧ t.curReclen = 0 ∧ t.curWorklen = 0 ∧
      (∀ i, Buf.read t.mem.mls i = none ∧ Buf.read t.mem.probe i = none ∧ Buf.read t.mem.tags i = none ∧
        Buf.read t.mem.tagl i = none ∧ Buf.read t.mem.recd i = none ∧ Buf.read t.mem.work i = none ∧
        Buf.read t.mem.ir i = none) ∧
      t.env.program = ops ∧ t.env.turns = turns

/-- R17, R227: with BUSY = 0 and the host's program exhausted neither agent has a step. That `step` answers a next state there,
with a turn used up and nothing else changed, is the model's choice (log 1). -/
def Obligations.IdleEngineDoesNothing : Prop :=
  ∀ (s : State) (turns : List Turn),
    s.status.busy = false →
    s.env.program = [] →
    (s.env.turns = .engine :: turns ∨ s.env.turns = .host :: turns ∨ s.env.turns = [] ∧ turns = []) →
    step s = .next { s with env := { s.env with turns := turns } }

/-- The model's loading convention (log 3): the very next step runs the placed word; a transaction in the state as it was, a
command in the state its acceptance makes. -/
def Obligations.PlacedWordRunsNext : Prop :=
  ∀ (s : State) (nbits w : Nat) (i : Instr),
    decodeTableWord nbits w = some i →
    (nbits ≠ 32 → step (s.withFetchWord nbits w) = exec i s) ∧
    (nbits = 32 → step (s.withFetchWord nbits w) =
      exec i (accept (BitVec.ofNat 32 w) { s with status := { s.status with busy := false } }))

/-! ### Registers -/

/-- R25, R26, R27, R28: where each field of STATUS stands in the word the host reads, and that reserved bits read 0. -/
def Obligations.StatusWordLayout : Prop :=
  ∀ st : Status,
    st.word.getLsbD 0 = st.busy ∧ st.word.getLsbD 1 = st.done ∧ st.word.getLsbD 2 = st.err ∧ st.word.getLsbD 3 = st.ovr ∧
    (st.word.extractLsb' 4 4).toNat = (match st.errcode with
      | .none => 0 | .config => 1 | .integrity => 2 | .shape => 3 | .notReady => 4 | .illegalCmd => 5 | .cancelled => 6) ∧
    st.word.extractLsb' 8 4 = st.errcmd ∧
    (st.word.extractLsb' 12 3).toNat = (match st.state with
      | .idle => 0 | .permute => 1 | .transform => 2 | .permuteScale => 3 | .done => 4 | .exec => 5) ∧
    st.word.getLsbD 15 = false ∧
    (st.word.extractLsb' 16 3).toNat = (match st.errstage with
      | .none => 0 | .check => 1 | .permute => 2 | .transform => 3 | .permuteScale => 4 | .generate => 5) ∧
    st.word.extractLsb' 19 13 = 0

/-- R183: RD.REG returns the register zero-extended and changes nothing; CMD, reserved and out-of-range indices return 0. -/
def Obligations.RegisterReadReturnsTheRegister : Prop :=
  ∀ s : State,
    let returns := fun (idx : Nat) (v : Nat) =>
      exec (.rdReg idx) s = .next { s with env := { s.env with data := some (BitVec.ofNat 64 v) } }
    returns 0 0 ∧ returns 1 s.status.word.toNat ∧ returns 2 s.cancel.toNat ∧ returns 3 s.order.toNat ∧
    returns 4 s.reclen.toNat ∧ returns 5 s.worklen.toNat ∧ returns 6 s.seqn.toNat ∧ returns 7 s.errarg0.toNat ∧
    returns 8 s.errarg1.toNat ∧ returns 9 18 ∧ ∀ idx, 10 ≤ idx → returns idx 0

/-- R184, R186: what WR.REG writes for every index but CMD, and that nothing else changes. -/
def Obligations.RegisterWriteStoresOrIsIgnored : Prop :=
  ∀ (s : State) (dat : Word64),
    let v : Word32 := BitVec.ofNat 32 dat.toNat
    exec (.wrReg 2 dat) s = .next { s with cancel := dat.getLsbD 0 } ∧
    exec (.wrReg 3 dat) s = .next { s with order := v } ∧
    exec (.wrReg 4 dat) s = .next { s with reclen := v } ∧
    exec (.wrReg 5 dat) s = .next { s with worklen := v } ∧
    ∀ idx, idx = 1 ∨ 6 ≤ idx → exec (.wrReg idx dat) s = .next s

/-- R185: a CMD write while BUSY = 0 accepts any word: it latches the operands, clears the error fields, CANCEL and OVR, sets
STATE to PERMUTE for ESTIMATE and EXEC for any other word, sets BUSY, and changes nothing else. -/
def Obligations.AcceptStartsTheCommand : Prop :=
  ∀ (s : State) (dat : Word64),
    s.status.busy = false →
    let v : Word32 := BitVec.ofNat 32 dat.toNat
    exec (.wrReg 0 dat) s = .next { s with
      curCmd := v, curN := s.order, curReclen := s.reclen, curWorklen := s.worklen
      cancel := false, errarg0 := 0, errarg1 := 0
      status := { busy := true, done := false, err := false, ovr := false, errcode := .none, errcmd := 0,
                  state := if v = 0x00000006 then .permute else .exec, errstage := .none } }

/-- R215: a CMD write while BUSY = 1 only sets OVR. -/
def Obligations.CommandWhileBusyIsDropped : Prop :=
  ∀ (s : State) (dat : Word64),
    s.status.busy = true →
    exec (.wrReg 0 dat) s = .next { s with status := { s.status with ovr := true } }

/-! ### Buffer transactions -/

/-- R181: every buffer transaction while BUSY = 1 is refused, whatever its index. -/
def Obligations.BufferAccessWhileBusyIsRefused : Prop :=
  ∀ (s : State) (idx : Nat) (dat : Word64),
    s.status.busy = true →
    ∀ i ∈ [Instr.rdMls idx, .wrMls idx dat, .rdProbe idx, .wrProbe idx dat, .rdTags idx, .wrTags idx dat, .rdTagl idx,
      .wrTagl idx dat, .rdRec idx, .wrRec idx dat, .rdWork idx, .wrWork idx dat, .rdIr idx, .wrIr idx dat],
      exec i s = .refused .bufferAccessWhileBusy

/-- R182: an INDEX that names nothing: a read returns 0 and a write has no effect. A buffer access while BUSY = 1 is refused
first. -/
def Obligations.OutOfRangeHasNoEffect : Prop :=
  ∀ (s : State) (idx : Nat) (dat : Word64),
    let zero : State := { s with env := { s.env with data := some 0 } }
    (256 ≤ idx → exec (.rdReg idx) s = .next zero ∧ exec (.wrReg idx dat) s = .next s) ∧
    (262143 ≤ idx →
      (∀ i ∈ [Instr.rdMls idx, .rdProbe idx, .rdTags idx, .rdTagl idx, .rdRec idx],
        exec i s = if s.status.busy then .refused .bufferAccessWhileBusy else .next zero) ∧
      (∀ i ∈ [Instr.wrMls idx dat, .wrProbe idx dat, .wrTags idx dat, .wrTagl idx dat, .wrRec idx dat],
        exec i s = if s.status.busy then .refused .bufferAccessWhileBusy else .next s)) ∧
    (262144 ≤ idx →
      (∀ i ∈ [Instr.rdWork idx, .rdIr idx],
        exec i s = if s.status.busy then .refused .bufferAccessWhileBusy else .next zero) ∧
      (∀ i ∈ [Instr.wrWork idx dat, .wrIr idx dat],
        exec i s = if s.status.busy then .refused .bufferAccessWhileBusy else .next s))

/-- R187, R189, R191, R193, R195, R197, R199: within range, a read of a written element returns it, zero-extended where it is
shorter than DATA, and changes nothing; a read of an unwritten element is the model fault (R66). -/
def Obligations.BufferReadReturnsTheElement : Prop :=
  ∀ (s : State) (idx : Nat),
    s.status.busy = false →
    let answers := fun (i : Instr) (sp : Space) (element : Option Word64) =>
      exec i s = match element with
        | some d => .next { s with env := { s.env with data := some d } }
        | none => .fault (.unwrittenRead sp idx)
    (idx < 262143 →
      answers (.rdMls idx) .mls ((Buf.read s.mem.mls idx).map fun v => BitVec.ofNat 64 v.toNat) ∧
      answers (.rdProbe idx) .probe (Buf.read s.mem.probe idx) ∧
      answers (.rdTags idx) .tags ((Buf.read s.mem.tags idx).map fun v => BitVec.ofNat 64 v.toNat) ∧
      answers (.rdTagl idx) .tagl ((Buf.read s.mem.tagl idx).map fun v => BitVec.ofNat 64 v.toNat) ∧
      answers (.rdRec idx) .recd (Buf.read s.mem.recd idx)) ∧
    (idx < 262144 →
      answers (.rdWork idx) .work (Buf.read s.mem.work idx) ∧ answers (.rdIr idx) .ir (Buf.read s.mem.ir idx))

/-- R188, R190, R200: writes to MLS, PROBE and IR have no effect, at every index. -/
def Obligations.ReadOnlyBufferWriteIsIgnored : Prop :=
  ∀ (s : State) (idx : Nat) (dat : Word64),
    s.status.busy = false →
    ∀ i ∈ [Instr.wrMls idx dat, .wrProbe idx dat, .wrIr idx dat], exec i s = .next s

/-- R192, R194, R196, R198: a write within range stores its element, DATA[31:0] for a tag and DATA for a real, every other
element reads as before, and nothing else changes. -/
def Obligations.BufferWriteStoresOneElement : Prop :=
  ∀ (s : State) (idx : Nat) (dat : Word64),
    s.status.busy = false →
    (idx < 262143 →
      (∃ b, exec (.wrTags idx dat) s = .next { s with mem := { s.mem with tags := b } } ∧
        Buf.read b idx = some (BitVec.ofNat 32 dat.toNat) ∧ ∀ j, j ≠ idx → Buf.read b j = Buf.read s.mem.tags j) ∧
      (∃ b, exec (.wrTagl idx dat) s = .next { s with mem := { s.mem with tagl := b } } ∧
        Buf.read b idx = some (BitVec.ofNat 32 dat.toNat) ∧ ∀ j, j ≠ idx → Buf.read b j = Buf.read s.mem.tagl j) ∧
      (∃ b, exec (.wrRec idx dat) s = .next { s with mem := { s.mem with recd := b } } ∧
        Buf.read b idx = some dat ∧ ∀ j, j ≠ idx → Buf.read b j = Buf.read s.mem.recd j)) ∧
    (idx < 262144 →
      ∃ b, exec (.wrWork idx dat) s = .next { s with mem := { s.mem with work := b } } ∧
        Buf.read b idx = some dat ∧ ∀ j, j ≠ idx → Buf.read b j = Buf.read s.mem.work j)

/-! ### Errors of the commands -/

/-- R111: Supported(N) holds exactly for N from 1 to 18; every other CUR_N makes every command (ESTIMATE in its first step)
report CONFIG with CUR_N and NMAX, and nothing else changes. -/
def Obligations.UnsupportedOrderReportsConfig : Prop :=
  ∀ s : State,
    (supported s.curN.toNat = true ↔ 1 ≤ s.curN.toNat ∧ s.curN.toNat ≤ 18) ∧
    (¬ (1 ≤ s.curN.toNat ∧ s.curN.toNat ≤ 18) →
      ∀ i : Instr, i.isCommand = true → (i = .estimate → s.status.state = .permute) →
        exec i s = .next (errorState s .config .check s.curN 18))

/-- R213, R214: BIPOLAR, GENTAGS and GENTAGL of a supported order report NOT_READY with SEQN and CUR_N when these differ, and
nothing else changes. -/
def Obligations.StaleSequenceReportsNotReady : Prop :=
  ∀ s : State,
    1 ≤ s.curN.toNat → s.curN.toNat ≤ 18 → s.seqn ≠ s.curN →
    ∀ i ∈ [Instr.bipolar, .gentags, .gentagl], exec i s = .next (errorState s .notReady .check s.seqn s.curN)

/-- R151, R161, R213: FHT with CUR_WORKLEN ≠ 2^N and ESTIMATE's first step with CUR_RECLEN ≠ 2^N − 1 report SHAPE with the
supplied and the expected length, and nothing else changes. -/
def Obligations.WrongLengthReportsShape : Prop :=
  ∀ s : State,
    1 ≤ s.curN.toNat → s.curN.toNat ≤ 18 →
    (s.curWorklen.toNat ≠ 2 ^ s.curN.toNat →
      exec .fht s = .next (errorState s .shape .check s.curWorklen (BitVec.ofNat 32 (2 ^ s.curN.toNat)))) ∧
    (s.status.state = .permute → s.curReclen.toNat ≠ 2 ^ s.curN.toNat - 1 →
      exec .estimate s = .next (errorState s .shape .check s.curReclen (BitVec.ofNat 32 (2 ^ s.curN.toNat - 1))))

/-- R161, R213, R214: ESTIMATE's first step reports INTEGRITY with the least offending index of TAGS, or of TAGL once TAGS
passes, and nothing else changes. -/
def Obligations.BadTagsReportIntegrity : Prop :=
  ∀ (s : State) (v w : Nat → Word32) (f : Nat),
    1 ≤ s.curN.toNat → s.curN.toNat ≤ 18 → s.status.state = .permute →
    let p := 2 ^ s.curN.toNat - 1
    s.curReclen.toNat = p → Holds s.mem.tags p v →
    (LeastOffender (fun i => (v i).toNat) p f →
      exec .estimate s = .next (errorState s .integrity .check (BitVec.ofNat 32 f) 0)) ∧
    (Bijective (fun i => (v i).toNat) p → Holds s.mem.tagl p w → LeastOffender (fun i => (w i).toNat) p f →
      exec .estimate s = .next (errorState s .integrity .check (BitVec.ofNat 32 f) 1))

/-- R132: on a fully written array FirstBad returns none exactly when the array is a bijection onto {1, …, P}, each value met
once, and otherwise the least offending index; with an element unwritten it is the model fault at the least such element,
whatever the others hold. -/
def Obligations.FirstBadFindsTheLeastOffender : Prop :=
  ∀ (sp : Space) (b : Buf Word32) (p : Nat) (v : Nat → Word32),
    (Holds b p v →
      (firstBad sp b p = .ok none ↔ ∀ y, 1 ≤ y → y ≤ p → ∃ i, i < p ∧ (v i).toNat = y) ∧
      ∀ f, firstBad sp b p = .ok (some f) ↔ LeastOffender (fun i => (v i).toNat) p f) ∧
    ∀ k, k < p → Written b k → Buf.read b k = none → firstBad sp b p = .error (.unwrittenRead sp k)

/-! ### What the commands compute -/

/-- R112, R113: GENSEQ writes the sequence: N ones first, and then each bit is the parity of the tapped ones of the N bits
before it; SEQN becomes N, the command finishes, elements from P on are kept, and nothing else changes. -/
def Obligations.GenseqWritesTheSequence : Prop :=
  ∀ (s : State) (m : Nat),
    let n := s.curN.toNat
    let p := 2 ^ n - 1
    1 ≤ n → n ≤ 18 → taps n = some m →
    ∃ (b : Buf Bit) (x : Nat → Bit),
      exec .genseq s = .next { s with status := doneStatus s, seqn := s.curN, mem := { s.mem with mls := b } } ∧
      Holds b p x ∧ SameFrom p s.mem.mls b ∧
      (∀ i, i < n → x i = 1#1) ∧
      ∀ t, t + n < p →
        x (t + n) = BitVec.ofNat 1 (((List.range n).map fun k => if m.testBit k then (x (t + n - 1 - k)).toNat else 0).sum)

/-- R45, R110, R113 item 3: the ROM holds for N from 1 to 18 the mask of the taps that R110 lists, and none for any other N; with
each of these masks the delay line first returns to all ones after exactly P steps. -/
def Obligations.RomMasksAreMaximal : Prop :=
  romStages.length = 18 ∧
  (∀ n, taps n = if 1 ≤ n then (romStages[n - 1]?).map stageMask else none) ∧
  ∀ n, 1 ≤ n → n ≤ 18 → ∃ m, taps n = some m ∧ MaximalMask n m

/-- R115: BIPOLAR writes +1.0 for each 0 and −1.0 for each 1 of MLS[0..P−1], finishes, keeps the other elements, and changes
nothing else. -/
def Obligations.BipolarMapsTheSequence : Prop :=
  ∀ (s : State) (x : Nat → Bit),
    let p := 2 ^ s.curN.toNat - 1
    1 ≤ s.curN.toNat → s.curN.toNat ≤ 18 → s.seqn = s.curN → Holds s.mem.mls p x →
    ∃ b : Buf Real64,
      exec .bipolar s = .next { s with status := doneStatus s, mem := { s.mem with probe := b } } ∧
      Holds b p (fun i => if x i = 0#1 then 0x3FF0000000000000 else 0xBFF0000000000000) ∧ SameFrom p s.mem.probe b

/-- R130, R131: GENTAGS writes W(i) for each i < P and keeps the other elements; it finishes when the values are a bijection
onto {1, …, P} and otherwise reports INTEGRITY at GENERATE with the least offending index; nothing else changes. -/
def Obligations.GentagsWritesTheWindows : Prop :=
  ∀ (s : State) (x : Nat → Bit),
    let n := s.curN.toNat
    let p := 2 ^ n - 1
    1 ≤ n → n ≤ 18 → s.seqn = s.curN → Holds s.mem.mls p x →
    ∃ (b : Buf Word32),
      (∀ i, i < p → (Buf.read b i).map BitVec.toNat = some (windowSum x n i)) ∧ SameFrom p s.mem.tags b ∧
      (Bijective (windowSum x n) p →
        exec .gentags s = .next { s with status := doneStatus s, mem := { s.mem with tags := b } }) ∧
      ∀ f, LeastOffender (windowSum x n) p f →
        exec .gentags s =
          .next (errorState { s with mem := { s.mem with tags := b } } .integrity .generate (BitVec.ofNat 32 f) 0)

/-- R134: with the unit positions of its windows, GENTAGL writes Σ MLS[(index[j] − i) mod P]·2^j for each i < P and keeps the
other elements; it finishes when the values are a bijection onto {1, …, P} and otherwise reports INTEGRITY at GENERATE with
the least offending index; nothing else changes. -/
def Obligations.GentaglWritesTheInverseTags : Prop :=
  ∀ (s : State) (x : Nat → Bit) (index : Nat → Nat),
    let n := s.curN.toNat
    let p := 2 ^ n - 1
    1 ≤ n → n ≤ 18 → s.seqn = s.curN → Holds s.mem.mls p x → (∀ j, j < n → UnitPosition x n j (index j)) →
    ∃ (b : Buf Word32),
      (∀ i, i < p → (Buf.read b i).map BitVec.toNat = some (inverseSum x index n i)) ∧ SameFrom p s.mem.tagl b ∧
      (Bijective (inverseSum x index n) p →
        exec .gentagl s = .next { s with status := doneStatus s, mem := { s.mem with tagl := b } }) ∧
      ∀ f, LeastOffender (inverseSum x index n) p f →
        exec .gentagl s =
          .next (errorState { s with mem := { s.mem with tagl := b } } .integrity .generate (BitVec.ofNat 32 f) 1)

/-- R134, R216: when a unit value has no position or several, GENTAGL reports INTEGRITY at GENERATE with the least such bit
position and 2, and nothing else changes: TAGL is as it was. -/
def Obligations.GentaglUnitSearchFails : Prop :=
  ∀ (s : State) (x : Nat → Bit) (j : Nat),
    let n := s.curN.toNat
    1 ≤ n → n ≤ 18 → s.seqn = s.curN → Holds s.mem.mls (2 ^ n - 1) x → j < n →
    (∀ q, ¬ UnitPosition x n j q) → (∀ k, k < j → ∃ q, UnitPosition x n k q) →
    exec .gentagl s = .next (errorState s .integrity .generate (BitVec.ofNat 32 j) 2)

/-- R133: W can be computed incrementally. -/
def Obligations.WindowIsIncremental : Prop :=
  ∀ (x : Nat → Bit) (n i : Nat), 1 ≤ n → 1 ≤ i → i < 2 ^ n - 1 →
    windowSum x n i = windowSum x n (i - 1) / 2 + (x i).toNat * 2 ^ (n - 1)

/-- R135: for every maximal mask the windows of the generated sequence, and the inverse tags from their unit positions, are
bijections onto {1, …, P}, and the unit positions exist. -/
def Obligations.MaximalMasksGiveBijectiveTags : Prop :=
  ∀ n m : Nat, MaximalMask n m →
    Bijective (windowSum (sample n m) n) (seqLen n) ∧
    ∃ index : Nat → Nat, (∀ j, j < n → UnitPosition (sample n m) n j (index j)) ∧
      Bijective (inverseSum (sample n m) index n) (seqLen n)

/-- R131, R134: with the ROM, GENTAGS and GENTAGL never raise INTEGRITY. From a state that meets the invariant, with SEQN the
supported order CUR_N, each of them finishes with a bijection onto {1, …, P} in its array, keeps the elements from P on, and
changes nothing else. -/
def Obligations.RomTagsNeverFailIntegrity : Prop :=
  ∀ s : State,
    let p := 2 ^ s.curN.toNat - 1
    Inv s → 1 ≤ s.curN.toNat → s.curN.toNat ≤ 18 → s.seqn = s.curN →
    (∃ b, exec .gentags s = .next { s with status := doneStatus s, mem := { s.mem with tags := b } } ∧
      CheckedTags b p ∧ SameFrom p s.mem.tags b) ∧
    (∃ b, exec .gentagl s = .next { s with status := doneStatus s, mem := { s.mem with tagl := b } } ∧
      CheckedTags b p ∧ SameFrom p s.mem.tagl b)

/-- R150, R151: FHT of the right length on a written buffer leaves in each element of WORK[0..L−1] what the N stages of
butterflies give it, keeps the other elements, finishes, and changes nothing else but the count of draws (log 5). It holds for
every value of that count. -/
def Obligations.FhtTransformsTheWorkingBuffer : Prop :=
  ∀ (s : State) (v : Nat → Real64),
    let n := s.curN.toNat
    1 ≤ n → n ≤ 18 → s.curWorklen.toNat = 2 ^ n → Holds s.mem.work (2 ^ n) v →
    ∃ (b : Buf Real64) (draws : Nat),
      exec .fht s = .next { s with
        status := doneStatus s, mem := { s.mem with work := b }, env := { s.env with draws := draws } } ∧
      Holds b (2 ^ n) (htValue binary64 n s.env.draws v n) ∧ SameFrom (2 ^ n) s.mem.work b

/-- R151: with an unwritten element among WORK[0..L−1], FHT ends in the model fault on one that is unwritten. -/
def Obligations.FhtOnUnwrittenWorkFaults : Prop :=
  ∀ (s : State) (k : Nat),
    1 ≤ s.curN.toNat → s.curN.toNat ≤ 18 → s.curWorklen.toNat = 2 ^ s.curN.toNat →
    k < 2 ^ s.curN.toNat → Buf.read s.mem.work k = none →
    ∃ q, q < 2 ^ s.curN.toNat ∧ Buf.read s.mem.work q = none ∧ exec .fht s = .fault (.unwrittenRead .work q)

/-- R152: in exact arithmetic the kernel is the Walsh–Hadamard transform. -/
def Obligations.ExactTransformIsWalshHadamard : Prop :=
  ∀ (n d : Nat) (v : List Int), v.length = 2 ^ n →
    ∀ u, u < 2 ^ n →
      (hadamard exactInt n d v)[u]? =
        some (((List.range (2 ^ n)).map fun k => hadamardSign n u k * v.getD k 0).sum)

/-- R153: in exact arithmetic, transforming twice multiplies every element by L. -/
def Obligations.ExactTransformTwiceScalesByLength : Prop :=
  ∀ (n d e : Nat) (v : List Int), v.length = 2 ^ n →
    hadamard exactInt n e (hadamard exactInt n d v) = v.map (fun a => 2 ^ n * a)

/-- R161: the first step of ESTIMATE on tags that are bijections and a written recording puts −dc in WORK[0] and REC[i] in
WORK[TAGS[i]], sets STATE to TRANSFORM, and changes nothing else but the count of draws (log 5). -/
def Obligations.EstimateFirstStepPermutes : Prop :=
  ∀ (s : State) (v w : Nat → Word32) (r : Nat → Real64),
    let p := 2 ^ s.curN.toNat - 1
    1 ≤ s.curN.toNat → s.curN.toNat ≤ 18 → s.status.state = .permute → s.curReclen.toNat = p →
    Holds s.mem.tags p v → Bijective (fun i => (v i).toNat) p →
    Holds s.mem.tagl p w → Bijective (fun i => (w i).toNat) p →
    Holds s.mem.recd p r →
    ∃ (b : Buf Real64) (draws : Nat) (dc : Nat → Real64),
      exec .estimate s = .next { s with
        status := { s.status with state := .transform }
        mem := { s.mem with work := b }, env := { s.env with draws := draws } } ∧
      dc 0 = 0x0000000000000000 ∧ (∀ i, i < p → dc (i + 1) = fadd (s.env.draws + i) (dc i) (r i)) ∧
      Buf.read b 0 = some (fneg (dc p)) ∧
      (∀ i, i < p → Buf.read b (v i).toNat = some (r i)) ∧
      SameFrom (p + 1) s.mem.work b

/-- R161, R66: the first step of ESTIMATE, of a supported order and the right length, is the model fault on the least unwritten
element of TAGS; of TAGL, once TAGS passes its check; of REC, once both pass. -/
def Obligations.EstimateFirstStepFaultsOnUnwritten : Prop :=
  ∀ (s : State) (k : Nat),
    let p := 2 ^ s.curN.toNat - 1
    1 ≤ s.curN.toNat → s.curN.toNat ≤ 18 → s.status.state = .permute → s.curReclen.toNat = p → k < p →
    (Written s.mem.tags k → Buf.read s.mem.tags k = none → exec .estimate s = .fault (.unwrittenRead .tags k)) ∧
    (CheckedTags s.mem.tags p → Written s.mem.tagl k → Buf.read s.mem.tagl k = none →
      exec .estimate s = .fault (.unwrittenRead .tagl k)) ∧
    (CheckedTags s.mem.tags p → CheckedTags s.mem.tagl p → Written s.mem.recd k → Buf.read s.mem.recd k = none →
      exec .estimate s = .fault (.unwrittenRead .recd k))

/-- R162: the second step of ESTIMATE, not cancelled, transforms WORK[0..P], sets STATE to PERMUTE_SCALE, and changes nothing
else but the count of draws (log 5). -/
def Obligations.EstimateSecondStepTransforms : Prop :=
  ∀ (s : State) (v : Nat → Real64),
    let n := s.curN.toNat
    1 ≤ n → n ≤ 18 → s.status.state = .transform → s.cancel = false → Holds s.mem.work (2 ^ n) v →
    ∃ (b : Buf Real64) (draws : Nat),
      exec .estimate s = .next { s with
        status := { s.status with state := .permuteScale }
        mem := { s.mem with work := b }, env := { s.env with draws := draws } } ∧
      Holds b (2 ^ n) (htValue binary64 n s.env.draws v n) ∧ SameFrom (2 ^ n) s.mem.work b

/-- R163: the third step of ESTIMATE, not cancelled, puts WORK[TAGL[i]]·2^−N in IR[i] and +0.0 in IR[P], finishes, and changes
nothing else but the count of draws (log 5). The factor is exactly 2^−N: 2^(1074 − N) units of 2^-1074 (R12). -/
def Obligations.EstimateThirdStepScales : Prop :=
  ∀ (s : State) (w : Nat → Word32) (x : Nat → Real64),
    let n := s.curN.toNat
    let p := 2 ^ n - 1
    1 ≤ n → n ≤ 18 → s.status.state = .permuteScale → s.cancel = false →
    Holds s.mem.tagl p w → (∀ i, i < p → Buf.read s.mem.work (w i).toNat = some (x i)) →
    ∃ (b : Buf Real64) (draws : Nat),
      exec .estimate s = .next { s with
        status := doneStatus s, mem := { s.mem with ir := b }, env := { s.env with draws := draws } } ∧
      Holds b p (fun i => fmul (s.env.draws + i) (x i) (pow2neg n)) ∧
      Buf.read b p = some 0x0000000000000000 ∧ SameFrom (p + 1) s.mem.ir b ∧
      IsFinite (pow2neg n) ∧ Binary64.value (pow2neg n) = 2 ^ (1074 - n)

/-- R162, R163: with CTRL.CANCEL = 1 the second and third steps of ESTIMATE clear it and report CANCELLED at their own stage,
and nothing else changes. -/
def Obligations.CancelIsTakenBetweenStages : Prop :=
  ∀ s : State, s.cancel = true →
    (s.status.state = .transform →
      exec .estimate s = .next (errorState { s with cancel := false } .cancelled .transform 0 0)) ∧
    (s.status.state = .permuteScale →
      exec .estimate s = .next (errorState { s with cancel := false } .cancelled .permuteScale 0 0))

/-- R164: in exact arithmetic, for a maximal mask and the tags generated from its sequence, the three stages give the circular
cross-correlation with the probe less the sum of the recording, over P + 1, and 0 at index P. -/
def Obligations.ExactPipelineComputesTheCorrelation : Prop :=
  ∀ (n m d : Nat) (x : Nat → Rat) (index : Nat → Nat) (tags tagl : Buf Word32) (recd work ir : Buf Rat),
    n ≤ 18 → MaximalMask n m →
    let p := seqLen n
    (∀ j, j < n → UnitPosition (sample n m) n j (index j)) →
    Holds tags p (fun i => BitVec.ofNat 32 (windowSum (sample n m) n i)) →
    Holds tagl p (fun i => BitVec.ofNat 32 (inverseSum (sample n m) index n i)) →
    Holds recd p x →
    ∃ w1 w2 r,
      permuteStage exactRat d tags recd work p = .ok w1 ∧
      transform exactRat d w1 n = .ok w2 ∧
      scaleStage exactRat d n tagl w2 ir = .ok r ∧
      (∀ k, k < p → Buf.read r k = some
        ((((List.range p).map fun i => x i * bipolar exactRat (sample n m (backMod p i k))).sum
          - ((List.range p).map x).sum) / (p + 1))) ∧
      Buf.read r p = some 0

/-! ### Binary64 -/

/-- R12, R151: the sum, difference and product of finite values are the exact result rounded once to binary64, to nearest, ties
to even, and to the infinity of its sign from 2^1024 − 2^970 on (log 12). -/
def Obligations.ArithmeticRoundsToNearestEven : Prop :=
  ∀ (d : Nat) (a b : Real64), IsFinite a → IsFinite b →
    RoundsTo (fadd d a b) (Binary64.value a + Binary64.value b) 1 ∧
    RoundsTo (fsub d a b) (Binary64.value a - Binary64.value b) 1 ∧
    RoundsTo (fmul d a b) (Binary64.value a * Binary64.value b) (2 ^ 1074)

/-- R12, R151: what IEEE 754 gives for NaNs, infinities and zeros, and the sign change of every value (logs 5, 6, 12); a NaN
result is a quiet NaN whatever the draw. Overflow is in `ArithmeticRoundsToNearestEven`. -/
def Obligations.SpecialValuesFollowIeee : Prop :=
  ∀ (d : Nat) (a b : Real64) (m n : Bool),
    -- NaNs
    (Binary64.isNaN a = true ∨ Binary64.isNaN b = true →
      fadd d a b = Binary64.quietNaN d ∧ fsub d a b = Binary64.quietNaN d ∧ fmul d a b = Binary64.quietNaN d) ∧
    (Binary64.isNaN (Binary64.quietNaN d) = true ∧ (Binary64.quietNaN d).getLsbD 51 = true) ∧
    -- infinities
    (IsFinite b →
      fadd d (infinity m) b = infinity m ∧ fadd d b (infinity m) = infinity m ∧
      fsub d (infinity m) b = infinity m ∧ fsub d b (infinity m) = infinity (!m)) ∧
    fadd d (infinity m) (infinity n) = (if m = n then infinity m else Binary64.quietNaN d) ∧
    fsub d (infinity m) (infinity n) = (if m = n then Binary64.quietNaN d else infinity m) ∧
    (IsFinite b →
      fmul d (infinity m) b = (if Binary64.value b = 0 then Binary64.quietNaN d else infinity (m != Binary64.sign b)) ∧
      fmul d b (infinity m) = (if Binary64.value b = 0 then Binary64.quietNaN d else infinity (m != Binary64.sign b))) ∧
    fmul d (infinity m) (infinity n) = infinity (m != n) ∧
    -- zeros
    (IsFinite a → IsFinite b →
      (Binary64.value a + Binary64.value b = 0 → fadd d a b = signedZero (Binary64.sign a && Binary64.sign b)) ∧
      (Binary64.value a - Binary64.value b = 0 → fsub d a b = signedZero (Binary64.sign a && !Binary64.sign b)) ∧
      (Binary64.value a * Binary64.value b = 0 → fmul d a b = signedZero (Binary64.sign a != Binary64.sign b))) ∧
    -- the sign change
    (fneg a).getLsbD 63 = !a.getLsbD 63 ∧ ∀ k, k < 63 → (fneg a).getLsbD k = a.getLsbD k

/-! ### The whole machine -/

/-- The reset state meets the invariant (R50). -/
def Obligations.ResetMeetsTheInvariant : Prop := Inv State.reset

/-- Every step from a state that meets the invariant leads to one that does. -/
def Obligations.StepKeepsTheInvariant : Prop := ∀ s t : State, Inv s → step s = .next t → Inv t

/-- R25: what the rules keep of STATUS, on its own. -/
def Obligations.StepKeepsStatusConsistent : Prop :=
  ∀ s t : State, StatusInv s.status → step s = .next t → StatusInv t.status

/-- R217: from a state that meets the invariant, an engine step is never refused, and it faults only as FHT reading WORK or as
the first step of ESTIMATE reading TAGS, TAGL or REC. -/
def Obligations.EngineFaultsOnlyOnHostData : Prop :=
  ∀ s : State, Inv s → nextMove s = .engine →
    (∃ t, step s = .next t) ∨
    ∃ sp i, step s = .fault (.unwrittenRead sp i) ∧
      (s.curCmd = 0x00000005 ∧ sp = .work ∨
        s.curCmd = 0x00000006 ∧ s.status.state = .permute ∧ (sp = .tags ∨ sp = .tagl ∨ sp = .recd))

/-- R251: from a state that meets the invariant, with no reset listed or in the program, a running command ends under every list
of turns by the time the engine has had three (it has every turn once the list is used up: log 1), unless a model fault or the
refusal of a host's buffer access comes first. -/
def Obligations.AcceptedCommandEnds : Prop :=
  ∀ s : State, Inv s → s.status.busy = true → Turn.reset ∉ s.env.turns → HostOp.reset ∉ s.env.program →
    ∃ k, 1 ≤ k ∧ k ≤ s.env.turns.length + (3 - s.env.turns.count .engine) ∧
      ((∃ t : State, core.run k s = .next t ∧ t.status.busy = false ∧ t.status.done = true ∧ t.status.state = .done) ∨
        (∃ sp i, core.run k s = .fault (.unwrittenRead sp i)) ∨
        core.run k s = .refused .bufferAccessWhileBusy)

/-- R46: a command takes its operands from the latches: other values in ORDER, RECLEN and WORKLEN change nothing of what it
does. -/
def Obligations.CommandsIgnoreTheLiveRegisters : Prop :=
  ∀ (s : State) (o r w : Word32) (i : Instr), i.isCommand = true →
    exec i { s with order := o, reclen := r, worklen := w } =
      mapNext (fun t => { t with order := o, reclen := r, worklen := w }) (exec i s)

/-- R37: who may change which buffer. -/
def Obligations.OnlyTheWritersChangeABuffer : Prop :=
  ∀ (i : Instr) (s t : State), exec i s = .next t →
    (i ≠ .genseq → t.mem.mls = s.mem.mls) ∧
    (i ≠ .bipolar → t.mem.probe = s.mem.probe) ∧
    ((i ≠ .gentags ∧ ∀ idx dat, i ≠ .wrTags idx dat) → t.mem.tags = s.mem.tags) ∧
    ((i ≠ .gentagl ∧ ∀ idx dat, i ≠ .wrTagl idx dat) → t.mem.tagl = s.mem.tagl) ∧
    ((∀ idx dat, i ≠ .wrRec idx dat) → t.mem.recd = s.mem.recd) ∧
    ((i ≠ .estimate ∧ i ≠ .fht ∧ ∀ idx dat, i ≠ .wrWork idx dat) → t.mem.work = s.mem.work) ∧
    (i ≠ .estimate → t.mem.ir = s.mem.ir)

/-- R33, R249: no instruction but GENSEQ changes SEQN, and no command changes ORDER, RECLEN, WORKLEN or a latch. -/
def Obligations.OnlyGenseqChangesSeqn : Prop :=
  ∀ (i : Instr) (s t : State), exec i s = .next t →
    (i ≠ .genseq → t.seqn = s.seqn) ∧ (t.seqn = s.seqn ∨ t.seqn = s.curN) ∧
    (i.isCommand = true →
      t.order = s.order ∧ t.reclen = s.reclen ∧ t.worklen = s.worklen ∧ t.curCmd = s.curCmd ∧ t.curN = s.curN ∧
        t.curReclen = s.curReclen ∧ t.curWorklen = s.curWorklen)

/-- R67: no read changes any state of the block, and reading again returns the same value. -/
def Obligations.ReadsHaveNoSideEffect : Prop :=
  ∀ (i : Instr) (s t : State), i.isRead = true → exec i s = .next t →
    { t with env := s.env } = s ∧ t.env.program = s.env.program ∧ t.env.turns = s.env.turns ∧
      t.env.draws = s.env.draws ∧ exec i t = .next t

/-- R75, R245: while a command runs, no host transaction changes a buffer, a latch, SEQN, the error arguments or any field of
STATUS but OVR. (CTRL.CANCEL it may change: R248.) -/
def Obligations.HostCannotDisturbARunningCommand : Prop :=
  ∀ (i : Instr) (s t : State), i.isCommand = false → s.status.busy = true → exec i s = .next t →
    t.mem = s.mem ∧ t.curCmd = s.curCmd ∧ t.curN = s.curN ∧ t.curReclen = s.curReclen ∧ t.curWorklen = s.curWorklen ∧
      t.seqn = s.seqn ∧ t.errarg0 = s.errarg0 ∧ t.errarg1 = s.errarg1 ∧ ∃ o, t.status = { s.status with ovr := o }
end

