-- ==== Sys2Proof/Laws/Buffer.lean ====
section
/-!
SUPPORT. What the buffer operations do: read after write, and that every operation keeps the canonical form.
-/

namespace Sys2Proof.Machine

variable {α : Type}

@[simp] theorem Buf.read_nil (i : Nat) : Buf.read ([] : Buf α) i = none := rfl

theorem Buf.read_cons (j : Nat) (v : α) (b : Buf α) (i : Nat) :
    Buf.read ((j, v) :: b) i = if i = j then some v else Buf.read b i := rfl

/-- The element just written reads back. -/
@[simp] theorem Buf.read_write_same (b : Buf α) (i : Nat) (v : α) : Buf.read (Buf.write b i v) i = some v := by
  induction b with
  | nil => simp [Buf.write, Buf.read]
  | cons c rest ih =>
    obtain ⟨j, w⟩ := c
    simp only [Buf.write]
    split
    · simp [Buf.read]
    · split
      · simp [Buf.read]
      · rename_i h
        simp [Buf.read, h, ih]

/-- A write leaves every other element alone. -/
theorem Buf.read_write_other (b : Buf α) {i j : Nat} (v : α) (h : j ≠ i) :
    Buf.read (Buf.write b i v) j = Buf.read b j := by
  induction b with
  | nil => simp [Buf.write, Buf.read, h]
  | cons c rest ih =>
    obtain ⟨k, w⟩ := c
    simp only [Buf.write]
    split
    · simp [Buf.read, h]
    · split
      · rename_i hk
        subst hk
        simp [Buf.read, h]
      · simp [Buf.read, ih]

theorem Buf.read_append (a b : Buf α) (i : Nat) : Buf.read (a ++ b) i = (Buf.read a i).or (Buf.read b i) := by
  induction a with
  | nil => simp
  | cons c rest ih =>
    obtain ⟨j, w⟩ := c
    simp only [List.cons_append, Buf.read_cons]
    split <;> simp [ih]

/-- Keeping the elements whose index satisfies `p`. -/
theorem Buf.read_filter (b : Buf α) (p : Nat → Bool) (i : Nat) :
    Buf.read (b.filter fun c => p c.1) i = if p i then Buf.read b i else none := by
  induction b with
  | nil => simp
  | cons c rest ih =>
    obtain ⟨j, w⟩ := c
    by_cases hj : p j
    · simp only [List.filter_cons, hj, if_true, Buf.read_cons, ih]
      by_cases h : i = j
      · simp [h, hj]
      · simp [h]
    · simp only [List.filter_cons, hj, Buf.read_cons]
      by_cases h : i = j
      · simpa [h, hj] using ih
      · simpa [h] using ih

theorem read_indexedFrom (vs : List α) (i k : Nat) :
    Buf.read (indexedFrom i vs) k = if i ≤ k then vs[k - i]? else none := by
  induction vs generalizing i with
  | nil => simp [indexedFrom]
  | cons v vs ih =>
    simp only [indexedFrom, Buf.read_cons, ih]
    by_cases h : k = i
    · simp [h]
    · by_cases h2 : i + 1 ≤ k
      · have h3 : i ≤ k := by omega
        have h4 : k - i = (k - (i + 1)) + 1 := by omega
        simp [h, h2, h3, h4]
      · have h3 : ¬ i ≤ k := by omega
        simp [h, h2, h3]

/-- `writeRun` puts `vs` at `i`, `i + 1`, … and leaves every other element alone. -/
theorem Buf.read_writeRun (b : Buf α) (i : Nat) (vs : List α) (k : Nat) :
    Buf.read (Buf.writeRun b i vs) k = if i ≤ k ∧ k < i + vs.length then vs[k - i]? else Buf.read b k := by
  have h1 := Buf.read_filter b (fun n => decide (n < i)) k
  have h2 := Buf.read_filter b (fun n => decide (i + vs.length ≤ n)) k
  simp only [Buf.writeRun, Buf.read_append, h1, h2, read_indexedFrom]
  by_cases hk : k < i
  · have : ¬ i ≤ k := by omega
    have h3 : ¬ i + vs.length ≤ k := by omega
    simp [hk, this, h3]
  · have hik : i ≤ k := by omega
    by_cases hl : k < i + vs.length
    · have h3 : ¬ i + vs.length ≤ k := by omega
      have h4 : k - i < vs.length := by omega
      simp [hk, hik, hl, h3]
    · have h3 : i + vs.length ≤ k := by omega
      have h4 : vs.length ≤ k - i := by omega
      simp [hk, hl, h3, h4]

/-- Inside a run written from 0. -/
theorem Buf.read_writeRun_lt (b : Buf α) (vs : List α) {k : Nat} (h : k < vs.length) :
    Buf.read (Buf.writeRun b 0 vs) k = vs[k]? := by
  simp [Buf.read_writeRun, h]

/-- Beyond a run written from 0. -/
theorem Buf.read_writeRun_ge (b : Buf α) (vs : List α) {k : Nat} (h : vs.length ≤ k) :
    Buf.read (Buf.writeRun b 0 vs) k = Buf.read b k := by
  have : ¬ k < vs.length := by omega
  simp [Buf.read_writeRun, this]

/-- An index that none of the pairs names is left alone. -/
theorem Buf.read_writeAll_other (ps : List (Nat × α)) (b : Buf α) {k : Nat} (h : ∀ c ∈ ps, c.1 ≠ k) :
    Buf.read (Buf.writeAll b ps) k = Buf.read b k := by
  induction ps generalizing b with
  | nil => rfl
  | cons c rest ih =>
    obtain ⟨i, v⟩ := c
    have hi : k ≠ i := fun e => h (i, v) (by simp) e.symm
    simp only [Buf.writeAll]
    rw [ih _ (fun c hc => h c (by simp [hc])), Buf.read_write_other _ _ hi]

/-- A pair whose index no other pair names reads back. -/
theorem Buf.read_writeAll_mem (ps : List (Nat × α)) (b : Buf α) (hn : (ps.map (·.1)).Nodup) {i : Nat} {v : α}
    (h : (i, v) ∈ ps) : Buf.read (Buf.writeAll b ps) i = some v := by
  induction ps generalizing b with
  | nil => simp at h
  | cons c rest ih =>
    obtain ⟨j, w⟩ := c
    simp only [List.map_cons, List.nodup_cons] at hn
    simp only [Buf.writeAll]
    rcases List.mem_cons.mp h with heq | hmem
    · obtain ⟨rfl, rfl⟩ := Prod.mk.inj heq
      rw [Buf.read_writeAll_other _ _ (fun c hc e => hn.1 (List.mem_map.mpr ⟨c, hc, e⟩)), Buf.read_write_same]
    · exact ih _ hn.2 hmem

/-! ### The canonical form -/

/-- The canonical form says: indices strictly rising, from `lo` on, below `cap`. -/
theorem Buf.wfFrom_iff (cap lo : Nat) (b : Buf α) :
    Buf.wfFrom cap lo b = true ↔
      b.Pairwise (fun c d => c.1 < d.1) ∧ ∀ c ∈ b, lo ≤ c.1 ∧ c.1 < cap := by
  induction b generalizing lo with
  | nil => simp [Buf.wfFrom]
  | cons c rest ih =>
    obtain ⟨j, v⟩ := c
    simp only [Buf.wfFrom, Bool.and_eq_true, decide_eq_true_eq, ih, List.pairwise_cons, List.forall_mem_cons]
    constructor
    · rintro ⟨⟨h1, h2⟩, h3, h4⟩
      refine ⟨⟨fun c hc => (h4 c hc).1, h3⟩, ⟨h1, h2⟩, fun c hc => ⟨?_, (h4 c hc).2⟩⟩
      have h5 := (h4 c hc).1
      omega
    · rintro ⟨⟨h1, h2⟩, ⟨h3, h4⟩, h5⟩
      exact ⟨⟨h3, h4⟩, h2, fun c hc => ⟨h1 c hc, (h5 c hc).2⟩⟩

theorem Buf.wfFrom_write {cap lo : Nat} {b : Buf α} (h : Buf.wfFrom cap lo b = true) {i : Nat} (v : α) (hl : lo ≤ i)
    (hc : i < cap) : Buf.wfFrom cap lo (Buf.write b i v) = true := by
  induction b generalizing lo with
  | nil => simp [Buf.write, Buf.wfFrom, hl, hc]
  | cons c rest ih =>
    obtain ⟨j, w⟩ := c
    simp only [Buf.wfFrom, Bool.and_eq_true, decide_eq_true_eq] at h
    obtain ⟨⟨h1, h2⟩, h3⟩ := h
    simp only [Buf.write]
    split
    · rename_i hij
      have : i + 1 ≤ j := hij
      simp [Buf.wfFrom, hl, hc, h2, h3, this]
    · split
      · rename_i hij
        subst hij
        simp [Buf.wfFrom, hl, hc, h3]
      · have hji : j + 1 ≤ i := by omega
        simp [Buf.wfFrom, h1, h2, ih h3 hji]

theorem mem_indexedFrom {vs : List α} {i : Nat} {c : Nat × α} (h : c ∈ indexedFrom i vs) :
    i ≤ c.1 ∧ c.1 < i + vs.length := by
  induction vs generalizing i with
  | nil => simp [indexedFrom] at h
  | cons v vs ih =>
    simp only [indexedFrom, List.mem_cons] at h
    rcases h with rfl | h
    · simp
    · have := ih h
      simp only [List.length_cons]
      omega

theorem indexedFrom_pairwise (vs : List α) (i : Nat) : (indexedFrom i vs).Pairwise (fun c d => c.1 < d.1) := by
  induction vs generalizing i with
  | nil => simp [indexedFrom]
  | cons v vs ih =>
    simp only [indexedFrom, List.pairwise_cons]
    exact ⟨fun c hc => (mem_indexedFrom hc).1, ih _⟩

theorem Buf.wfFrom_writeRun {cap lo : Nat} {b : Buf α} (h : Buf.wfFrom cap lo b = true) {i : Nat} {vs : List α}
    (hl : lo ≤ i) (hc : i + vs.length ≤ cap) : Buf.wfFrom cap lo (Buf.writeRun b i vs) = true := by
  rw [Buf.wfFrom_iff] at h ⊢
  obtain ⟨hp, hb⟩ := h
  simp only [Buf.writeRun, List.pairwise_append, List.mem_append, List.mem_filter, decide_eq_true_eq]
  refine ⟨⟨⟨hp.filter _, indexedFrom_pairwise vs i, ?_⟩, hp.filter _, ?_⟩, ?_⟩
  · rintro c ⟨-, h1⟩ d h2
    have := (mem_indexedFrom h2).1
    omega
  · rintro c (⟨-, h1⟩ | h1) d ⟨-, h2⟩
    · omega
    · have := (mem_indexedFrom h1).2
      omega
  · rintro c ((⟨h1, -⟩ | h1) | ⟨h1, -⟩)
    · exact hb c h1
    · have := mem_indexedFrom h1
      omega
    · exact hb c h1

theorem Buf.wfFrom_writeAll {cap lo : Nat} (ps : List (Nat × α)) {b : Buf α} (h : Buf.wfFrom cap lo b = true)
    (hp : ∀ c ∈ ps, lo ≤ c.1 ∧ c.1 < cap) : Buf.wfFrom cap lo (Buf.writeAll b ps) = true := by
  induction ps generalizing b with
  | nil => exact h
  | cons c rest ih =>
    obtain ⟨i, v⟩ := c
    have hi := hp (i, v) (by simp)
    exact ih (Buf.wfFrom_write h v hi.1 hi.2) (fun c hc => hp c (by simp [hc]))

/-- The canonical form, buffer by buffer. -/
theorem Memory.wf_iff (m : Memory) :
    m.wf = true ↔
      Buf.wfFrom Config.capSeq 0 m.mls = true ∧ Buf.wfFrom Config.capSeq 0 m.probe = true ∧
      Buf.wfFrom Config.capSeq 0 m.tags = true ∧ Buf.wfFrom Config.capSeq 0 m.tagl = true ∧
      Buf.wfFrom Config.capSeq 0 m.recd = true ∧ Buf.wfFrom Config.capWork 0 m.work = true ∧
      Buf.wfFrom Config.capWork 0 m.ir = true := by
  simp [Memory.wf, capacity, and_assoc]

theorem Memory.reset_wf : Memory.reset.wf = true := rfl

/-! Replacing one buffer by a canonical one keeps the memory canonical. -/

theorem Memory.wf_set_mls {m : Memory} (h : m.wf = true) {b : Buf Bit} (hb : Buf.wfFrom Config.capSeq 0 b = true) :
    Memory.wf { m with mls := b } = true := by
  rw [Memory.wf_iff] at h ⊢
  simp [h, hb]

theorem Memory.wf_set_probe {m : Memory} (h : m.wf = true) {b : Buf Real64} (hb : Buf.wfFrom Config.capSeq 0 b = true) :
    Memory.wf { m with probe := b } = true := by
  rw [Memory.wf_iff] at h ⊢
  simp [h, hb]

theorem Memory.wf_set_tags {m : Memory} (h : m.wf = true) {b : Buf Word32} (hb : Buf.wfFrom Config.capSeq 0 b = true) :
    Memory.wf { m with tags := b } = true := by
  rw [Memory.wf_iff] at h ⊢
  simp [h, hb]

theorem Memory.wf_set_tagl {m : Memory} (h : m.wf = true) {b : Buf Word32} (hb : Buf.wfFrom Config.capSeq 0 b = true) :
    Memory.wf { m with tagl := b } = true := by
  rw [Memory.wf_iff] at h ⊢
  simp [h, hb]

theorem Memory.wf_set_recd {m : Memory} (h : m.wf = true) {b : Buf Real64} (hb : Buf.wfFrom Config.capSeq 0 b = true) :
    Memory.wf { m with recd := b } = true := by
  rw [Memory.wf_iff] at h ⊢
  simp [h, hb]

theorem Memory.wf_set_work {m : Memory} (h : m.wf = true) {b : Buf Real64} (hb : Buf.wfFrom Config.capWork 0 b = true) :
    Memory.wf { m with work := b } = true := by
  rw [Memory.wf_iff] at h ⊢
  simp [h, hb]

theorem Memory.wf_set_ir {m : Memory} (h : m.wf = true) {b : Buf Real64} (hb : Buf.wfFrom Config.capWork 0 b = true) :
    Memory.wf { m with ir := b } = true := by
  rw [Memory.wf_iff] at h ⊢
  simp [h, hb]

/-- Canonical buffers that read alike are the same list. -/
theorem Buf.ext_of_wfFrom {cap lo : Nat} {b b' : Buf α} (h : Buf.wfFrom cap lo b = true)
    (h' : Buf.wfFrom cap lo b' = true) (hr : ∀ i, Buf.read b i = Buf.read b' i) : b = b' := by
  have none_below : ∀ {lo k : Nat} {b : Buf α}, Buf.wfFrom cap lo b = true → k < lo → Buf.read b k = none := by
    intro lo k b hb hk
    induction b generalizing lo with
    | nil => rfl
    | cons c rest ih =>
      obtain ⟨j, w⟩ := c
      simp only [Buf.wfFrom, Bool.and_eq_true, decide_eq_true_eq] at hb
      have h1 : k ≠ j := by omega
      rw [Buf.read_cons, if_neg h1]
      exact ih hb.2 (by omega)
  induction b generalizing lo b' with
  | nil =>
    cases b' with
    | nil => rfl
    | cons c rest => obtain ⟨j, w⟩ := c; have := hr j; simp [Buf.read] at this
  | cons c rest ih =>
    obtain ⟨j, w⟩ := c
    cases b' with
    | nil => have := hr j; simp [Buf.read] at this
    | cons c' rest' =>
      obtain ⟨j', w'⟩ := c'
      simp only [Buf.wfFrom, Bool.and_eq_true, decide_eq_true_eq] at h h'
      have hj : j = j' := by
        rcases Nat.lt_trichotomy j j' with hlt | heq | hgt
        · have h1 := hr j
          rw [Buf.read_cons, if_pos rfl, Buf.read_cons, if_neg (by omega), none_below h'.2 (by omega)] at h1
          cases h1
        · exact heq
        · have h1 := hr j'
          rw [Buf.read_cons, if_neg (by omega), none_below h.2 (by omega), Buf.read_cons, if_pos rfl] at h1
          cases h1
      subst hj
      have hw := hr j
      simp only [Buf.read_cons, if_true, Option.some.injEq] at hw
      subst hw
      congr 1
      refine ih h.2 h'.2 fun i => ?_
      by_cases hi : i = j
      · subst hi
        rw [none_below h.2 (by omega), none_below h'.2 (by omega)]
      · have := hr i
        simpa [Buf.read_cons, hi] using this

end Sys2Proof.Machine
end

