-- ==== Sys2Proof/Laws/Loops.lean ====
section
/-!
SUPPORT. What the reading loops answer: the values of a loop all of whose reads succeed, and the first fault otherwise.
-/

namespace Sys2Proof.Machine

theorem bufRead_ok_iff {α : Type} {sp : Space} {b : Buf α} {i : Nat} {v : α} :
    bufRead sp b i = .ok v ↔ Buf.read b i = some v := by
  unfold bufRead
  cases Buf.read b i <;> simp

theorem bufRead_error_iff {α : Type} {sp : Space} {b : Buf α} {i : Nat} {e : Fault} :
    bufRead sp b i = .error e ↔ Buf.read b i = none ∧ e = .unwrittenRead sp i := by
  unfold bufRead
  cases Buf.read b i <;> simp [eq_comm]

/-- A loop whose every turn succeeds gives the list of its values. -/
theorem forRange_eq_ok {β : Type} {f : Nat → Except Fault β} {g : Nat → β} :
    ∀ (n i : Nat), (∀ k, i ≤ k → k < i + n → f k = .ok (g k)) → forRange f i n = .ok ((List.range' i n).map g)
  | 0, i, _ => rfl
  | n + 1, i, h => by
    have h0 := h i (Nat.le_refl _) (by omega)
    have h1 := forRange_eq_ok n (i + 1) (fun k hk hk' => h k (by omega) (by omega))
    simp [forRange, h0, h1, List.range'_succ]

/-- The values of a loop that succeeds, one by one. -/
theorem forRange_ok_iff {β : Type} {f : Nat → Except Fault β} :
    ∀ {n i : Nat} {vs : List β}, forRange f i n = .ok vs ↔
      vs.length = n ∧ ∀ k (hk : k < vs.length), f (i + k) = .ok vs[k]
  | 0, i, vs => by
    constructor
    · intro h
      cases h
      simp
    · rintro ⟨h, -⟩
      simp [forRange, List.length_eq_zero_iff.mp h]
  | n + 1, i, vs => by
    constructor
    · intro h
      simp only [forRange] at h
      split at h
      · cases h
      · rename_i v hv
        split at h
        · cases h
        · rename_i ws hws
          cases h
          obtain ⟨hl, hk⟩ := forRange_ok_iff.mp hws
          refine ⟨by simp [hl], fun k hk' => ?_⟩
          cases k with
          | zero => simpa using hv
          | succ k =>
            have := hk k (by simpa using hk')
            rw [show i + (k + 1) = i + 1 + k by omega]
            simpa using this
    · rintro ⟨hl, hk⟩
      cases vs with
      | nil => simp at hl
      | cons v ws =>
        have h0 : f i = .ok v := hk 0 (Nat.succ_pos _)
        have h1 : forRange f (i + 1) n = .ok ws := by
          refine forRange_ok_iff.mpr ⟨by simpa using hl, fun k hk' => ?_⟩
          have := hk (k + 1) (by simpa using hk')
          rw [show i + 1 + k = i + (k + 1) by omega]
          simpa using this
        simp [forRange, h0, h1]

/-- A loop that faults does so at its first turn that faults. -/
theorem forRange_error_iff {β : Type} {f : Nat → Except Fault β} {e : Fault} :
    ∀ {n i : Nat}, forRange f i n = .error e ↔
      ∃ k, k < n ∧ f (i + k) = .error e ∧ ∀ j, j < k → ∃ v, f (i + j) = .ok v
  | 0, i => by simp [forRange]
  | n + 1, i => by
    constructor
    · intro h
      simp only [forRange] at h
      split at h
      · rename_i e' he
        cases h
        exact ⟨0, by omega, by simpa using he, fun j hj => absurd hj (by omega)⟩
      · rename_i v hv
        split at h
        · rename_i e' he
          cases h
          obtain ⟨k, hk, hf, hj⟩ := forRange_error_iff.mp he
          refine ⟨k + 1, by omega, by rwa [show i + (k + 1) = i + 1 + k by omega], fun j hjk => ?_⟩
          cases j with
          | zero => exact ⟨v, by simpa using hv⟩
          | succ j =>
            rw [show i + (j + 1) = i + 1 + j by omega]
            exact hj j (by omega)
        · cases h
    · rintro ⟨k, hk, hf, hj⟩
      cases k with
      | zero => simp [forRange, show f i = .error e by simpa using hf]
      | succ k =>
        obtain ⟨v, hv⟩ := hj 0 (by omega)
        have h1 : forRange f (i + 1) n = .error e := by
          refine forRange_error_iff.mpr ⟨k, by omega, by rwa [show i + 1 + k = i + (k + 1) by omega], fun j hjk => ?_⟩
          rw [show i + 1 + j = i + (j + 1) by omega]
          exact hj (j + 1) (by omega)
        simp [forRange, show f i = .ok v by simpa using hv, h1]

/-- FirstBad answers once all of B[0..P−1] is written, and its answer is that of the values read (R132). -/
theorem firstBad_ok_iff {sp : Space} {b : Buf Word32} {p : Nat} {r : Option Nat} :
    firstBad sp b p = .ok r ↔ ∃ vs : List Word32, vs.length = p ∧
      (∀ k (hk : k < vs.length), Buf.read b k = some vs[k]) ∧ firstOffender p [] 0 vs = r := by
  have key : ∀ vs : List Word32, forRange (bufRead sp b) 0 p = .ok vs ↔
      vs.length = p ∧ ∀ k (hk : k < vs.length), Buf.read b k = some vs[k] := fun vs => by
    simp [forRange_ok_iff, bufRead_ok_iff]
  unfold firstBad
  split
  · rename_i e he
    refine ⟨fun h => by simp at h, fun ⟨vs, hl, hr, _⟩ => ?_⟩
    simp [(key vs).mpr ⟨hl, hr⟩] at he
  · rename_i vs hvs
    refine ⟨fun h => ⟨vs, ((key vs).mp hvs).1, ((key vs).mp hvs).2, by simpa using h⟩, fun ⟨ws, hl, hr, hw⟩ => ?_⟩
    rw [(key ws).mpr ⟨hl, hr⟩] at hvs
    cases hvs
    simp [hw]

/-- FirstBad faults exactly at the least unwritten element of B[0..P−1] (R66, R132). -/
theorem firstBad_error_iff {sp : Space} {b : Buf Word32} {p : Nat} {e : Fault} :
    firstBad sp b p = .error e ↔ ∃ k, k < p ∧ Buf.read b k = none ∧ e = .unwrittenRead sp k ∧
      ∀ j, j < k → ∃ v, Buf.read b j = some v := by
  have key : firstBad sp b p = .error e ↔ forRange (bufRead sp b) 0 p = .error e := by
    unfold firstBad
    split <;> simp_all
  simp only [key, forRange_error_iff, Nat.zero_add, bufRead_error_iff, bufRead_ok_iff, and_assoc]

/-- Supported(N) holds exactly for N from 1 to 18 (R111). -/
theorem supportedMask_eq_some_iff {n m : Nat} : supportedMask n = some m ↔ taps n = some m ∧ 1 ≤ n ∧ n ≤ 18 := by
  unfold supportedMask Config.nmax
  split <;> simp_all

theorem taps_isSome {n : Nat} (h1 : 1 ≤ n) (h2 : n ≤ 18) : (taps n).isSome = true := by
  have h : ∀ k : Fin 19, 1 ≤ k.val → (taps k.val).isSome = true := by decide
  exact h ⟨n, by omega⟩ h1

theorem supported_iff {n : Nat} : supported n = true ↔ 1 ≤ n ∧ n ≤ 18 := by
  unfold supported supportedMask Config.nmax
  split
  · rename_i h
    simp [h, taps_isSome h.1 h.2]
  · rename_i h
    simpa using fun a => by omega

/-- The engine never forms an index beyond a capacity (R62). -/
theorem seqLen_le_capSeq {n : Nat} (h : n ≤ 18) : seqLen n ≤ Config.capSeq := by
  have : 2 ^ n ≤ 2 ^ 18 := Nat.pow_le_pow_right (by omega) h
  simp only [seqLen, Config.capSeq, Config.nmax]
  omega

theorem workLen_le_capWork {n : Nat} (h : n ≤ 18) : workLen n ≤ Config.capWork :=
  Nat.pow_le_pow_right (by omega) h

theorem seqLen_add_one (n : Nat) : seqLen n + 1 = workLen n := by
  have := Nat.two_pow_pos n
  simp only [seqLen, workLen]
  omega

theorem seqLen_pos {n : Nat} (h : 1 ≤ n) : 0 < seqLen n := by
  have : 2 ^ 1 ≤ 2 ^ n := Nat.pow_le_pow_right (by omega) h
  simp only [seqLen]
  omega

/-- The residue of R10 lies in [0, P). -/
theorem backMod_lt {p : Nat} (h : 0 < p) (i k : Nat) : backMod p i k < p := by
  have h1 : (0 : Int) ≤ ((i : Int) - k) % p := Int.emod_nonneg _ (by omega)
  have h2 : ((i : Int) - k) % p < p := Int.emod_lt_of_pos _ (by omega)
  simp only [backMod]
  omega

theorem parity_lt (w x : Nat) : parity w x < 2 := by
  cases w with
  | zero => simp [parity]
  | succ w => exact Nat.mod_lt _ (by omega)

end Sys2Proof.Machine
end

