-- ==== Sys2Proof/Laws/State.lean ====
section
/-!
SUPPORT. One lemma per field per update of the state, true by rfl, so that no proof unfolds a record update; and the two
cases of accept.
-/

namespace Sys2Proof.Machine

/-! ### finish -/

@[simp] theorem finish_status (s : State) : (finish s).status = s.status.finished := rfl
@[simp] theorem finish_cancel (s : State) : (finish s).cancel = s.cancel := rfl
@[simp] theorem finish_order (s : State) : (finish s).order = s.order := rfl
@[simp] theorem finish_reclen (s : State) : (finish s).reclen = s.reclen := rfl
@[simp] theorem finish_worklen (s : State) : (finish s).worklen = s.worklen := rfl
@[simp] theorem finish_seqn (s : State) : (finish s).seqn = s.seqn := rfl
@[simp] theorem finish_errarg0 (s : State) : (finish s).errarg0 = s.errarg0 := rfl
@[simp] theorem finish_errarg1 (s : State) : (finish s).errarg1 = s.errarg1 := rfl
@[simp] theorem finish_curCmd (s : State) : (finish s).curCmd = s.curCmd := rfl
@[simp] theorem finish_curN (s : State) : (finish s).curN = s.curN := rfl
@[simp] theorem finish_curReclen (s : State) : (finish s).curReclen = s.curReclen := rfl
@[simp] theorem finish_curWorklen (s : State) : (finish s).curWorklen = s.curWorklen := rfl
@[simp] theorem finish_mem (s : State) : (finish s).mem = s.mem := rfl
@[simp] theorem finish_env (s : State) : (finish s).env = s.env := rfl

/-! ### raiseError -/

@[simp] theorem raiseError_status (c : ErrCode) (g : ErrStage) (a0 a1 : Word32) (s : State) : (raiseError c g a0 a1 s).status = s.status.errored c g (opcode s.curCmd) := rfl
@[simp] theorem raiseError_cancel (c : ErrCode) (g : ErrStage) (a0 a1 : Word32) (s : State) : (raiseError c g a0 a1 s).cancel = s.cancel := rfl
@[simp] theorem raiseError_order (c : ErrCode) (g : ErrStage) (a0 a1 : Word32) (s : State) : (raiseError c g a0 a1 s).order = s.order := rfl
@[simp] theorem raiseError_reclen (c : ErrCode) (g : ErrStage) (a0 a1 : Word32) (s : State) : (raiseError c g a0 a1 s).reclen = s.reclen := rfl
@[simp] theorem raiseError_worklen (c : ErrCode) (g : ErrStage) (a0 a1 : Word32) (s : State) : (raiseError c g a0 a1 s).worklen = s.worklen := rfl
@[simp] theorem raiseError_seqn (c : ErrCode) (g : ErrStage) (a0 a1 : Word32) (s : State) : (raiseError c g a0 a1 s).seqn = s.seqn := rfl
@[simp] theorem raiseError_errarg0 (c : ErrCode) (g : ErrStage) (a0 a1 : Word32) (s : State) : (raiseError c g a0 a1 s).errarg0 = a0 := rfl
@[simp] theorem raiseError_errarg1 (c : ErrCode) (g : ErrStage) (a0 a1 : Word32) (s : State) : (raiseError c g a0 a1 s).errarg1 = a1 := rfl
@[simp] theorem raiseError_curCmd (c : ErrCode) (g : ErrStage) (a0 a1 : Word32) (s : State) : (raiseError c g a0 a1 s).curCmd = s.curCmd := rfl
@[simp] theorem raiseError_curN (c : ErrCode) (g : ErrStage) (a0 a1 : Word32) (s : State) : (raiseError c g a0 a1 s).curN = s.curN := rfl
@[simp] theorem raiseError_curReclen (c : ErrCode) (g : ErrStage) (a0 a1 : Word32) (s : State) : (raiseError c g a0 a1 s).curReclen = s.curReclen := rfl
@[simp] theorem raiseError_curWorklen (c : ErrCode) (g : ErrStage) (a0 a1 : Word32) (s : State) : (raiseError c g a0 a1 s).curWorklen = s.curWorklen := rfl
@[simp] theorem raiseError_mem (c : ErrCode) (g : ErrStage) (a0 a1 : Word32) (s : State) : (raiseError c g a0 a1 s).mem = s.mem := rfl
@[simp] theorem raiseError_env (c : ErrCode) (g : ErrStage) (a0 a1 : Word32) (s : State) : (raiseError c g a0 a1 s).env = s.env := rfl

/-! ### setState -/

@[simp] theorem setState_status (e : EngineState) (s : State) : (setState e s).status = s.status.withState e := rfl
@[simp] theorem setState_cancel (e : EngineState) (s : State) : (setState e s).cancel = s.cancel := rfl
@[simp] theorem setState_order (e : EngineState) (s : State) : (setState e s).order = s.order := rfl
@[simp] theorem setState_reclen (e : EngineState) (s : State) : (setState e s).reclen = s.reclen := rfl
@[simp] theorem setState_worklen (e : EngineState) (s : State) : (setState e s).worklen = s.worklen := rfl
@[simp] theorem setState_seqn (e : EngineState) (s : State) : (setState e s).seqn = s.seqn := rfl
@[simp] theorem setState_errarg0 (e : EngineState) (s : State) : (setState e s).errarg0 = s.errarg0 := rfl
@[simp] theorem setState_errarg1 (e : EngineState) (s : State) : (setState e s).errarg1 = s.errarg1 := rfl
@[simp] theorem setState_curCmd (e : EngineState) (s : State) : (setState e s).curCmd = s.curCmd := rfl
@[simp] theorem setState_curN (e : EngineState) (s : State) : (setState e s).curN = s.curN := rfl
@[simp] theorem setState_curReclen (e : EngineState) (s : State) : (setState e s).curReclen = s.curReclen := rfl
@[simp] theorem setState_curWorklen (e : EngineState) (s : State) : (setState e s).curWorklen = s.curWorklen := rfl
@[simp] theorem setState_mem (e : EngineState) (s : State) : (setState e s).mem = s.mem := rfl
@[simp] theorem setState_env (e : EngineState) (s : State) : (setState e s).env = s.env := rfl

/-! ### useDraws -/

@[simp] theorem useDraws_status (n : Nat) (s : State) : (useDraws n s).status = s.status := rfl
@[simp] theorem useDraws_cancel (n : Nat) (s : State) : (useDraws n s).cancel = s.cancel := rfl
@[simp] theorem useDraws_order (n : Nat) (s : State) : (useDraws n s).order = s.order := rfl
@[simp] theorem useDraws_reclen (n : Nat) (s : State) : (useDraws n s).reclen = s.reclen := rfl
@[simp] theorem useDraws_worklen (n : Nat) (s : State) : (useDraws n s).worklen = s.worklen := rfl
@[simp] theorem useDraws_seqn (n : Nat) (s : State) : (useDraws n s).seqn = s.seqn := rfl
@[simp] theorem useDraws_errarg0 (n : Nat) (s : State) : (useDraws n s).errarg0 = s.errarg0 := rfl
@[simp] theorem useDraws_errarg1 (n : Nat) (s : State) : (useDraws n s).errarg1 = s.errarg1 := rfl
@[simp] theorem useDraws_curCmd (n : Nat) (s : State) : (useDraws n s).curCmd = s.curCmd := rfl
@[simp] theorem useDraws_curN (n : Nat) (s : State) : (useDraws n s).curN = s.curN := rfl
@[simp] theorem useDraws_curReclen (n : Nat) (s : State) : (useDraws n s).curReclen = s.curReclen := rfl
@[simp] theorem useDraws_curWorklen (n : Nat) (s : State) : (useDraws n s).curWorklen = s.curWorklen := rfl
@[simp] theorem useDraws_mem (n : Nat) (s : State) : (useDraws n s).mem = s.mem := rfl
@[simp] theorem useDraws_env (n : Nat) (s : State) : (useDraws n s).env = { s.env with draws := s.env.draws + n } := rfl

/-! ### writeCtrl -/

@[simp] theorem writeCtrl_status (v : Word32) (s : State) : (writeCtrl v s).status = s.status := rfl
@[simp] theorem writeCtrl_cancel (v : Word32) (s : State) : (writeCtrl v s).cancel = v.getLsbD 0 := rfl
@[simp] theorem writeCtrl_order (v : Word32) (s : State) : (writeCtrl v s).order = s.order := rfl
@[simp] theorem writeCtrl_reclen (v : Word32) (s : State) : (writeCtrl v s).reclen = s.reclen := rfl
@[simp] theorem writeCtrl_worklen (v : Word32) (s : State) : (writeCtrl v s).worklen = s.worklen := rfl
@[simp] theorem writeCtrl_seqn (v : Word32) (s : State) : (writeCtrl v s).seqn = s.seqn := rfl
@[simp] theorem writeCtrl_errarg0 (v : Word32) (s : State) : (writeCtrl v s).errarg0 = s.errarg0 := rfl
@[simp] theorem writeCtrl_errarg1 (v : Word32) (s : State) : (writeCtrl v s).errarg1 = s.errarg1 := rfl
@[simp] theorem writeCtrl_curCmd (v : Word32) (s : State) : (writeCtrl v s).curCmd = s.curCmd := rfl
@[simp] theorem writeCtrl_curN (v : Word32) (s : State) : (writeCtrl v s).curN = s.curN := rfl
@[simp] theorem writeCtrl_curReclen (v : Word32) (s : State) : (writeCtrl v s).curReclen = s.curReclen := rfl
@[simp] theorem writeCtrl_curWorklen (v : Word32) (s : State) : (writeCtrl v s).curWorklen = s.curWorklen := rfl
@[simp] theorem writeCtrl_mem (v : Word32) (s : State) : (writeCtrl v s).mem = s.mem := rfl
@[simp] theorem writeCtrl_env (v : Word32) (s : State) : (writeCtrl v s).env = s.env := rfl

/-! ### respond -/

@[simp] theorem respond_status (v : Word64) (s : State) : (respond v s).status = s.status := rfl
@[simp] theorem respond_cancel (v : Word64) (s : State) : (respond v s).cancel = s.cancel := rfl
@[simp] theorem respond_order (v : Word64) (s : State) : (respond v s).order = s.order := rfl
@[simp] theorem respond_reclen (v : Word64) (s : State) : (respond v s).reclen = s.reclen := rfl
@[simp] theorem respond_worklen (v : Word64) (s : State) : (respond v s).worklen = s.worklen := rfl
@[simp] theorem respond_seqn (v : Word64) (s : State) : (respond v s).seqn = s.seqn := rfl
@[simp] theorem respond_errarg0 (v : Word64) (s : State) : (respond v s).errarg0 = s.errarg0 := rfl
@[simp] theorem respond_errarg1 (v : Word64) (s : State) : (respond v s).errarg1 = s.errarg1 := rfl
@[simp] theorem respond_curCmd (v : Word64) (s : State) : (respond v s).curCmd = s.curCmd := rfl
@[simp] theorem respond_curN (v : Word64) (s : State) : (respond v s).curN = s.curN := rfl
@[simp] theorem respond_curReclen (v : Word64) (s : State) : (respond v s).curReclen = s.curReclen := rfl
@[simp] theorem respond_curWorklen (v : Word64) (s : State) : (respond v s).curWorklen = s.curWorklen := rfl
@[simp] theorem respond_mem (v : Word64) (s : State) : (respond v s).mem = s.mem := rfl
@[simp] theorem respond_env (v : Word64) (s : State) : (respond v s).env = { s.env with data := some v } := rfl

/-! ### takeTurn -/

@[simp] theorem takeTurn_status (s : State) : (takeTurn s).status = s.status := rfl
@[simp] theorem takeTurn_cancel (s : State) : (takeTurn s).cancel = s.cancel := rfl
@[simp] theorem takeTurn_order (s : State) : (takeTurn s).order = s.order := rfl
@[simp] theorem takeTurn_reclen (s : State) : (takeTurn s).reclen = s.reclen := rfl
@[simp] theorem takeTurn_worklen (s : State) : (takeTurn s).worklen = s.worklen := rfl
@[simp] theorem takeTurn_seqn (s : State) : (takeTurn s).seqn = s.seqn := rfl
@[simp] theorem takeTurn_errarg0 (s : State) : (takeTurn s).errarg0 = s.errarg0 := rfl
@[simp] theorem takeTurn_errarg1 (s : State) : (takeTurn s).errarg1 = s.errarg1 := rfl
@[simp] theorem takeTurn_curCmd (s : State) : (takeTurn s).curCmd = s.curCmd := rfl
@[simp] theorem takeTurn_curN (s : State) : (takeTurn s).curN = s.curN := rfl
@[simp] theorem takeTurn_curReclen (s : State) : (takeTurn s).curReclen = s.curReclen := rfl
@[simp] theorem takeTurn_curWorklen (s : State) : (takeTurn s).curWorklen = s.curWorklen := rfl
@[simp] theorem takeTurn_mem (s : State) : (takeTurn s).mem = s.mem := rfl
@[simp] theorem takeTurn_env (s : State) : (takeTurn s).env = { s.env with turns := s.env.turns.tail } := rfl

/-! ### setProgram -/

@[simp] theorem setProgram_status (ops : List HostOp) (s : State) : (setProgram ops s).status = s.status := rfl
@[simp] theorem setProgram_cancel (ops : List HostOp) (s : State) : (setProgram ops s).cancel = s.cancel := rfl
@[simp] theorem setProgram_order (ops : List HostOp) (s : State) : (setProgram ops s).order = s.order := rfl
@[simp] theorem setProgram_reclen (ops : List HostOp) (s : State) : (setProgram ops s).reclen = s.reclen := rfl
@[simp] theorem setProgram_worklen (ops : List HostOp) (s : State) : (setProgram ops s).worklen = s.worklen := rfl
@[simp] theorem setProgram_seqn (ops : List HostOp) (s : State) : (setProgram ops s).seqn = s.seqn := rfl
@[simp] theorem setProgram_errarg0 (ops : List HostOp) (s : State) : (setProgram ops s).errarg0 = s.errarg0 := rfl
@[simp] theorem setProgram_errarg1 (ops : List HostOp) (s : State) : (setProgram ops s).errarg1 = s.errarg1 := rfl
@[simp] theorem setProgram_curCmd (ops : List HostOp) (s : State) : (setProgram ops s).curCmd = s.curCmd := rfl
@[simp] theorem setProgram_curN (ops : List HostOp) (s : State) : (setProgram ops s).curN = s.curN := rfl
@[simp] theorem setProgram_curReclen (ops : List HostOp) (s : State) : (setProgram ops s).curReclen = s.curReclen := rfl
@[simp] theorem setProgram_curWorklen (ops : List HostOp) (s : State) : (setProgram ops s).curWorklen = s.curWorklen := rfl
@[simp] theorem setProgram_mem (ops : List HostOp) (s : State) : (setProgram ops s).mem = s.mem := rfl
@[simp] theorem setProgram_env (ops : List HostOp) (s : State) : (setProgram ops s).env = { s.env with program := ops } := rfl

/-! ### The reset event -/

@[simp] theorem resetEvent_env (s : State) : (resetEvent s).env = s.env := rfl
@[simp] theorem resetEvent_status (s : State) : (resetEvent s).status = State.reset.status := rfl
@[simp] theorem resetEvent_cancel (s : State) : (resetEvent s).cancel = State.reset.cancel := rfl
@[simp] theorem resetEvent_order (s : State) : (resetEvent s).order = State.reset.order := rfl
@[simp] theorem resetEvent_reclen (s : State) : (resetEvent s).reclen = State.reset.reclen := rfl
@[simp] theorem resetEvent_worklen (s : State) : (resetEvent s).worklen = State.reset.worklen := rfl
@[simp] theorem resetEvent_seqn (s : State) : (resetEvent s).seqn = State.reset.seqn := rfl
@[simp] theorem resetEvent_errarg0 (s : State) : (resetEvent s).errarg0 = State.reset.errarg0 := rfl
@[simp] theorem resetEvent_errarg1 (s : State) : (resetEvent s).errarg1 = State.reset.errarg1 := rfl
@[simp] theorem resetEvent_curCmd (s : State) : (resetEvent s).curCmd = State.reset.curCmd := rfl
@[simp] theorem resetEvent_curN (s : State) : (resetEvent s).curN = State.reset.curN := rfl
@[simp] theorem resetEvent_curReclen (s : State) : (resetEvent s).curReclen = State.reset.curReclen := rfl
@[simp] theorem resetEvent_curWorklen (s : State) : (resetEvent s).curWorklen = State.reset.curWorklen := rfl
@[simp] theorem resetEvent_mem (s : State) : (resetEvent s).mem = State.reset.mem := rfl

/-! ### STATUS -/

@[simp] theorem Status.finished_busy (st : Status) : (st.finished).busy = false := rfl
@[simp] theorem Status.finished_done (st : Status) : (st.finished).done = true := rfl
@[simp] theorem Status.finished_err (st : Status) : (st.finished).err = st.err := rfl
@[simp] theorem Status.finished_ovr (st : Status) : (st.finished).ovr = st.ovr := rfl
@[simp] theorem Status.finished_errcode (st : Status) : (st.finished).errcode = st.errcode := rfl
@[simp] theorem Status.finished_errcmd (st : Status) : (st.finished).errcmd = st.errcmd := rfl
@[simp] theorem Status.finished_state (st : Status) : (st.finished).state = .done := rfl
@[simp] theorem Status.finished_errstage (st : Status) : (st.finished).errstage = st.errstage := rfl

@[simp] theorem Status.errored_busy (st : Status) (c : ErrCode) (g : ErrStage) (k : BitVec 4) : (st.errored c g k).busy = false := rfl
@[simp] theorem Status.errored_done (st : Status) (c : ErrCode) (g : ErrStage) (k : BitVec 4) : (st.errored c g k).done = true := rfl
@[simp] theorem Status.errored_err (st : Status) (c : ErrCode) (g : ErrStage) (k : BitVec 4) : (st.errored c g k).err = true := rfl
@[simp] theorem Status.errored_ovr (st : Status) (c : ErrCode) (g : ErrStage) (k : BitVec 4) : (st.errored c g k).ovr = st.ovr := rfl
@[simp] theorem Status.errored_errcode (st : Status) (c : ErrCode) (g : ErrStage) (k : BitVec 4) : (st.errored c g k).errcode = c := rfl
@[simp] theorem Status.errored_errcmd (st : Status) (c : ErrCode) (g : ErrStage) (k : BitVec 4) : (st.errored c g k).errcmd = k := rfl
@[simp] theorem Status.errored_state (st : Status) (c : ErrCode) (g : ErrStage) (k : BitVec 4) : (st.errored c g k).state = .done := rfl
@[simp] theorem Status.errored_errstage (st : Status) (c : ErrCode) (g : ErrStage) (k : BitVec 4) : (st.errored c g k).errstage = g := rfl

@[simp] theorem Status.overrun_busy (st : Status) : (st.overrun).busy = st.busy := rfl
@[simp] theorem Status.overrun_done (st : Status) : (st.overrun).done = st.done := rfl
@[simp] theorem Status.overrun_err (st : Status) : (st.overrun).err = st.err := rfl
@[simp] theorem Status.overrun_ovr (st : Status) : (st.overrun).ovr = true := rfl
@[simp] theorem Status.overrun_errcode (st : Status) : (st.overrun).errcode = st.errcode := rfl
@[simp] theorem Status.overrun_errcmd (st : Status) : (st.overrun).errcmd = st.errcmd := rfl
@[simp] theorem Status.overrun_state (st : Status) : (st.overrun).state = st.state := rfl
@[simp] theorem Status.overrun_errstage (st : Status) : (st.overrun).errstage = st.errstage := rfl

@[simp] theorem Status.withState_busy (st : Status) (e : EngineState) : (st.withState e).busy = st.busy := rfl
@[simp] theorem Status.withState_done (st : Status) (e : EngineState) : (st.withState e).done = st.done := rfl
@[simp] theorem Status.withState_err (st : Status) (e : EngineState) : (st.withState e).err = st.err := rfl
@[simp] theorem Status.withState_ovr (st : Status) (e : EngineState) : (st.withState e).ovr = st.ovr := rfl
@[simp] theorem Status.withState_errcode (st : Status) (e : EngineState) : (st.withState e).errcode = st.errcode := rfl
@[simp] theorem Status.withState_errcmd (st : Status) (e : EngineState) : (st.withState e).errcmd = st.errcmd := rfl
@[simp] theorem Status.withState_state (st : Status) (e : EngineState) : (st.withState e).state = e := rfl
@[simp] theorem Status.withState_errstage (st : Status) (e : EngineState) : (st.withState e).errstage = st.errstage := rfl

@[simp] theorem Status.accepted_busy (v : Word32) : (Status.accepted v).busy = true := rfl
@[simp] theorem Status.accepted_done (v : Word32) : (Status.accepted v).done = false := rfl
@[simp] theorem Status.accepted_err (v : Word32) : (Status.accepted v).err = false := rfl
@[simp] theorem Status.accepted_ovr (v : Word32) : (Status.accepted v).ovr = false := rfl
@[simp] theorem Status.accepted_errcode (v : Word32) : (Status.accepted v).errcode = .none := rfl
@[simp] theorem Status.accepted_errcmd (v : Word32) : (Status.accepted v).errcmd = 0 := rfl
@[simp] theorem Status.accepted_state (v : Word32) : (Status.accepted v).state = if v = estimateWord then .permute else .exec := rfl
@[simp] theorem Status.accepted_errstage (v : Word32) : (Status.accepted v).errstage = .none := rfl

/-! ### accept -/

theorem accept_of_busy {s : State} (h : s.status.busy = true) (v : Word32) :
    accept v s = { s with status := s.status.overrun } := by
  simp [accept, h]

theorem accept_of_idle {s : State} (h : s.status.busy = false) (v : Word32) :
    accept v s = { s with
      curCmd := v, curN := s.order, curReclen := s.reclen, curWorklen := s.worklen
      cancel := false
      errarg0 := 0, errarg1 := 0
      status := .accepted v } := by
  simp [accept, h]

/-- accept touches neither the buffers nor what stands around the block. -/
@[simp] theorem accept_mem (v : Word32) (s : State) : (accept v s).mem = s.mem := by
  unfold accept
  split <;> rfl

@[simp] theorem accept_env (v : Word32) (s : State) : (accept v s).env = s.env := by
  unfold accept
  split <;> rfl

@[simp] theorem accept_seqn (v : Word32) (s : State) : (accept v s).seqn = s.seqn := by
  unfold accept
  split <;> rfl

end Sys2Proof.Machine
end

