-- ==== Sys2Proof/Laws/Ops.lean ====
section
/-!
SUPPORT. What each shared operation can answer, said once: host transactions, commands that read before they write, the
errors, a register write, and a step. Proofs about an instruction cite these.
-/

namespace Sys2Proof.Machine

/-! ### Errors -/

theorem raiseIllegal_eq (s : State) : raiseIllegal s = raiseError .illegalCmd .check s.curCmd 0 s := rfl

theorem raiseConfig_eq (s : State) : raiseConfig s = raiseError .config .check s.curN 18 s := rfl

theorem raiseNotReady_eq (s : State) : raiseNotReady s = raiseError .notReady .check s.seqn s.curN s := rfl

theorem raiseShape_eq (a : Word32) (n : Nat) (s : State) :
    raiseShape a n s = raiseError .shape .check a (BitVec.ofNat 32 n) s := rfl

theorem raiseIntegrity_eq (g : ErrStage) (f k : Nat) (s : State) :
    raiseIntegrity g f k s = raiseError .integrity g (BitVec.ofNat 32 f) (BitVec.ofNat 32 k) s := rfl

theorem takeCancel_eq (g : ErrStage) (s : State) :
    takeCancel g s = raiseError .cancelled g 0 0 { s with cancel := false } := rfl

/-! ### Reading before going on -/

theorem withRead_next_iff {α : Type} {x : Except Fault α} {go : α → Result} {t : State} :
    withRead x go = .next t ↔ ∃ v, x = .ok v ∧ go v = .next t := by
  cases x <;> simp [withRead]

@[simp] theorem withRead_ok {α : Type} (v : α) (go : α → Result) : withRead (.ok v) go = go v := rfl

@[simp] theorem withRead_error {α : Type} (e : Fault) (go : α → Result) : withRead (.error e) go = .fault e := rfl

/-! ### Buffer transactions -/

theorem bufferTxn_of_busy {s : State} (h : s.status.busy = true) (sp : Space) (idx : Nat) (out inn : Result) :
    bufferTxn sp idx s out inn = .refused .bufferAccessWhileBusy := by
  simp [bufferTxn, h]

theorem bufferTxn_of_lt {s : State} (h : s.status.busy = false) {sp : Space} {idx : Nat} (hi : idx < capacity sp)
    (out inn : Result) : bufferTxn sp idx s out inn = inn := by
  simp [bufferTxn, h, hi]

theorem bufferTxn_of_ge {s : State} (h : s.status.busy = false) {sp : Space} {idx : Nat} (hi : capacity sp ≤ idx)
    (out inn : Result) : bufferTxn sp idx s out inn = out := by
  have : ¬ idx < capacity sp := by omega
  simp [bufferTxn, h, this]

/-- A buffer read that goes on returned DATA and did nothing else, with the engine idle. -/
theorem hostRead_next {α : Type} {sp : Space} {b : Buf α} {f : α → Word64} {idx : Nat} {s t : State}
    (h : hostRead sp b f idx s = .next t) : s.status.busy = false ∧
      ((capacity sp ≤ idx ∧ t = respond 0 s) ∨
        (idx < capacity sp ∧ ∃ v, Buf.read b idx = some v ∧ t = respond (f v) s)) := by
  unfold hostRead bufferTxn at h
  split at h
  · cases h
  · rename_i hb
    refine ⟨by simpa using hb, ?_⟩
    split at h
    · rename_i hi
      obtain ⟨v, hv, ht⟩ := withRead_next_iff.mp h
      exact .inr ⟨hi, v, bufRead_ok_iff.mp hv, (by injection ht with ht; exact ht.symm)⟩
    · rename_i hi
      exact .inl ⟨by omega, by injection h with h; exact h.symm⟩

/-- A buffer write that goes on stored its buffers within range, or did nothing, with the engine idle. -/
theorem hostWrite_next {sp : Space} {idx : Nat} {m : Memory} {s t : State} (h : hostWrite sp idx m s = .next t) :
    s.status.busy = false ∧
      ((capacity sp ≤ idx ∧ t = s) ∨ (idx < capacity sp ∧ t = { s with mem := m })) := by
  unfold hostWrite bufferTxn at h
  split at h
  · cases h
  · rename_i hb
    refine ⟨by simpa using hb, ?_⟩
    split at h
    · rename_i hi
      exact .inr ⟨hi, by injection h with h; exact h.symm⟩
    · rename_i hi
      exact .inl ⟨by omega, by injection h with h; exact h.symm⟩

/-- A write to a read-only buffer that goes on did nothing, with the engine idle. -/
theorem hostIgnore_next {sp : Space} {idx : Nat} {s t : State} (h : hostIgnore sp idx s = .next t) :
    s.status.busy = false ∧ t = s := by
  unfold hostIgnore bufferTxn at h
  split at h
  · cases h
  · rename_i hb
    refine ⟨by simpa using hb, ?_⟩
    split at h <;> (injection h with h; exact h.symm)

/-! ### Registers -/

/-- A register write accepts a command, writes CANCEL or one of three operand registers, or does nothing (R184). -/
theorem regWrite_cases (idx : Nat) (v : Word32) (s : State) :
    (idx = 0 ∧ regWrite idx v s = accept v s) ∨ (idx = 2 ∧ regWrite idx v s = writeCtrl v s) ∨
    (idx = 3 ∧ regWrite idx v s = { s with order := v }) ∨ (idx = 4 ∧ regWrite idx v s = { s with reclen := v }) ∨
    (idx = 5 ∧ regWrite idx v s = { s with worklen := v }) ∨
    ((idx = 1 ∨ 6 ≤ idx) ∧ regWrite idx v s = s) := by
  match idx with
  | 0 => exact .inl ⟨rfl, rfl⟩
  | 1 => simp [regWrite]
  | 2 => simp [regWrite]
  | 3 => simp [regWrite]
  | 4 => simp [regWrite]
  | 5 => simp [regWrite]
  | n + 6 => simp [regWrite]

/-! ### Checks of the tag arrays -/

/-- A generator's check of its own output ends the command, with INTEGRITY or without error. -/
theorem checkGenerated_next {sp : Space} {b : Buf Word32} {p which : Nat} {s t : State}
    (h : checkGenerated sp b p which s = .next t) :
    (firstBad sp b p = .ok none ∧ t = finish s) ∨
      ∃ f, firstBad sp b p = .ok (some f) ∧ t = raiseIntegrity .generate f which s := by
  obtain ⟨r, hr, ht⟩ := withRead_next_iff.mp h
  cases r with
  | none => exact .inl ⟨hr, by injection ht with ht; exact ht.symm⟩
  | some f => exact .inr ⟨f, hr, by injection ht with ht; exact ht.symm⟩

/-- The check of a supplied array ends the command with INTEGRITY, or the command goes on. -/
theorem checkSupplied_next {sp : Space} {b : Buf Word32} {p which : Nat} {s t : State} {go : Result}
    (h : checkSupplied sp b p which s go = .next t) :
    (firstBad sp b p = .ok none ∧ go = .next t) ∨
      ∃ f, firstBad sp b p = .ok (some f) ∧ t = raiseIntegrity .check f which s := by
  obtain ⟨r, hr, ht⟩ := withRead_next_iff.mp h
  cases r with
  | none => exact .inl ⟨hr, ht⟩
  | some f => exact .inr ⟨f, hr, by injection ht with ht; exact ht.symm⟩

/-! ### Steps -/

/-- A step that runs an instruction is `exec` of it. -/
theorem step_of_run {s s' : State} {i : Instr} (h : fetch s = .run i s') : step s = exec i s' := by
  simp [step, h]

theorem step_of_moved {s s' : State} (h : fetch s = .moved s') : step s = .next s' := by
  simp [step, h]

/-- The engine moves only while BUSY = 1 (R17). -/
theorem busy_of_engine {s : State} (h : nextMove s = .engine) : s.status.busy = true := by
  unfold nextMove engineEnabled at h
  split at h
  · cases h
  · split at h
    · cases h
    · split at h
      · assumption
      · cases h
  · split at h
    · assumption
    · split at h <;> cases h

/-- Everything a step can be: the engine's command or its rejection of an illegal word, a host transaction, one poll of
WAIT, a reset, or nothing. -/
theorem step_cases (s : State) :
    (s.status.busy = true ∧ ∃ i, decodeCommand s.curCmd = .ok i ∧ step s = exec i (takeTurn s)) ∨
    (s.status.busy = true ∧ (∃ e, decodeCommand s.curCmd = .error e) ∧ step s = .next (raiseIllegal (takeTurn s))) ∨
    (∃ t ops, step s = exec (decodeTxn t) (setProgram ops (takeTurn s))) ∨
    (∃ ops, step s = exec (.rdReg 1) (setProgram ops (takeTurn s))) ∨
    (∃ ops, step s = .next (resetEvent (setProgram ops (takeTurn s)))) ∨
    (step s = .next (takeTurn s)) := by
  have hset : ∀ u : State, setProgram u.env.program u = u := fun u => rfl
  unfold step fetch
  cases hm : nextMove s with
  | engine =>
    have hb := busy_of_engine hm
    simp only [engineFetch, takeTurn_curCmd]
    cases hd : decodeCommand s.curCmd with
    | ok i => exact .inl ⟨hb, i, rfl, rfl⟩
    | error e => exact .inr (.inl ⟨hb, ⟨e, rfl⟩, rfl⟩)
  | host =>
    simp only [hostFetch]
    cases hp : (takeTurn s).env.program with
    | nil => simp
    | cons op ops =>
      cases op with
      | txn t => exact .inr (.inr (.inl ⟨t, ops, rfl⟩))
      | wait =>
        refine .inr (.inr (.inr (.inl ?_)))
        simp only [afterWait]
        split
        · exact ⟨_, by rw [hset]⟩
        · exact ⟨ops, rfl⟩
      | reset => exact .inr (.inr (.inr (.inr (.inl ⟨ops, rfl⟩))))
  | reset => exact .inr (.inr (.inr (.inr (.inl ⟨(takeTurn s).env.program, by rw [hset]⟩))))
  | ended => simp

end Sys2Proof.Machine
end

