-- ==== Sys2Proof/Laws/Exec.lean ====
section
/-!
SUPPORT. One inversion lemma per command: the states its next state can be. Proofs about all instructions cite these and the
lemmas on host transactions in Laws/Ops.lean instead of unfolding a meaning.
-/

namespace Sys2Proof.Machine

theorem next_inj {s t : State} (h : (Host.Outcome.next s : Result) = .next t) : t = s := by
  injection h with h
  exact h.symm

/-- GENSEQ reports CONFIG, or writes the sequence and SEQN and finishes. -/
theorem execGenseq_next {s t : State} (h : execGenseq s = .next t) :
    (supported s.curN.toNat = false ∧ t = raiseConfig s) ∨
    ∃ m, supportedMask s.curN.toNat = some m ∧
      t = finish { s with
        mem := { s.mem with mls := s.mem.mls.writeRun 0 (sequence s.curN.toNat m) }, seqn := s.curN } := by
  unfold execGenseq at h
  split at h
  · rename_i hm
    exact .inl ⟨by simp [supported, hm], next_inj h⟩
  · rename_i m hm
    exact .inr ⟨m, hm, next_inj h⟩

/-- BIPOLAR reports CONFIG or NOT_READY, or writes PROBE and finishes. -/
theorem execBipolar_next {s t : State} (h : execBipolar s = .next t) :
    (supported s.curN.toNat = false ∧ t = raiseConfig s) ∨
    (supported s.curN.toNat = true ∧ s.seqn ≠ s.curN ∧ t = raiseNotReady s) ∨
    (supported s.curN.toNat = true ∧ s.seqn = s.curN ∧
      ∃ vs, bipolarRun binary64 s.mem.mls (seqLen s.curN.toNat) = .ok vs ∧
        t = finish { s with mem := { s.mem with probe := s.mem.probe.writeRun 0 vs } }) := by
  simp only [execBipolar] at h
  split at h
  · rename_i hs
    exact .inl ⟨by simpa using hs, next_inj h⟩
  · rename_i hs
    have hs : supported s.curN.toNat = true := by simpa using hs
    split at h
    · rename_i hq
      exact .inr (.inl ⟨hs, hq, next_inj h⟩)
    · rename_i hq
      obtain ⟨vs, hv, ht⟩ := withRead_next_iff.mp h
      exact .inr (.inr ⟨hs, by simpa using hq, vs, hv, next_inj ht⟩)

/-- GENTAGS reports CONFIG or NOT_READY, or writes TAGS and ends by its own check. -/
theorem execGentags_next {s t : State} (h : execGentags s = .next t) :
    (supported s.curN.toNat = false ∧ t = raiseConfig s) ∨
    (supported s.curN.toNat = true ∧ s.seqn ≠ s.curN ∧ t = raiseNotReady s) ∨
    (supported s.curN.toNat = true ∧ s.seqn = s.curN ∧
      ∃ ws, windows s.mem.mls s.curN.toNat = .ok ws ∧
        let s' := { s with mem := { s.mem with tags := s.mem.tags.writeRun 0 (ws.map (BitVec.ofNat 32)) } }
        t = finish s' ∨ ∃ f, t = raiseIntegrity .generate f 0 s') := by
  simp only [execGentags] at h
  split at h
  · rename_i hs
    exact .inl ⟨by simpa using hs, next_inj h⟩
  · rename_i hs
    have hs : supported s.curN.toNat = true := by simpa using hs
    split at h
    · rename_i hq
      exact .inr (.inl ⟨hs, hq, next_inj h⟩)
    · rename_i hq
      obtain ⟨ws, hw, ht⟩ := withRead_next_iff.mp h
      refine .inr (.inr ⟨hs, by simpa using hq, ws, hw, ?_⟩)
      rcases checkGenerated_next ht with ⟨-, rfl⟩ | ⟨f, -, rfl⟩
      · exact .inl rfl
      · exact .inr ⟨f, rfl⟩

/-- GENTAGL reports CONFIG, NOT_READY or a failed unit search, or writes TAGL and ends by its own check. -/
theorem execGentagl_next {s t : State} (h : execGentagl s = .next t) :
    (supported s.curN.toNat = false ∧ t = raiseConfig s) ∨
    (supported s.curN.toNat = true ∧ s.seqn ≠ s.curN ∧ t = raiseNotReady s) ∨
    (supported s.curN.toNat = true ∧ s.seqn = s.curN ∧
      ∃ cs, windows s.mem.mls s.curN.toNat = .ok cs ∧
        ((∃ j, unitIndexFrom cs 0 s.curN.toNat = .error j ∧ t = raiseIntegrity .generate j 2 s) ∨
          ∃ index ts, unitIndexFrom cs 0 s.curN.toNat = .ok index ∧
            inverseTags s.mem.mls index (seqLen s.curN.toNat) = .ok ts ∧
            let s' := { s with mem := { s.mem with tagl := s.mem.tagl.writeRun 0 (ts.map (BitVec.ofNat 32)) } }
            (t = finish s' ∨ ∃ f, t = raiseIntegrity .generate f 1 s'))) := by
  simp only [execGentagl] at h
  split at h
  · rename_i hs
    exact .inl ⟨by simpa using hs, next_inj h⟩
  · rename_i hs
    have hs : supported s.curN.toNat = true := by simpa using hs
    split at h
    · rename_i hq
      exact .inr (.inl ⟨hs, hq, next_inj h⟩)
    · rename_i hq
      obtain ⟨cs, hc, ht⟩ := withRead_next_iff.mp h
      refine .inr (.inr ⟨hs, by simpa using hq, cs, hc, ?_⟩)
      split at ht
      · rename_i j hj
        exact .inl ⟨j, hj, next_inj ht⟩
      · rename_i index hi
        obtain ⟨ts, hts, ht⟩ := withRead_next_iff.mp ht
        refine .inr ⟨index, ts, hi, hts, ?_⟩
        rcases checkGenerated_next ht with ⟨-, rfl⟩ | ⟨f, -, rfl⟩
        · exact .inl rfl
        · exact .inr ⟨f, rfl⟩

/-- FHT reports CONFIG or SHAPE, or transforms WORK and finishes. -/
theorem execFht_next {s t : State} (h : execFht s = .next t) :
    (supported s.curN.toNat = false ∧ t = raiseConfig s) ∨
    (supported s.curN.toNat = true ∧ s.curWorklen.toNat ≠ workLen s.curN.toNat ∧
      t = raiseShape s.curWorklen (workLen s.curN.toNat) s) ∨
    (supported s.curN.toNat = true ∧ s.curWorklen.toNat = workLen s.curN.toNat ∧
      ∃ work, transform binary64 s.env.draws s.mem.work s.curN.toNat = .ok work ∧
        t = finish (useDraws (transformDraws s.curN.toNat) { s with mem := { s.mem with work := work } })) := by
  simp only [execFht] at h
  split at h
  · rename_i hs
    exact .inl ⟨by simpa using hs, next_inj h⟩
  · rename_i hs
    have hs : supported s.curN.toNat = true := by simpa using hs
    split at h
    · rename_i hq
      exact .inr (.inl ⟨hs, hq, next_inj h⟩)
    · rename_i hq
      obtain ⟨w, hw, ht⟩ := withRead_next_iff.mp h
      exact .inr (.inr ⟨hs, by simpa using hq, w, hw, next_inj ht⟩)

/-- ESTIMATE step 1 reports CONFIG, SHAPE or INTEGRITY, or permutes and moves STATE to TRANSFORM. -/
theorem estimatePermute_next {s t : State} (h : estimatePermute s = .next t) :
    (supported s.curN.toNat = false ∧ t = raiseConfig s) ∨
    (supported s.curN.toNat = true ∧ s.curReclen.toNat ≠ seqLen s.curN.toNat ∧
      t = raiseShape s.curReclen (seqLen s.curN.toNat) s) ∨
    (∃ f which, supported s.curN.toNat = true ∧ t = raiseIntegrity .check f which s) ∨
    (supported s.curN.toNat = true ∧ s.curReclen.toNat = seqLen s.curN.toNat ∧
      firstBad .tags s.mem.tags (seqLen s.curN.toNat) = .ok none ∧
      firstBad .tagl s.mem.tagl (seqLen s.curN.toNat) = .ok none ∧
      ∃ work, permuteStage binary64 s.env.draws s.mem.tags s.mem.recd s.mem.work (seqLen s.curN.toNat) = .ok work ∧
        t = setState .transform (useDraws (seqLen s.curN.toNat) { s with mem := { s.mem with work := work } })) := by
  simp only [estimatePermute] at h
  split at h
  · rename_i hs
    exact .inl ⟨by simpa using hs, next_inj h⟩
  · rename_i hs
    have hs : supported s.curN.toNat = true := by simpa using hs
    split at h
    · rename_i hq
      exact .inr (.inl ⟨hs, hq, next_inj h⟩)
    · rename_i hq
      rcases checkSupplied_next h with ⟨h1, h⟩ | ⟨f, -, rfl⟩
      · rcases checkSupplied_next h with ⟨h2, h⟩ | ⟨f, -, rfl⟩
        · obtain ⟨w, hw, ht⟩ := withRead_next_iff.mp h
          exact .inr (.inr (.inr ⟨hs, by simpa using hq, h1, h2, w, hw, next_inj ht⟩))
        · exact .inr (.inr (.inl ⟨f, 1, hs, rfl⟩))
      · exact .inr (.inr (.inl ⟨f, 0, hs, rfl⟩))

/-- ESTIMATE step 2 takes a cancellation, or transforms and moves STATE to PERMUTE_SCALE. -/
theorem estimateTransform_next {s t : State} (h : estimateTransform s = .next t) :
    (s.cancel = true ∧ t = takeCancel .transform s) ∨
    (s.cancel = false ∧ ∃ work, transform binary64 s.env.draws s.mem.work s.curN.toNat = .ok work ∧
      t = setState .permuteScale
        (useDraws (transformDraws s.curN.toNat) { s with mem := { s.mem with work := work } })) := by
  simp only [estimateTransform] at h
  split at h
  · rename_i hc
    exact .inl ⟨hc, next_inj h⟩
  · rename_i hc
    obtain ⟨w, hw, ht⟩ := withRead_next_iff.mp h
    exact .inr ⟨by simpa using hc, w, hw, next_inj ht⟩

/-- ESTIMATE step 3 takes a cancellation, or writes IR and finishes. -/
theorem estimateScale_next {s t : State} (h : estimateScale s = .next t) :
    (s.cancel = true ∧ t = takeCancel .permuteScale s) ∨
    (s.cancel = false ∧
      ∃ ir, scaleStage binary64 s.env.draws s.curN.toNat s.mem.tagl s.mem.work s.mem.ir = .ok ir ∧
        t = finish (useDraws (seqLen s.curN.toNat) { s with mem := { s.mem with ir := ir } })) := by
  simp only [estimateScale] at h
  split at h
  · rename_i hc
    exact .inl ⟨hc, next_inj h⟩
  · rename_i hc
    obtain ⟨w, hw, ht⟩ := withRead_next_iff.mp h
    exact .inr ⟨by simpa using hc, w, hw, next_inj ht⟩

/-- ESTIMATE goes on only at the three STATEs that have a step (R160). -/
theorem execEstimate_next {s t : State} (h : execEstimate s = .next t) :
    (s.status.state = .permute ∧ estimatePermute s = .next t) ∨
    (s.status.state = .transform ∧ estimateTransform s = .next t) ∨
    (s.status.state = .permuteScale ∧ estimateScale s = .next t) := by
  unfold execEstimate at h
  split at h
  · rename_i hs
    exact .inl ⟨hs, h⟩
  · rename_i hs
    exact .inr (.inl ⟨hs, h⟩)
  · rename_i hs
    exact .inr (.inr ⟨hs, h⟩)
  · cases h
  · cases h
  · cases h

/-- What a host transaction can do: answer a read, write a register, store one element with the engine idle, or nothing. -/
theorem exec_host_next {i : Instr} {s t : State} (hi : i.isCommand = false) (h : exec i s = .next t) :
    (∃ v, t = respond v s) ∨ (∃ idx v, i = .wrReg idx v ∧ t = regWrite idx (lowData v) s) ∨
    (s.status.busy = false ∧ ((∃ idx v, idx < Config.capSeq ∧ i = .wrTags idx v ∧
        t = { s with mem := { s.mem with tags := s.mem.tags.write idx (lowData v) } }) ∨
      (∃ idx v, idx < Config.capSeq ∧ i = .wrTagl idx v ∧
        t = { s with mem := { s.mem with tagl := s.mem.tagl.write idx (lowData v) } }) ∨
      (∃ idx v, idx < Config.capSeq ∧ i = .wrRec idx v ∧
        t = { s with mem := { s.mem with recd := s.mem.recd.write idx v } }) ∨
      (∃ idx v, idx < Config.capWork ∧ i = .wrWork idx v ∧
        t = { s with mem := { s.mem with work := s.mem.work.write idx v } }))) ∨
    (s.status.busy = false ∧ t = s) := by
  have ofRead : ∀ {α : Type} {sp : Space} {b : Buf α} {f : α → Word64} {idx : Nat},
      hostRead sp b f idx s = .next t → ∃ v, t = respond v s := by
    intro α sp b f idx hr
    obtain ⟨-, ⟨-, ht⟩ | ⟨-, v, -, ht⟩⟩ := hostRead_next hr
    · exact ⟨_, ht⟩
    · exact ⟨_, ht⟩
  cases i with
  | genseq | bipolar | gentags | gentagl | fht | estimate => simp [Instr.isCommand] at hi
  | rdReg idx => exact .inl ⟨_, next_inj h⟩
  | wrReg idx v => exact .inr (.inl ⟨idx, v, rfl, next_inj h⟩)
  | rdMls idx | rdProbe idx | rdTags idx | rdTagl idx | rdRec idx | rdWork idx | rdIr idx => exact .inl (ofRead h)
  | wrMls idx v | wrProbe idx v | wrIr idx v => exact .inr (.inr (.inr (hostIgnore_next h)))
  | wrTags idx v =>
    obtain ⟨hb, ⟨-, ht⟩ | ⟨hr, ht⟩⟩ := hostWrite_next h
    · exact .inr (.inr (.inr ⟨hb, ht⟩))
    · exact .inr (.inr (.inl ⟨hb, .inl ⟨idx, v, hr, rfl, ht⟩⟩))
  | wrTagl idx v =>
    obtain ⟨hb, ⟨-, ht⟩ | ⟨hr, ht⟩⟩ := hostWrite_next h
    · exact .inr (.inr (.inr ⟨hb, ht⟩))
    · exact .inr (.inr (.inl ⟨hb, .inr (.inl ⟨idx, v, hr, rfl, ht⟩)⟩))
  | wrRec idx v =>
    obtain ⟨hb, ⟨-, ht⟩ | ⟨hr, ht⟩⟩ := hostWrite_next h
    · exact .inr (.inr (.inr ⟨hb, ht⟩))
    · exact .inr (.inr (.inl ⟨hb, .inr (.inr (.inl ⟨idx, v, hr, rfl, ht⟩))⟩))
  | wrWork idx v =>
    obtain ⟨hb, ⟨-, ht⟩ | ⟨hr, ht⟩⟩ := hostWrite_next h
    · exact .inr (.inr (.inr ⟨hb, ht⟩))
    · exact .inr (.inr (.inl ⟨hb, .inr (.inr (.inr ⟨idx, v, hr, rfl, ht⟩))⟩))

/-! ### Lengths of what the commands write -/

theorem lfsr_length (n m : Nat) : ∀ count d, (lfsr n m count d).length = count
  | 0, _ => rfl
  | count + 1, d => by simp [lfsr, lfsr_length n m count]

theorem sequence_length (n m : Nat) : (sequence n m).length = seqLen n := lfsr_length ..

theorem zipDraws_length {α : Type} (f : Nat → α → α → α) :
    ∀ (d : Nat) (as bs : List α), (zipDraws f d as bs).length = min as.length bs.length
  | _, [], _ => by simp [zipDraws]
  | _, _ :: _, [] => by simp [zipDraws]
  | d, a :: as, b :: bs => by simp [zipDraws, zipDraws_length f (d + 1) as bs]

theorem htStage_length {α : Type} (num : Num α) (h : Nat) :
    ∀ (blocks d : Nat) (v : List α), v.length = blocks * (2 * h) → (htStage num h blocks d v).length = v.length
  | 0, d, v, hv => by simp [htStage]; omega
  | blocks + 1, d, v, hv => by
    have h1 : v.length = blocks * (2 * h) + 2 * h := by rw [hv, Nat.succ_mul]
    have h2 : (v.drop (2 * h)).length = blocks * (2 * h) := by simp; omega
    simp only [htStage, butterflies, List.length_append, zipDraws_length, htStage_length num h blocks _ _ h2,
      List.length_take, List.length_drop]
    omega

theorem htStages_length {α : Type} (num : Num α) :
    ∀ (stages blocks d : Nat) (v : List α), v.length = blocks * 2 ^ stages →
      (htStages num stages blocks d v).length = v.length
  | 0, _, _, _, _ => rfl
  | stages + 1, blocks, d, v, hv => by
    have h1 : v.length = blocks * (2 * 2 ^ stages) := by rw [hv, Nat.pow_succ, Nat.mul_comm (2 ^ stages)]
    have h2 := htStage_length num (2 ^ stages) blocks d v h1
    rw [htStages, htStages_length num stages (2 * blocks) _ _ (by rw [h2, h1, ← Nat.mul_assoc, Nat.mul_comm 2]), h2]

/-- HT keeps the length. -/
theorem hadamard_length {α : Type} (num : Num α) (n d : Nat) (v : List α) (hv : v.length = 2 ^ n) :
    (hadamard num n d v).length = 2 ^ n := by
  rw [hadamard, htStages_length num n 1 d v (by simpa using hv), hv]

end Sys2Proof.Machine
end

