-- ==== Sys2Proof/Laws/PerInstr.lean ====
section
/-!
SUPPORT. Small lemmas about the encoder, and the per-instruction family TableMatch: the fixed bits of an instruction's encoding
are those of its row of opcode_table.json.
-/

namespace Sys2Proof

/-- The header takes the low four bits of a transaction (30_encoding.md R94). -/
theorem transaction_bits_mod (t : Txn) : (Encoded.transaction t).bits % 2 ^ 4 = t.header.toNat := by
  have := t.header.isLt
  simp only [Encoded.bits]
  omega

@[simp] theorem command_bits (w : Word32) : (Encoded.command w).bits = w.toNat := rfl

theorem readTxn_bits_mod (sp : Space) (idx : Nat) : (readTxn sp idx).bits % 2 ^ 4 = (header sp false).toNat :=
  transaction_bits_mod _

theorem writeTxn_bits_mod (sp : Space) (idx : Nat) (dat : Word64) :
    (writeTxn sp idx dat).bits % 2 ^ 4 = (header sp true).toNat :=
  transaction_bits_mod _

/-- SPACE of a header is the space it was built from (R95). -/
@[simp] theorem space_of_header (sp : Space) (w : Bool) (idx : Word32) (dat : Word64) :
    Txn.space ⟨header sp w, idx, dat⟩ = sp := by
  simp only [Txn.space]
  cases sp <;> cases w <;> decide

/-- DIR of a header is the direction it was built from (R94). -/
@[simp] theorem isWrite_of_header (sp : Space) (w : Bool) (idx : Word32) (dat : Word64) :
    Txn.isWrite ⟨header sp w, idx, dat⟩ = w := by
  simp only [Txn.isWrite]
  cases sp <;> cases w <;> decide

namespace Laws.TableMatch

/-- The "match" column of opcode_table.json. -/
def matchBits : Instr → Nat
  | .genseq => 0x00000001
  | .bipolar => 0x00000002
  | .gentags => 0x00000003
  | .gentagl => 0x00000004
  | .fht => 0x00000005
  | .estimate => 0x00000006
  | .rdReg _ => 0x0
  | .wrReg _ _ => 0x1
  | .rdMls _ => 0x2
  | .wrMls _ _ => 0x3
  | .rdProbe _ => 0x4
  | .wrProbe _ _ => 0x5
  | .rdTags _ => 0x6
  | .wrTags _ _ => 0x7
  | .rdTagl _ => 0x8
  | .wrTagl _ _ => 0x9
  | .rdRec _ => 0xA
  | .wrRec _ _ => 0xB
  | .rdWork _ => 0xC
  | .wrWork _ _ => 0xD
  | .rdIr _ => 0xE
  | .wrIr _ _ => 0xF

/-- How many low bits its "mask" column fixes: all 32 of a command word, the 4 of a header. -/
def maskWidth (i : Instr) : Nat := if i.isCommand then 32 else 4

def Statement (i : Instr) : Prop := (encode i).bits % 2 ^ maskWidth i = matchBits i

theorem genseq : Statement .genseq := rfl
theorem bipolar : Statement .bipolar := rfl
theorem gentags : Statement .gentags := rfl
theorem gentagl : Statement .gentagl := rfl
theorem fht : Statement .fht := rfl
theorem estimate : Statement .estimate := rfl
theorem rdReg (idx : Nat) : Statement (.rdReg idx) := readTxn_bits_mod .reg idx
theorem wrReg (idx : Nat) (dat : Word64) : Statement (.wrReg idx dat) := writeTxn_bits_mod .reg idx dat
theorem rdMls (idx : Nat) : Statement (.rdMls idx) := readTxn_bits_mod .mls idx
theorem wrMls (idx : Nat) (dat : Word64) : Statement (.wrMls idx dat) := writeTxn_bits_mod .mls idx dat
theorem rdProbe (idx : Nat) : Statement (.rdProbe idx) := readTxn_bits_mod .probe idx
theorem wrProbe (idx : Nat) (dat : Word64) : Statement (.wrProbe idx dat) := writeTxn_bits_mod .probe idx dat
theorem rdTags (idx : Nat) : Statement (.rdTags idx) := readTxn_bits_mod .tags idx
theorem wrTags (idx : Nat) (dat : Word64) : Statement (.wrTags idx dat) := writeTxn_bits_mod .tags idx dat
theorem rdTagl (idx : Nat) : Statement (.rdTagl idx) := readTxn_bits_mod .tagl idx
theorem wrTagl (idx : Nat) (dat : Word64) : Statement (.wrTagl idx dat) := writeTxn_bits_mod .tagl idx dat
theorem rdRec (idx : Nat) : Statement (.rdRec idx) := readTxn_bits_mod .recd idx
theorem wrRec (idx : Nat) (dat : Word64) : Statement (.wrRec idx dat) := writeTxn_bits_mod .recd idx dat
theorem rdWork (idx : Nat) : Statement (.rdWork idx) := readTxn_bits_mod .work idx
theorem wrWork (idx : Nat) (dat : Word64) : Statement (.wrWork idx dat) := writeTxn_bits_mod .work idx dat
theorem rdIr (idx : Nat) : Statement (.rdIr idx) := readTxn_bits_mod .ir idx
theorem wrIr (idx : Nat) (dat : Word64) : Statement (.wrIr idx dat) := writeTxn_bits_mod .ir idx dat

end Laws.TableMatch

end Sys2Proof
end

