-- ==== Sys2Proof/Machine/Assembler.lean ====
section
/-!
DEFINITION. The host assembler (30_encoding.md R97): its lines, what they expand to, and how a program stands in the state
before it runs (log 2). The notation itself (comments, register names, number spelling) is text for a reader and is not modelled;
a line here is its parsed form (log 16).
-/

namespace Sys2Proof.Machine

/-- One line of host assembler (R97). -/
inductive AsmLine where
  /-- `RD.<SPACE> i`, `WR.<SPACE> i, d`; for a command, `CMD <mnemonic>`. -/
  | instr (i : Instr)
  /-- `CMD <word>`, any 32-bit word. -/
  | cmdWord (w : Word32)
  /-- `SETORDER n`. R97 gives n no width; the model takes the 32 bits that the register holds, so DATA[63:32] of the expansion
  is 0, here and in the next two (DESIGN CHOICE, log 16). -/
  | setOrder (n : Word32)
  /-- `SETRECLEN n` (log 16). -/
  | setRecLen (n : Word32)
  /-- `SETWORKLEN n` (log 16). -/
  | setWorkLen (n : Word32)
  | cancel
  | wait
  /-- `LOAD.<SPACE> i0, [v0, …, vk]`. -/
  | load (sp : Space) (i0 : Nat) (vs : List Word64)
  /-- `EXPECT.<SPACE> i, v`. -/
  | expect (sp : Space) (i : Nat) (v : Word64)
  | reset
  deriving DecidableEq, Repr

def hostTxn (e : Encoded) : List HostOp :=
  match e with
  | .transaction t => [.txn t]
  | .command _ => []

/-- `WR.REG r, w` (R97). -/
def writeReg (r : Nat) (w : Word32) : List HostOp := hostTxn (encode (.wrReg r (zextData w)))

/-- `WR.<SPACE> i0, v0`, `WR.<SPACE> i0+1, v1`, … (R97). R97 gives no expansion where an index reaches 2^32; the index then
wraps to 0 (DESIGN CHOICE, log 7). -/
def loadFrom (sp : Space) : Nat → List Word64 → List HostOp
  | _, [] => []
  | i, v :: vs => hostTxn (writeTxn sp i v) ++ loadFrom sp (i + 1) vs

/-- The expansion of a line (R97), an index of 2^32 or more taken modulo 2^32 (log 7). WAIT and RESET stay lines of their own:
WAIT is a loop and RESET is not a transaction. -/
def AsmLine.expand : AsmLine → List HostOp
  | .instr i =>
    match encode i with
    | .transaction t => [.txn t]
    | .command w => writeReg 0 w
  | .cmdWord w => writeReg 0 w
  | .setOrder n => writeReg 3 n
  | .setRecLen n => writeReg 4 n
  | .setWorkLen n => writeReg 5 n
  | .cancel => writeReg 2 1
  | .wait => [.wait]
  | .load sp i0 vs => loadFrom sp i0 vs
  | .expect sp i _ => hostTxn (readTxn sp i)
  | .reset => [.reset]

/-- The test-bench assertion of an EXPECT line, over the DATA its read returned (R97); true of every other line. -/
def AsmLine.holds (line : AsmLine) (data : Option Word64) : Bool :=
  match line with
  | .expect _ _ v => data == some v
  | _ => true

def assemble : List AsmLine → List HostOp
  | [] => []
  | line :: rest => line.expand ++ assemble rest

/-- `s` with a program to run and a schedule (log 2). -/
def State.load (s : State) (program : List AsmLine) (turns : List Turn) : State :=
  { s with env := { s.env with program := assemble program, turns := turns } }

/-- The number of binary places that leave a quotient at least 66 significant bits, or reach below every binary64. -/
def literalPlaces (den : Nat) : Nat := 1140 + Nat.log2 den

/-- A real literal `num / den` of the assembler: the nearest binary64, ties to even (R97). The quotient is cut after more
places than any binary64 has, and what is cut off is kept as one sticky bit. -/
def realLiteral (neg : Bool) (num den : Nat) : Real64 :=
  let k := literalPlaces den
  let q := (num * 2 ^ k) / den
  let sticky := if (num * 2 ^ k) % den = 0 then 0 else 1
  Binary64.round neg (2 * q + sticky) (k + 1 - 1074)

end Sys2Proof.Machine
end

