-- ==== Sys2Proof/Tests/Slice0.lean ====
section
/-!
SUPPORT. The model's own tests. Expected values come from the encodings of 30_encoding.md and from the vectors of
95_test_vectors.md, which each test names. Then, for every obligation with hypotheses, a witness that meets them.
-/

namespace Sys2Proof.Tests

open Sys2Proof.Machine

-- One theorem at a time: many small ones in parallel take a thread's stack each and reach the memory limit of the check.
set_option Elab.async false

/-! ### Helpers -/

/-- A buffer holding `vs` from element 0 on. -/
def elems {α : Type} (vs : List α) : Buf α := indexedFrom 0 vs

/-- Reset memory. -/
def noMem : Memory := Memory.reset

/-- The reset state after the command word `cmd` was accepted with ORDER = `n`. -/
def running (cmd n : Word32) : State :=
  { State.reset with curCmd := cmd, curN := n, order := n, status := Status.accepted cmd }

/-- ESTIMATE of order `n` at STATE `e`. -/
def estimating (n : Word32) (e : EngineState) : State :=
  { running 6 n with curReclen := BitVec.ofNat 32 (seqLen n.toNat), status := (Status.accepted 6).withState e }

/-- A view of the next state, none after a fault or a refusal. -/
def seen {β : Type} (r : Result) (view : State → β) : Option β :=
  match r with
  | .next s => some (view s)
  | .fault _ => none
  | .refused _ => none

/-- The fault a step ends in. -/
def faultOf (r : Result) : Option Fault :=
  match r with
  | .next _ => none
  | .fault e => some e
  | .refused _ => none

/-- The refusal a step ends in. -/
def refusalOf (r : Result) : Option Refusal :=
  match r with
  | .next _ => none
  | .fault _ => none
  | .refused e => some e

/-- STATUS, ERRARG0 and ERRARG1 as the host reads them. -/
def report (s : State) : Word32 × Word32 × Word32 := (s.status.word, s.errarg0, s.errarg1)

/-- What a read returned. -/
def got (s : State) : Option Word64 := s.env.data

/-! ### WellFormed: an INDEX of 2^32 has no encoding (30_encoding.md R94) -/

theorem test_illFormed_rdReg : (Instr.rdReg (2 ^ 32)).wellFormed = false := by decide
theorem test_illFormed_wrReg : (Instr.wrReg (2 ^ 32) 0).wellFormed = false := by decide
theorem test_illFormed_rdMls : (Instr.rdMls (2 ^ 32)).wellFormed = false := by decide
theorem test_illFormed_wrMls : (Instr.wrMls (2 ^ 32) 0).wellFormed = false := by decide
theorem test_illFormed_rdProbe : (Instr.rdProbe (2 ^ 32)).wellFormed = false := by decide
theorem test_illFormed_wrProbe : (Instr.wrProbe (2 ^ 32) 0).wellFormed = false := by decide
theorem test_illFormed_rdTags : (Instr.rdTags (2 ^ 32)).wellFormed = false := by decide
theorem test_illFormed_wrTags : (Instr.wrTags (2 ^ 32) 0).wellFormed = false := by decide
theorem test_illFormed_rdTagl : (Instr.rdTagl (2 ^ 32)).wellFormed = false := by decide
theorem test_illFormed_wrTagl : (Instr.wrTagl (2 ^ 32) 0).wellFormed = false := by decide
theorem test_illFormed_rdRec : (Instr.rdRec (2 ^ 32)).wellFormed = false := by decide
theorem test_illFormed_wrRec : (Instr.wrRec (2 ^ 32) 0).wellFormed = false := by decide
theorem test_illFormed_rdWork : (Instr.rdWork (2 ^ 32)).wellFormed = false := by decide
theorem test_illFormed_wrWork : (Instr.wrWork (2 ^ 32) 0).wellFormed = false := by decide
theorem test_illFormed_rdIr : (Instr.rdIr (2 ^ 32)).wellFormed = false := by decide
theorem test_illFormed_wrIr : (Instr.wrIr (2 ^ 32) 0).wellFormed = false := by decide
theorem test_wellFormed_largestIndex : (Instr.wrIr (2 ^ 32 - 1) 0xFFFFFFFFFFFFFFFF).wellFormed = true := by decide

/-! ### Decode: words written out from the encodings (R91, R92, R94, R95; bits above the header: INDEX, then DATA) -/

theorem test_decode_genseq : decodeTableWord 32 0b0000_0000_0000_0000_0000_0000_0000_0001 = some .genseq := by decide
theorem test_decode_bipolar : decodeTableWord 32 0b0000_0000_0000_0000_0000_0000_0000_0010 = some .bipolar := by decide
theorem test_decode_gentags : decodeTableWord 32 0b0000_0000_0000_0000_0000_0000_0000_0011 = some .gentags := by decide
theorem test_decode_gentagl : decodeTableWord 32 0b0000_0000_0000_0000_0000_0000_0000_0100 = some .gentagl := by decide
theorem test_decode_fht : decodeTableWord 32 0b0000_0000_0000_0000_0000_0000_0000_0101 = some .fht := by decide
theorem test_decode_estimate : decodeTableWord 32 0b0000_0000_0000_0000_0000_0000_0000_0110 = some .estimate := by decide
/-- OPCODE 0, OPCODE 7, and GENSEQ's OPCODE with an MBZ bit set (R93). -/
theorem test_decode_illegal :
    decodeTableWord 32 0 = none ∧ decodeTableWord 32 7 = none ∧ decodeTableWord 32 0x80000001 = none ∧
      decodeTableWord 32 0x11 = none := by
  decide
theorem test_decode_rdReg : decodeTableWord 100 (0b000_0 + 3 * 2 ^ 4) = some (.rdReg 3) := by decide
theorem test_decode_wrReg :
    decodeTableWord 100 (0b000_1 + 3 * 2 ^ 4 + 0x123456789ABCDEF0 * 2 ^ 36) = some (.wrReg 3 0x123456789ABCDEF0) := by
  decide
theorem test_decode_rdMls : decodeTableWord 100 (0b001_0 + 4 * 2 ^ 4) = some (.rdMls 4) := by decide
theorem test_decode_wrMls :
    decodeTableWord 100 (0b001_1 + 4 * 2 ^ 4 + 0x123456789ABCDEF0 * 2 ^ 36) = some (.wrMls 4 0x123456789ABCDEF0) := by
  decide
theorem test_decode_rdProbe : decodeTableWord 100 (0b010_0 + 5 * 2 ^ 4) = some (.rdProbe 5) := by decide
theorem test_decode_wrProbe :
    decodeTableWord 100 (0b010_1 + 5 * 2 ^ 4 + 0x123456789ABCDEF0 * 2 ^ 36) = some (.wrProbe 5 0x123456789ABCDEF0) := by
  decide
theorem test_decode_rdTags : decodeTableWord 100 (0b011_0 + 6 * 2 ^ 4) = some (.rdTags 6) := by decide
theorem test_decode_wrTags :
    decodeTableWord 100 (0b011_1 + 6 * 2 ^ 4 + 0x123456789ABCDEF0 * 2 ^ 36) = some (.wrTags 6 0x123456789ABCDEF0) := by
  decide
theorem test_decode_rdTagl : decodeTableWord 100 (0b100_0 + 7 * 2 ^ 4) = some (.rdTagl 7) := by decide
theorem test_decode_wrTagl :
    decodeTableWord 100 (0b100_1 + 7 * 2 ^ 4 + 0x123456789ABCDEF0 * 2 ^ 36) = some (.wrTagl 7 0x123456789ABCDEF0) := by
  decide
theorem test_decode_rdRec : decodeTableWord 100 (0b101_0 + 8 * 2 ^ 4) = some (.rdRec 8) := by decide
theorem test_decode_wrRec :
    decodeTableWord 100 (0b101_1 + 8 * 2 ^ 4 + 0x123456789ABCDEF0 * 2 ^ 36) = some (.wrRec 8 0x123456789ABCDEF0) := by
  decide
theorem test_decode_rdWork : decodeTableWord 100 (0b110_0 + 9 * 2 ^ 4) = some (.rdWork 9) := by decide
theorem test_decode_wrWork :
    decodeTableWord 100 (0b110_1 + 9 * 2 ^ 4 + 0x123456789ABCDEF0 * 2 ^ 36) = some (.wrWork 9 0x123456789ABCDEF0) := by
  decide
theorem test_decode_rdIr : decodeTableWord 100 (0b111_0 + 10 * 2 ^ 4) = some (.rdIr 10) := by decide
theorem test_decode_wrIr :
    decodeTableWord 100 (0b111_1 + 10 * 2 ^ 4 + 0x123456789ABCDEF0 * 2 ^ 36) = some (.wrIr 10 0x123456789ABCDEF0) := by
  decide

/-! ### One step of each command (95_test_vectors.md) -/

/-- The sequences, BIPOLAR values and tags of order 3 (SEQ-3, BIP-3, TAGS-3, TAGL-3). -/
def seq3 : Buf Bit := elems [1, 1, 1, 0, 0, 1, 0]
def tags3 : Buf Word32 := elems [5, 6, 7, 3, 1, 4, 2]
def probe3 : Buf Real64 := elems
  [0xBFF0000000000000, 0xBFF0000000000000, 0xBFF0000000000000, 0x3FF0000000000000, 0x3FF0000000000000,
    0xBFF0000000000000, 0x3FF0000000000000]
def tagl3 : Buf Word32 := elems [4, 2, 1, 5, 7, 6, 3]

/-- SEQ-4. -/
theorem test_genseq :
    seen (step (running 1 4)) (fun s => (s.mem.mls, s.seqn, s.status.word)) =
      some (elems [1, 1, 1, 1, 0, 0, 0, 1, 0, 0, 1, 1, 0, 1, 0], 4, 0x00004002) := by
  decide +kernel

/-- SEQ-ERR-0x13. -/
theorem test_genseq_order19 :
    seen (step (running 1 0x13)) (fun s => (report s, s.seqn, s.mem)) = some ((0x00014116, 0x13, 18), 0, noMem) := by
  decide +kernel

/-- BIP-3. -/
theorem test_bipolar :
    seen (step { running 2 3 with seqn := 3, mem := { noMem with mls := seq3 } }) (fun s => (s.mem.probe, s.status.word)) =
      some (probe3, 0x00004002) := by
  decide +kernel

/-- BIP-ERR-2. -/
theorem test_bipolar_stale :
    seen (step { running 2 4 with seqn := 3, mem := { noMem with mls := seq3 } }) (fun s => (report s, s.mem.probe)) =
      some ((0x00014246, 3, 4), []) := by
  decide +kernel

/-- TAGS-3. -/
theorem test_gentags :
    seen (step { running 3 3 with seqn := 3, mem := { noMem with mls := seq3 } }) (fun s => (s.mem.tags, s.status.word)) =
      some (tags3, 0x00004002) := by
  decide +kernel

/-- TAG-NONMAX: what a constant sequence gives. -/
theorem test_gentags_integrity :
    seen (step { running 3 4 with seqn := 4, mem := { noMem with mls := elems (List.replicate 15 1) } })
        (fun s => (report s, s.mem.tags)) =
      some ((0x00054326, 1, 0), elems (List.replicate 15 15)) := by
  decide +kernel

/-- TAGL-3. -/
theorem test_gentagl :
    seen (step { running 4 3 with seqn := 3, mem := { noMem with mls := seq3 } }) (fun s => (s.mem.tagl, s.status.word)) =
      some (tagl3, 0x00004002) := by
  decide +kernel

/-- TAG-NONMAX. -/
theorem test_gentagl_integrity :
    seen (step { running 4 4 with seqn := 4, mem := { noMem with mls := elems (List.replicate 15 1) } })
        (fun s => (report s, s.mem.tagl)) =
      some ((0x00054426, 0, 2), []) := by
  decide +kernel

/-- FHT-6: the order of the stages shows in the rounding. -/
theorem test_fht :
    seen (step { running 5 2 with
        curWorklen := 4
        mem := { noMem with work :=
          (elems [0x4340000000000000, 0x3FF0000000000000, 0x3FF0000000000000, 0x0000000000000000]) } })
        (fun s => (s.mem.work, s.status.word)) =
      some (elems [0x4340000000000000, 0x433FFFFFFFFFFFFF, 0x4340000000000000, 0x433FFFFFFFFFFFFE], 0x00004002) := by
  decide +kernel

/-- FHT-10. -/
theorem test_fht_unwritten :
    faultOf (step { running 5 2 with curWorklen := 4, mem := { noMem with work := elems [0x3FF0000000000000] } }) =
      some (.unwrittenRead .work 2) := by
  decide +kernel

/-- PIPE-1, engine step 1: TAGS = [2, 3, 1], REC = [1, 2, 3]. -/
theorem test_estimate_permute :
    seen (step { estimating 2 .permute with
        mem := { noMem with tags := elems [2, 3, 1], tagl := elems [2, 1, 3], recd :=
          (elems [0x3FF0000000000000, 0x4000000000000000, 0x4008000000000000]) } })
        (fun s => (s.mem.work, s.status.word)) =
      some (elems [0xC018000000000000, 0x4008000000000000, 0x3FF0000000000000, 0x4000000000000000], 0x00002001) := by
  decide +kernel

/-- PIPE-1, engine step 3, from WORK after step 2; IR[P] is +0.0. -/
theorem test_estimate_scale :
    seen (step { estimating 2 .permuteScale with mem := { noMem with tagl := elems [2, 1, 3], work :=
          (elems [0x0000000000000000, 0xC024000000000000, 0xC018000000000000, 0xC020000000000000]) } })
        (fun s => (s.mem.ir, s.status.word)) =
      some (elems [0xBFF8000000000000, 0xC004000000000000, 0xC000000000000000, 0x0000000000000000], 0x00004002) := by
  decide +kernel

/-- PIPE-ERR-TAGL. -/
theorem test_estimate_integrity :
    seen (step { estimating 3 .permute with
        mem := { noMem with tags := tags3, tagl := elems [4, 4, 1, 5, 7, 6, 3], recd := probe3 } }) report =
      some (0x00014626, 1, 1) := by
  decide +kernel

/-- PIPE-STALE-2: FirstBad reads TAGS[7]. -/
theorem test_estimate_stale_tags :
    faultOf (step { estimating 4 .permute with mem := { noMem with tags := tags3, tagl := tagl3 } }) =
      some (.unwrittenRead .tags 7) := by
  decide +kernel

/-- FirstBad reads all of TAGS before it answers (R132): TAGS[0] offends, and the unwritten TAGS[2] is the fault. -/
theorem test_firstBad_reads_all :
    faultOf (step { estimating 2 .permute with mem := { noMem with tags := elems [0, 1] } }) = some (.unwrittenRead .tags 2) := by
  decide +kernel

/-- HOST-ILL-0x16. -/
theorem test_illegal_word : seen (step (running 0x16 0)) report = some (0x00014656, 0x16, 0) := by decide +kernel

/-! ### Host transactions -/

/-- HOST-1. -/
theorem test_rdReg_param : seen (exec (.rdReg 9) .reset) got = some (some 0x12) := by decide +kernel

/-- HOST-1: out of range, not modulo 256. -/
theorem test_rdReg_range : seen (exec (.rdReg 265) .reset) got = some (some 0) := by decide +kernel

/-- HOST-3. -/
theorem test_wrReg_ctrl : seen (exec (.wrReg 2 3) .reset) (regRead 2) = some 1 := by decide +kernel

/-- HOST-9: the dropped CMD write. -/
theorem test_wrReg_overrun :
    seen (exec (.wrReg 0 2) (running 1 4)) (fun s => (s.status.word, s.curCmd)) = some (0x00005009, 1) := by
  decide +kernel

/-- An idle state of order 3 with everything generated and element 0 of WORK and IR written. -/
def ready3 : State :=
  { State.reset with mem :=
      { mls := seq3, probe := probe3, tags := tags3, tagl := tagl3, recd := probe3, work := elems [0x4014000000000000],
        ir := elems [0x4014000000000000] } }

/-- HOST-4. -/
theorem test_rdMls : seen (exec (.rdMls 3) ready3) got = some (some 0) := by decide +kernel

/-- HOST-7. -/
theorem test_rdMls_unwritten : faultOf (exec (.rdMls 0) .reset) = some (.unwrittenRead .mls 0) := by decide +kernel

/-- HOST-4. -/
theorem test_wrMls : seen (exec (.wrMls 0 0) ready3) id = some ready3 := by decide +kernel

/-- HOST-4. -/
theorem test_rdProbe : seen (exec (.rdProbe 3) ready3) got = some (some 0x3FF0000000000000) := by decide +kernel

/-- HOST-4. -/
theorem test_wrProbe : seen (exec (.wrProbe 0 0x4000000000000000) ready3) id = some ready3 := by decide +kernel

/-- HOST-4. -/
theorem test_rdTags : seen (exec (.rdTags 0) ready3) got = some (some 5) := by decide +kernel

/-- HOST-6. -/
theorem test_wrTags :
    seen (exec (.wrTags 3 0x100000005) ready3) (fun s => (s.mem.tags, s.mem.tagl)) =
      some (elems [5, 6, 7, 5, 1, 4, 2], tagl3) := by
  decide +kernel

/-- HOST-4. -/
theorem test_rdTagl : seen (exec (.rdTagl 0) ready3) got = some (some 4) := by decide +kernel

/-- PIPE-ERR-TAGL's write. -/
theorem test_wrTagl :
    seen (exec (.wrTagl 1 4) ready3) (fun s => (s.mem.tagl, s.mem.tags)) = some (elems [4, 4, 1, 5, 7, 6, 3], tags3) := by
  decide +kernel

/-- A real crosses as its encoding (R195). -/
theorem test_rdRec : seen (exec (.rdRec 0) ready3) got = some (some 0xBFF0000000000000) := by decide +kernel

/-- HOST-5. -/
theorem test_wrRec_range : seen (exec (.wrRec 262143 0x3FF0000000000000) ready3) id = some ready3 := by decide +kernel

/-- HOST-5: the capacity of WORK is one more. -/
theorem test_rdWork_range :
    seen (exec (.rdWork 262144) ready3) got = some (some 0) ∧
      faultOf (exec (.rdWork 262143) ready3) = some (.unwrittenRead .work 262143) := by
  decide +kernel

/-- P2's WORK[2] written on its own, then WORK[1]: the form stays sorted. -/
theorem test_wrWork :
    seen (exec (.wrWork 2 0x4000000000000000) ready3) (fun s => s.mem.work) =
      some [(0, 0x4014000000000000), (2, 0x4000000000000000)] := by
  decide +kernel

/-- R199. -/
theorem test_rdIr : seen (exec (.rdIr 0) ready3) got = some (some 0x4014000000000000) := by decide +kernel

/-- HOST-4: IR stays unwritten. -/
theorem test_wrIr : seen (exec (.wrIr 0 0x4014000000000000) .reset) id = some .reset := by decide +kernel

/-- HOST-8: refused even out of range. -/
theorem test_busy_refused :
    refusalOf (exec (.rdMls 262143) (running 1 4)) = some .bufferAccessWhileBusy ∧
      refusalOf (exec (.wrRec 0 0x3FF0000000000000) (running 1 4)) = some .bufferAccessWhileBusy := by
  decide +kernel

/-! ### Placing, the assembler and literals -/

/-- The step after reset runs a placed command word (ORDER is 0 there, so CONFIG) and a placed transaction. -/
theorem test_withFetchWord :
    seen (step (State.reset.withFetchWord 32 1)) report = some (0x00014116, 0, 18) ∧
      seen (step (State.reset.withFetchWord 8 (0 + 9 * 2 ^ 4))) got = some (some 0x12) := by
  decide +kernel

/-- P1, lines 1, 2 and 15: header, INDEX and DATA. -/
theorem test_assemble :
    assemble [.setOrder 2, .instr .genseq, .load .recd 0 [0x3FF0000000000000]] =
      [.txn ⟨0x1, 3, 2⟩, .txn ⟨0x1, 0, 1⟩, .txn ⟨0xB, 0, 0x3FF0000000000000⟩] := by
  decide +kernel

/-- FHT-11's 0.1 and PIPE-FIR's hex-float of it, 0x1.999999999999ap-4. -/
theorem test_realLiteral : realLiteral false 1 10 = 0x3FB999999999999A := by decide +kernel

/-- FHT-8: 1e308 + 1e308 overflows, and FHT-7's signed zeros. -/
theorem test_fadd_corners :
    fadd 0 (realLiteral false (10 ^ 308) 1) (realLiteral false (10 ^ 308) 1) = 0x7FF0000000000000 ∧
      fadd 0 0x8000000000000000 0x8000000000000000 = 0x8000000000000000 ∧
      fsub 0 0x8000000000000000 0x8000000000000000 = 0 := by
  decide +kernel

/-! ### Witnesses: for each obligation with hypotheses, states and operands that meet them -/

/-- `n` equal elements. -/
@[irreducible] def constBuf {α : Type} (n : Nat) (a : α) : Buf α := elems (List.replicate n a)

theorem holds_constBuf {α : Type} (n : Nat) (a : α) : Holds (constBuf n a) n fun _ => a := by
  intro i hi
  simp [constBuf, elems, read_indexedFrom, hi]

/-- The tags 1, 2, …, p. -/
@[irreducible] def risingTags (p : Nat) : Buf Word32 := elems ((List.range p).map fun i => BitVec.ofNat 32 (i + 1))

def rising (i : Nat) : Word32 := BitVec.ofNat 32 (i + 1)

theorem holds_risingTags (p : Nat) : Holds (risingTags p) p rising := by
  intro i hi
  simp [risingTags, elems, read_indexedFrom, rising, hi]

theorem bijective_rising {p : Nat} (hp : p ≤ 262143) : Bijective (fun i => (rising i).toNat) p := by
  have h : ∀ i, i < p → (rising i).toNat = i + 1 := fun i hi => by simp [rising]; omega
  refine ⟨fun i hi => ?_, fun i j hi hj e => ?_⟩
  · simp only [h i hi]; omega
  · simp only [h i hi, h j hj] at e; omega

theorem bijective_of {v : Nat → Nat} {p : Nat}
    (h : (∀ i, i < p → 1 ≤ v i ∧ v i ≤ p) ∧ ∀ i, i < p → ∀ j, j < p → v i = v j → i = j) : Bijective v p :=
  ⟨h.1, fun i j hi hj => h.2 i hi j hj⟩

theorem leastOffender_zero {v : Nat → Nat} {p : Nat} (hp : 0 < p) (hv : v 0 = 0) : LeastOffender v p 0 :=
  ⟨⟨hp, by simp [hv]⟩, fun k hk => by omega⟩

/-- STATUS while a command other than ESTIMATE runs. -/
def busyStatus : Status := Status.accepted 1

def idleState : State := State.reset
def busyState : State := { State.reset with status := busyStatus, curCmd := 1, curN := 4 }

theorem witness_SixCommandWordsAreLegal :
    (¬ (1 ≤ (0x00000000 : Word32).toNat ∧ (0x00000000 : Word32).toNat ≤ 6)) ∧
      (¬ (1 ≤ (0x00000007 : Word32).toNat ∧ (0x00000007 : Word32).toNat ≤ 6)) ∧
      (1 ≤ (0x00000006 : Word32).toNat ∧ (0x00000006 : Word32).toNat ≤ 6) := by
  decide +kernel

theorem witness_DecodeOfEncodeIsIdentity :
    (Instr.wrIr (2 ^ 32 - 1) 0xFFFFFFFFFFFFFFFF).wellFormed = true ∧ Instr.estimate.wellFormed = true := by
  decide +kernel

theorem witness_EncodeOfDecodeIsIdentity :
    decodeCommand 0x00000006 = .ok .estimate ∧
      ((⟨0xE, 0xFFFFFFFF, 0⟩ : Txn).isWrite = false → (⟨0xE, 0xFFFFFFFF, 0⟩ : Txn).data = 0) ∧
      ((⟨0xF, 0, 1⟩ : Txn).isWrite = false → (⟨0xF, 0, 1⟩ : Txn).data = 0) := by
  exact ⟨by rfl, by decide, by decide⟩

/-- RD.REG PARAM as a transaction. -/
def readParam : Txn := ⟨0x0, 9, 0⟩

def hostNext (turns : List Turn) : State :=
  { State.reset with env := { Env.reset with program := [.txn readParam], turns := turns } }

/-- The three ways the host's transaction comes next. -/
theorem witness_HostStepRunsTheTransaction :
    decode (.transaction readParam) = .ok (.rdReg 9) ∧ (hostNext [.host]).env.program = .txn readParam :: [] ∧
      (hostNext [.host]).env.turns = .host :: [] ∧
      ((hostNext [.engine]).status.busy = false ∧ (hostNext [.engine]).env.turns = .engine :: []) ∧
      ((hostNext []).status.busy = false ∧ (hostNext []).env.turns = []) :=
  ⟨rfl, rfl, rfl, ⟨rfl, rfl⟩, rfl, rfl⟩

def engineNext (turns : List Turn) : State := { busyState with env := { Env.reset with turns := turns } }

/-- The three ways the engine's command comes next. -/
theorem witness_EngineStepRunsTheCommand :
    (engineNext [.engine]).status.busy = true ∧ decode (.command (engineNext [.engine]).curCmd) = .ok .genseq ∧
      (engineNext [.engine]).env.turns = .engine :: [] ∧ (engineNext []).env.turns = [] ∧
      ((engineNext [.host]).env.turns = .host :: [] ∧ (engineNext [.host]).env.program = []) :=
  ⟨rfl, rfl, rfl, rfl, rfl, rfl⟩

/-- An illegal word below the six, above them, and with MBZ ≠ 0. -/
theorem witness_IllegalWordReportsIllegalCmd :
    ∀ w ∈ [0x00000000, 0x00000007, 0x80000001],
      let s := { engineNext [.engine] with curCmd := BitVec.ofNat 32 w }
      s.status.busy = true ∧ ¬ (1 ≤ s.curCmd.toNat ∧ s.curCmd.toNat ≤ 6) ∧ s.env.turns = .engine :: [] := by
  decide +kernel

def waiting (st : Status) : State :=
  { State.reset with status := st, env := { Env.reset with program := [.wait], turns := [.host] } }

/-- With BUSY = 1 and with BUSY = 0. -/
theorem witness_WaitPollsStatus :
    (waiting busyStatus).env.program = .wait :: [] ∧ (waiting busyStatus).env.turns = .host :: [] ∧
      (waiting busyStatus).status.busy = true ∧ (waiting .reset).env.program = .wait :: [] ∧
      (waiting .reset).status.busy = false :=
  ⟨rfl, rfl, rfl, rfl, rfl⟩

/-- The platform's reset in a busy state, and the program's. -/
theorem witness_ResetGivesEveryPartItsResetValue :
    (engineNext [.reset]).env.turns = .reset :: [] ∧
      (let s := { busyState with env := { Env.reset with program := [.reset], turns := [.host] } }
      s.env.turns = .host :: [] ∧ s.env.program = .reset :: []) :=
  ⟨rfl, rfl, rfl⟩

theorem witness_IdleEngineDoesNothing :
    ∀ turns ∈ [[Turn.engine], [Turn.host], []],
      let s := { State.reset with env := { Env.reset with turns := turns } }
      s.status.busy = false ∧ s.env.program = [] ∧
        (s.env.turns = .engine :: turns.tail ∨ s.env.turns = .host :: turns.tail ∨
          s.env.turns = [] ∧ turns.tail = []) := by
  decide +kernel

/-- A transaction and a command word. -/
theorem witness_PlacedWordRunsNext :
    decodeTableWord 8 0x0 = some (.rdReg 0) ∧ 8 ≠ 32 ∧ decodeTableWord 32 0x6 = some .estimate := by
  decide +kernel

/-- The boundary of the last clause. -/
theorem witness_RegisterReadReturnsTheRegister : 10 ≤ 10 ∧ 10 ≤ 255 ∧ 10 ≤ 2 ^ 32 - 1 := by decide

/-- The boundaries of the last clause. -/
theorem witness_RegisterWriteStoresOrIsIgnored : ∀ idx ∈ [1, 6, 255, 256], idx = 1 ∨ 6 ≤ idx := by decide

theorem witness_AcceptStartsTheCommand : idleState.status.busy = false := rfl

theorem witness_CommandWhileBusyIsDropped : busyState.status.busy = true := rfl

theorem witness_BufferAccessWhileBusyIsRefused : busyState.status.busy = true := rfl

/-- At the first index out of range of each clause. -/
theorem witness_OutOfRangeHasNoEffect : 256 ≤ 256 ∧ 262143 ≤ 262143 ∧ 262144 ≤ 262144 ∧ ¬ 262144 ≤ 262143 := by decide

/-- Every buffer written at its last index only. -/
def lastWritten : State :=
  { State.reset with mem :=
      { mls := [(262142, 1)], probe := [(262142, plusOne)], tags := [(262142, 5)], tagl := [(262142, 6)],
        recd := [(262142, minusOne)], work := [(262143, plusOne)], ir := [(262143, minusOne)] } }

/-- At the last index in range of each clause, written and unwritten. -/
theorem witness_BufferReadReturnsTheElement :
    (lastWritten.status.busy = false ∧ 262142 < 262143 ∧ 262143 < 262144) ∧
      (Buf.read lastWritten.mem.mls 262142 = some 1 ∧ Buf.read lastWritten.mem.work 262143 = some plusOne) ∧
      (Buf.read lastWritten.mem.mls 0 = none ∧ Buf.read idleState.mem.work 262143 = none) := by
  decide

theorem witness_ReadOnlyBufferWriteIsIgnored :
    idleState.status.busy = false ∧ Instr.wrMls 0 0 ∈ [Instr.wrMls 0 0, .wrProbe 0 0, .wrIr 0 0] := by
  decide +kernel

/-- In range at both ends, beside another written element. -/
theorem witness_BufferWriteStoresOneElement :
    lastWritten.status.busy = false ∧ 0 < 262143 ∧ 262142 < 262143 ∧ 262143 < 262144 ∧ (262142 : Nat) ≠ 0 := by
  decide +kernel

/-- The orders just outside the range, and the state of ESTIMATE's first step. -/
theorem witness_UnsupportedOrderReportsConfig :
    ∀ n ∈ ([0, 19, 0xFFFFFFFF] : List Nat),
      let s := running 6 (BitVec.ofNat 32 n)
      ¬ (1 ≤ s.curN.toNat ∧ s.curN.toNat ≤ 18) ∧ Instr.estimate.isCommand = true ∧ s.status.state = .permute := by
  decide +kernel

/-- BIP-ERR-1 and BIP-ERR-2's states, and the largest order. -/
theorem witness_StaleSequenceReportsNotReady :
    ∀ p ∈ [(3, 0), (4, 3), (1, 2), (18, 17)],
      let s := { running 2 (BitVec.ofNat 32 p.1) with seqn := BitVec.ofNat 32 p.2 }
      1 ≤ s.curN.toNat ∧ s.curN.toNat ≤ 18 ∧ s.seqn ≠ s.curN := by
  decide +kernel

theorem witness_WrongLengthReportsShape :
    ∀ n ∈ [1, 18],
      let s := { running 5 (BitVec.ofNat 32 n) with curWorklen := 3 }
      let e := { estimating (BitVec.ofNat 32 n) .permute with curReclen := 6 }
      (1 ≤ s.curN.toNat ∧ s.curN.toNat ≤ 18 ∧ s.curWorklen.toNat ≠ 2 ^ s.curN.toNat) ∧
        (1 ≤ e.curN.toNat ∧ e.curN.toNat ≤ 18 ∧ e.status.state = .permute ∧
          e.curReclen.toNat ≠ 2 ^ e.curN.toNat - 1) := by
  decide +kernel

/-- Order 18: TAGS all 0, and TAGS rising with TAGL all 0. -/
def badTags18 (tags tagl : Buf Word32) : State :=
  { estimating 18 .permute with mem := { noMem with tags := tags, tagl := tagl } }

theorem witness_BadTagsReportIntegrity :
    let p := 2 ^ 18 - 1
    let zeros := constBuf p (0 : Word32)
    ((badTags18 zeros []).curN.toNat = 18 ∧ (badTags18 zeros []).status.state = .permute ∧
      (badTags18 zeros []).curReclen.toNat = p) ∧
      (Holds (badTags18 zeros []).mem.tags p (fun _ => 0) ∧ LeastOffender (fun _ => (0 : Word32).toNat) p 0) ∧
      (Holds (badTags18 (risingTags p) zeros).mem.tags p rising ∧ Bijective (fun i => (rising i).toNat) p ∧
        Holds (badTags18 (risingTags p) zeros).mem.tagl p (fun _ => 0)) :=
  ⟨⟨by decide, by decide, by decide⟩, ⟨holds_constBuf _ _, leastOffender_zero (by decide) rfl⟩,
    holds_risingTags _, bijective_rising (by decide), holds_constBuf _ _⟩

/-- A written array with an offender, one without, and one whose last element is unwritten. -/
theorem witness_FirstBadFindsTheLeastOffender :
    (Holds (constBuf 3 (0 : Word32)) 3 (fun _ => 0) ∧ LeastOffender (fun _ => (0 : Word32).toNat) 3 0) ∧
      (Holds (risingTags 3) 3 rising ∧ Bijective (fun i => (rising i).toNat) 3) ∧
      (2 < 3 ∧ Written (elems [0, 1] : Buf Word32) 2 ∧ Buf.read (elems [0, 1] : Buf Word32) 2 = none) := by
  refine ⟨⟨holds_constBuf _ _, leastOffender_zero (by decide) rfl⟩, ⟨holds_risingTags _, bijective_rising (by decide)⟩,
    by decide, ?_, by decide⟩
  unfold Written
  decide

theorem witness_GenseqWritesTheSequence :
    (1 ≤ (running 1 1).curN.toNat ∧ taps (running 1 1).curN.toNat = some 0x1) ∧
      ((running 1 18).curN.toNat ≤ 18 ∧ taps (running 1 18).curN.toNat = some 0x20400) := by
  decide +kernel

/-- Order 1 and order 18, after GENSEQ's SEQN, with any sequence. -/
def sequenced (cmd n : Word32) (b : Bit) : State :=
  { running cmd n with seqn := n, mem := { noMem with mls := constBuf (2 ^ n.toNat - 1) b } }

theorem witness_RomMasksAreMaximal : (1 ≤ 1 ∧ 1 ≤ 18) ∧ 1 ≤ 18 ∧ 18 ≤ 18 := by decide

/-- Order 1 and order 18, with a constant sequence. -/
theorem witness_BipolarMapsTheSequence :
    ∀ n ∈ [1#32, 18#32],
      1 ≤ (sequenced 2 n 1).curN.toNat ∧ (sequenced 2 n 1).curN.toNat ≤ 18 ∧
        (sequenced 2 n 1).seqn = (sequenced 2 n 1).curN ∧
        Holds (sequenced 2 n 1).mem.mls (2 ^ (sequenced 2 n 1).curN.toNat - 1) fun _ => 1 := by
  intro n hn
  simp only [List.mem_cons, List.not_mem_nil, or_false] at hn
  rcases hn with rfl | rfl
  · exact ⟨by decide +kernel, by decide +kernel, by decide +kernel, holds_constBuf _ _⟩
  · exact ⟨by decide +kernel, by decide +kernel, by decide +kernel, holds_constBuf _ _⟩

/-- The samples of SEQ-3. -/
def seq3At (i : Nat) : Bit := ([1, 1, 1, 0, 0, 1, 0] : List Bit).getD i 0

theorem holds_seq3 : Holds seq3 7 seq3At := by unfold Holds; decide

def tagging3 (cmd : Word32) : State := { running cmd 3 with seqn := 3, mem := { noMem with mls := seq3 } }

/-- Both clauses: the order-3 sequence, and a constant 0 sequence of order 18. -/
theorem witness_GentagsWritesTheWindows :
    ((tagging3 3).curN.toNat = 3 ∧ (tagging3 3).seqn = (tagging3 3).curN ∧ Holds (tagging3 3).mem.mls 7 seq3At ∧
      Bijective (windowSum seq3At 3) 7) ∧
      ((sequenced 3 18 0).curN.toNat = 18 ∧ (sequenced 3 18 0).seqn = (sequenced 3 18 0).curN ∧
        Holds (sequenced 3 18 0).mem.mls (2 ^ 18 - 1) (fun _ => 0) ∧
        LeastOffender (windowSum (fun _ => 0) 18) (2 ^ 18 - 1) 0) :=
  ⟨⟨by decide, by decide, holds_seq3, bijective_of (by decide +kernel)⟩,
    by decide, by decide, holds_constBuf _ _, leastOffender_zero (by decide) (by decide)⟩

/-- TAGL-3's unit positions. -/
def index3 (j : Nat) : Nat := [4, 6, 5].getD j 0

/-- A sequence of order 2 whose unit positions exist and whose inverse tags do not form a bijection. -/
def seqBad (i : Nat) : Bit := ([1, 0, 0] : List Bit).getD i 0
def indexBad (j : Nat) : Nat := [1, 0].getD j 0

theorem witness_GentaglWritesTheInverseTags :
    ((tagging3 4).curN.toNat = 3 ∧ (tagging3 4).seqn = (tagging3 4).curN ∧ Holds (tagging3 4).mem.mls 7 seq3At ∧
      (∀ j, j < 3 → UnitPosition seq3At 3 j (index3 j)) ∧ Bijective (inverseSum seq3At index3 3) 7) ∧
      (let s := { running 4 2 with seqn := 2, mem := { noMem with mls := elems [1, 0, 0] } }
      s.curN.toNat = 2 ∧ s.seqn = s.curN ∧ Holds s.mem.mls 3 seqBad ∧
        (∀ j, j < 2 → UnitPosition seqBad 2 j (indexBad j)) ∧ LeastOffender (inverseSum seqBad indexBad 2) 3 2) :=
  ⟨⟨by decide, by decide, holds_seq3, by unfold UnitPosition; decide +kernel, bijective_of (by decide +kernel)⟩,
    rfl, rfl, by unfold Holds; decide, by unfold UnitPosition; decide +kernel,
    by unfold LeastOffender Offends; decide +kernel⟩

/-- A sequence of order 3 in which bit 0 has one position and bit 1 has two. -/
def seqTwice (i : Nat) : Bit := ([1, 0, 0, 0, 0, 1, 0] : List Bit).getD i 0

theorem windowSum_zero (n i : Nat) : windowSum (fun _ => 0#1) n i = 0 := by
  unfold windowSum
  generalize List.range n = l
  induction l <;> simp

/-- No position for bit 0 (a constant 0 sequence of order 18), and two positions for bit 1 after bit 0 is found. -/
theorem witness_GentaglUnitSearchFails :
    ((sequenced 4 18 0).curN.toNat = 18 ∧ (sequenced 4 18 0).seqn = (sequenced 4 18 0).curN ∧
      Holds (sequenced 4 18 0).mem.mls (2 ^ 18 - 1) (fun _ => 0) ∧ (∀ q, ¬ UnitPosition (fun _ => 0) 18 0 q) ∧
      ∀ k, k < 0 → ∃ q, UnitPosition (fun _ => 0) 18 k q) ∧
      (let s := { running 4 3 with seqn := 3, mem := { noMem with mls := elems [1, 0, 0, 0, 0, 1, 0] } }
      s.curN.toNat = 3 ∧ s.seqn = s.curN ∧ Holds s.mem.mls 7 seqTwice ∧ (∀ q, ¬ UnitPosition seqTwice 3 1 q) ∧
        ∀ k, k < 1 → ∃ q, UnitPosition seqTwice 3 k q) := by
  refine ⟨⟨by decide, by decide, holds_constBuf _ _, fun q h => ?_, fun k hk => by omega⟩, rfl, rfl, by unfold Holds; decide,
    fun q h => ?_, fun k hk => ⟨2, ?_⟩⟩
  · have := h.2.1
    rw [show (fun _ => 0 : Nat → Bit) = fun _ => 0#1 from rfl, windowSum_zero] at this
    cases this
  · have all : ∀ q, q < 7 → ¬ UnitPosition seqTwice 3 1 q := by unfold UnitPosition; decide +kernel
    exact all q h.1 h
  · obtain rfl : k = 0 := by omega
    unfold UnitPosition
    decide +kernel

theorem witness_WindowIsIncremental : 1 ≤ 2 ∧ 1 ≤ 1 ∧ 1 < 2 ^ 2 - 1 ∧ 1 ≤ 18 ∧ 262142 < 2 ^ 18 - 1 := by decide

/-- The smallest mask and the ROM's mask of order 4. -/
theorem maximalMask_of {n m : Nat}
    (h : 1 ≤ n ∧ m < 2 ^ n ∧ lineAt n m (seqLen n) = allOnes n ∧
      ∀ t, t < seqLen n → 0 < t → lineAt n m t ≠ allOnes n) : MaximalMask n m :=
  ⟨h.1, h.2.1, h.2.2.1, fun t h0 ht => h.2.2.2 t ht h0⟩

theorem witness_MaximalMasksGiveBijectiveTags : MaximalMask 1 0x1 ∧ MaximalMask 4 0xC :=
  ⟨maximalMask_of (by decide +kernel), maximalMask_of (by decide +kernel)⟩

theorem holds_sample3 : Holds seq3 7 (sample 3 0x6) := by unfold Holds; decide +kernel

/-- GENTAGS of order 3, and with CUR_CMD = 4 GENTAGL, after GENSEQ. -/
theorem tagging3_inv (cmd : Word32) (h : cmd ≠ 6#32) : Inv (tagging3 cmd) where
  memory := rfl
  status := by simp [StatusInv, tagging3, running, Status.accepted, estimateWord, h]
  command := fun _ => by simp [tagging3, running, Status.accepted, estimateWord, h]
  seqn := .inr ⟨0x6, rfl, holds_sample3⟩
  probe := fun i v hv => by simp [tagging3, noMem, Memory.reset] at hv
  pipeline := fun he => by simp [tagging3, running, Status.accepted, estimateWord, h] at he

theorem witness_RomTagsNeverFailIntegrity :
    (Inv (tagging3 3) ∧ Inv (tagging3 4)) ∧ (tagging3 3).curN.toNat = 3 ∧ (tagging3 3).seqn = (tagging3 3).curN :=
  ⟨⟨tagging3_inv 3 (by decide), tagging3_inv 4 (by decide)⟩, rfl, rfl⟩

/-- FHT of order `n` on a constant buffer. -/
def transforming (n : Word32) : State :=
  { running 5 n with
    curWorklen := BitVec.ofNat 32 (2 ^ n.toNat)
    mem := { noMem with work := constBuf (2 ^ n.toNat) plusOne } }

theorem witness_FhtTransformsTheWorkingBuffer :
    ∀ n ∈ [1#32, 18#32],
      1 ≤ (transforming n).curN.toNat ∧ (transforming n).curN.toNat ≤ 18 ∧
        (transforming n).curWorklen.toNat = 2 ^ (transforming n).curN.toNat ∧
        Holds (transforming n).mem.work (2 ^ (transforming n).curN.toNat) fun _ => plusOne := by
  intro n hn
  simp only [List.mem_cons, List.not_mem_nil, or_false] at hn
  rcases hn with rfl | rfl
  · exact ⟨by decide +kernel, by decide +kernel, by decide +kernel, holds_constBuf _ _⟩
  · exact ⟨by decide +kernel, by decide +kernel, by decide +kernel, holds_constBuf _ _⟩

/-- FHT-10's state at its last element. -/
theorem witness_FhtOnUnwrittenWorkFaults :
    ∀ n ∈ [1, 18],
      let s := { running 5 (BitVec.ofNat 32 n) with curWorklen := BitVec.ofNat 32 (2 ^ n) }
      1 ≤ s.curN.toNat ∧ s.curN.toNat ≤ 18 ∧ s.curWorklen.toNat = 2 ^ s.curN.toNat ∧
        2 ^ s.curN.toNat - 1 < 2 ^ s.curN.toNat ∧ Buf.read s.mem.work (2 ^ s.curN.toNat - 1) = none := by
  decide +kernel

theorem witness_ExactTransformIsWalshHadamard : ([1, 2, 3, 4] : List Int).length = 2 ^ 2 ∧ 3 < 2 ^ 2 := by decide

theorem witness_ExactTransformTwiceScalesByLength : 
    ([5] : List Int).length = 2 ^ 0 ∧ ([1, 2] : List Int).length = 2 ^ 1 := by
  decide +kernel

/-- Order 18 with tags 1, 2, …, P in both arrays and a constant recording. -/
def permuting18 : State :=
  { estimating 18 .permute with mem :=
      { noMem with tags := risingTags (2 ^ 18 - 1), tagl := risingTags (2 ^ 18 - 1), recd := constBuf (2 ^ 18 - 1) plusOne } }

theorem witness_EstimateFirstStepPermutes :
    permuting18.curN.toNat = 18 ∧ permuting18.status.state = .permute ∧ permuting18.curReclen.toNat = 2 ^ 18 - 1 ∧
      Holds permuting18.mem.tags (2 ^ 18 - 1) rising ∧ Bijective (fun i => (rising i).toNat) (2 ^ 18 - 1) ∧
      Holds permuting18.mem.tagl (2 ^ 18 - 1) rising ∧ Holds permuting18.mem.recd (2 ^ 18 - 1) fun _ => plusOne :=
  ⟨by decide +kernel, by decide +kernel, by decide +kernel, holds_risingTags _, bijective_rising (by decide), holds_risingTags _, holds_constBuf _ _⟩

theorem constBuf_ends {α : Type} (n : Nat) (a : α) : Written (constBuf n a) n ∧ Buf.read (constBuf n a) n = none := by
  refine ⟨fun i hi => by rw [holds_constBuf n a i hi]; rfl, ?_⟩
  simp [constBuf, elems, read_indexedFrom]

theorem checked_risingTags {p : Nat} (hp : p ≤ 262143) : CheckedTags (risingTags p) p :=
  ⟨rising, holds_risingTags p, bijective_rising hp⟩

/-- Order 18 with the last element unwritten: of TAGS, of TAGL, of REC. -/
def lacking18 (tags tagl : Buf Word32) (recd : Buf Real64) : State :=
  { estimating 18 .permute with mem := { noMem with tags := tags, tagl := tagl, recd := recd } }

theorem witness_EstimateFirstStepFaultsOnUnwritten :
    let p := 2 ^ 18 - 1
    let k := 2 ^ 18 - 2
    let short := constBuf k (5 : Word32)
    ((lacking18 short [] []).curN.toNat = 18 ∧ (lacking18 short [] []).status.state = .permute ∧
      (lacking18 short [] []).curReclen.toNat = p ∧ k < p) ∧
      (Written (lacking18 short [] []).mem.tags k ∧ Buf.read (lacking18 short [] []).mem.tags k = none) ∧
      (CheckedTags (lacking18 (risingTags p) short []).mem.tags p ∧
        Written (lacking18 (risingTags p) short []).mem.tagl k ∧
        Buf.read (lacking18 (risingTags p) short []).mem.tagl k = none) ∧
      (let s := lacking18 (risingTags p) (risingTags p) (constBuf k plusOne)
      CheckedTags s.mem.tags p ∧ CheckedTags s.mem.tagl p ∧ Written s.mem.recd k ∧ Buf.read s.mem.recd k = none) :=
  ⟨⟨by decide +kernel, by decide +kernel, by decide +kernel, by decide⟩, constBuf_ends _ _,
    ⟨checked_risingTags (by decide), constBuf_ends _ _⟩,
    checked_risingTags (by decide), checked_risingTags (by decide), constBuf_ends _ _⟩

def middle18 : State := { estimating 18 .transform with mem := { noMem with work := constBuf (2 ^ 18) plusOne } }

theorem witness_EstimateSecondStepTransforms :
    middle18.curN.toNat = 18 ∧ middle18.status.state = .transform ∧ middle18.cancel = false ∧
      Holds middle18.mem.work (2 ^ 18) fun _ => plusOne :=
  ⟨by decide +kernel, by decide +kernel, by decide +kernel, holds_constBuf _ _⟩

def scaling18 : State :=
  { estimating 18 .permuteScale with
    mem := { noMem with tagl := risingTags (2 ^ 18 - 1), work := constBuf (2 ^ 18) plusOne } }

theorem witness_EstimateThirdStepScales :
    scaling18.curN.toNat = 18 ∧ scaling18.status.state = .permuteScale ∧ scaling18.cancel = false ∧
      Holds scaling18.mem.tagl (2 ^ 18 - 1) rising ∧
      ∀ i, i < 2 ^ 18 - 1 → Buf.read scaling18.mem.work (rising i).toNat = some plusOne := by
  refine ⟨by decide +kernel, by decide +kernel, by decide +kernel, holds_risingTags _, fun i hi => ?_⟩
  have h := (bijective_rising (p := 2 ^ 18 - 1) (by decide)).1 i hi
  simp only at h
  exact holds_constBuf (2 ^ 18) plusOne _ (by omega)

theorem witness_CancelIsTakenBetweenStages :
    ∀ e ∈ [EngineState.transform, .permuteScale],
      let s := { estimating 2 e with cancel := true }
      s.cancel = true ∧ s.status.state = e := by
  decide +kernel

/-- The order-3 sequence from the ROM's mask, its tags and its inverse tags, and any recording. -/
theorem witness_ExactPipelineComputesTheCorrelation :
    MaximalMask 3 0x6 ∧ (∀ j, j < 3 → UnitPosition (sample 3 0x6) 3 j (index3 j)) ∧
      Holds tags3 7 (fun i => BitVec.ofNat 32 (windowSum (sample 3 0x6) 3 i)) ∧
      Holds tagl3 7 (fun i => BitVec.ofNat 32 (inverseSum (sample 3 0x6) index3 3 i)) ∧
      Holds (constBuf 7 (5 : Rat)) 7 fun _ => 5 :=
  ⟨maximalMask_of (by decide +kernel), by unfold UnitPosition; decide +kernel, by unfold Holds; decide +kernel,
    by unfold Holds; decide +kernel, holds_constBuf _ _⟩

/-- Finite operands: the last sum below the overflow threshold and the first at it, both of the largest value and a value
near 2^970, a product beyond it, and one that underflows. -/
theorem witness_ArithmeticRoundsToNearestEven :
    let limit := (2 ^ 1024 - 2 ^ 970) * 2 ^ 1074
    let largest : Real64 := 0x7FEFFFFFFFFFFFFF
    let below : Real64 := 0x7C8FFFFFFFFFFFFF
    let half : Real64 := 0x7C90000000000000
    let least : Real64 := 0x0000000000000001
    (IsFinite largest ∧ IsFinite below ∧ IsFinite half ∧ IsFinite least) ∧
      (Binary64.value largest + Binary64.value below).natAbs < limit ∧
      limit ≤ (Binary64.value largest + Binary64.value half).natAbs ∧
      limit * 2 ^ 1074 ≤ (Binary64.value largest * Binary64.value largest).natAbs ∧
      Binary64.value least * Binary64.value least ≠ 0 := by
  unfold IsFinite
  decide +kernel

/-- A NaN, the largest finite value, and a zero result of each operation. -/
theorem witness_SpecialValuesFollowIeee :
    (Binary64.isNaN 0x7FF8000000000001#64 = true ∧ IsFinite 0x7FEFFFFFFFFFFFFF#64) ∧
      (IsFinite 0x3FF0000000000000#64 ∧ IsFinite 0xBFF0000000000000#64 ∧ IsFinite 0x8000000000000000#64) ∧
      Binary64.value 0x3FF0000000000000#64 + Binary64.value 0xBFF0000000000000#64 = 0 ∧
      Binary64.value 0x3FF0000000000000#64 - Binary64.value 0x3FF0000000000000#64 = 0 ∧
      Binary64.value 0x8000000000000000#64 * Binary64.value 0x3FF0000000000000#64 = 0 := by
  unfold IsFinite
  decide +kernel

/-- An ESTIMATE of order 1 before its second step, with what its first step left (PIPE-2). -/
def middle1 : State :=
  { estimating 1 .transform with
    mem := { noMem with
      tags := elems [1], tagl := elems [1], recd := elems [0x4014000000000000]
      work := elems [0xC014000000000000, 0x4014000000000000] } }

theorem middle1_inv : Inv middle1 where
  memory := by decide
  status := by unfold StatusInv; decide
  command := by unfold CommandInv; decide
  seqn := .inl rfl
  probe := by intro i v h; exact absurd h (by simp [middle1, noMem, Memory.reset])
  pipeline := fun _ =>
    ⟨by decide, ⟨fun _ => 1, by unfold Holds; decide, bijective_of (by decide)⟩,
      ⟨fun _ => 1, by unfold Holds; decide, bijective_of (by decide)⟩, by unfold Written; decide⟩

/-- A state that meets the invariant, in the middle of a command, and takes a step. -/
theorem witness_StepKeepsTheInvariant : Inv middle1 ∧ ∃ t, step middle1 = .next t := by
  refine ⟨middle1_inv, ?_⟩
  have h : (seen (step middle1) fun _ => ()) = some () := by decide +kernel
  cases hs : step middle1 with
  | next t => exact ⟨t, rfl⟩
  | fault e => simp [hs, seen] at h
  | refused r => simp [hs, seen] at h

theorem witness_StepKeepsStatusConsistent : StatusInv middle1.status ∧ ∃ t, step middle1 = .next t :=
  ⟨middle1_inv.status, witness_StepKeepsTheInvariant.2⟩

theorem witness_EngineFaultsOnlyOnHostData : Inv middle1 ∧ nextMove middle1 = .engine := ⟨middle1_inv, rfl⟩

/-- What stands around the block does not enter the invariant. -/
theorem inv_of_env {s : State} (h : Inv s) (e : Env) : Inv { s with env := e } :=
  ⟨h.memory, h.status, h.command, h.seqn, h.probe, h.pipeline⟩

/-- A host that reads PARAM and waits, with its turns among three of the engine's. -/
def mixedTurns : Env :=
  { Env.reset with program := [.txn readParam, .wait], turns := [.host, .engine, .host, .engine, .engine] }

/-- With no turns listed, and with mixed turns. -/
theorem witness_AcceptedCommandEnds :
    ∀ e ∈ [Env.reset, mixedTurns],
      Inv { middle1 with env := e } ∧ ({ middle1 with env := e } : State).status.busy = true ∧
        Turn.reset ∉ e.turns ∧ HostOp.reset ∉ e.program := by
  intro e he
  refine ⟨inv_of_env middle1_inv e, rfl, ?_⟩
  revert e
  decide

theorem witness_CommandsIgnoreTheLiveRegisters :
    Instr.genseq.isCommand = true ∧ Instr.estimate.isCommand = true := by decide

/-- A command and a write that go on; each clause's premise is met by one of them. -/
theorem witness_OnlyTheWritersChangeABuffer :
    (∃ t, exec (.wrTags 0 1) .reset = .next t) ∧ (∃ t, exec (.wrReg 2 1) .reset = .next t) ∧
      Instr.wrTags 0 1 ≠ .genseq ∧ Instr.wrReg 2 1 ≠ .estimate :=
  ⟨⟨_, rfl⟩, ⟨_, rfl⟩, by decide, by decide⟩

theorem witness_OnlyGenseqChangesSeqn :
    (∃ t, exec .genseq (running 1 1) = .next t) ∧ (∃ t, exec (.wrReg 6 1) .reset = .next t) ∧
      Instr.genseq.isCommand = true :=
  ⟨⟨_, rfl⟩, ⟨_, rfl⟩, rfl⟩

theorem witness_ReadsHaveNoSideEffect :
    (Instr.rdIr 262144).isRead = true ∧ ∃ t, exec (.rdIr 262144) .reset = .next t :=
  ⟨rfl, _, rfl⟩

theorem witness_HostCannotDisturbARunningCommand :
    (Instr.wrReg 3 9).isCommand = false ∧ busyState.status.busy = true ∧ ∃ t, exec (.wrReg 3 9) busyState = .next t :=
  ⟨rfl, rfl, _, rfl⟩

end Sys2Proof.Tests
end

section
/-!
SUPPORT. Which agent takes a step, and what that step runs (00_scope.md R17, R251).
-/

namespace Sys2Proof.Machine

/-! ### Who moves -/

theorem nextMove_host {s : State} {turns : List Turn} (ht : s.env.turns = .host :: turns)
    (hp : s.env.program ≠ []) : nextMove s = .host := by
  simp [nextMove, hostEnabled, ht, hp]

/-- A turn that is the engine's, or that nobody listed, is the engine's while it runs a command. -/
theorem nextMove_engine {s : State} (ht : s.env.turns.head? = some .engine ∨ s.env.turns = [])
    (hb : s.status.busy = true) : nextMove s = .engine := by
  cases hs : s.env.turns with
  | nil => simp [nextMove, engineEnabled, hs, hb]
  | cons turn rest => simp_all [nextMove, engineEnabled]

/-- Such a turn falls to the host when the engine is idle, and to nobody when the program is exhausted too. -/
theorem nextMove_of_idle {s : State} (ht : s.env.turns.head? = some .engine ∨ s.env.turns = [])
    (hb : s.status.busy = false) : nextMove s = if hostEnabled s then .host else .ended := by
  cases hs : s.env.turns with
  | nil => simp [nextMove, engineEnabled, hs, hb]
  | cons turn rest => simp_all [nextMove, engineEnabled]

/-- The host's turn falls to the engine when the program is exhausted, and to nobody when the engine is idle too. -/
theorem nextMove_of_exhausted {s : State} {turns : List Turn} (ht : s.env.turns = .host :: turns)
    (hp : s.env.program = []) : nextMove s = if s.status.busy then .engine else .ended := by
  cases hb : s.status.busy <;> simp [nextMove, hostEnabled, engineEnabled, ht, hp, hb]

/-! ### What the step runs -/

theorem step_of_host_txn {s : State} {t : Txn} {ops : List HostOp} (hm : nextMove s = .host)
    (hp : s.env.program = .txn t :: ops) : step s = exec (decodeTxn t) (setProgram ops (takeTurn s)) :=
  step_of_run (by simp [fetch, hm, hostFetch, hp])

theorem step_of_engine {s : State} {i : Instr} (hm : nextMove s = .engine) (hd : decodeCommand s.curCmd = .ok i) :
    step s = exec i (takeTurn s) :=
  step_of_run (by simp [fetch, hm, engineFetch, hd])

theorem step_of_ended {s : State} (hm : nextMove s = .ended) : step s = .next (takeTurn s) :=
  step_of_moved (by simp [fetch, hm])

theorem takeTurn_eq {s : State} {turns : List Turn} (h : s.env.turns.tail = turns) :
    takeTurn s = { s with env := { s.env with turns := turns } } := by
  rw [takeTurn, h]

/-! ### The obligations about steps -/

/-- Settles O5: the host moves, in its own turn or because the engine is idle. -/
theorem hostStepRunsTheTransaction : Obligations.HostStepRunsTheTransaction := by
  unfold Obligations.HostStepRunsTheTransaction
  intro s t i ops turns hd hp ht
  obtain rfl : decodeTxn t = i := by simpa [decode] using hd
  have hm : nextMove s = .host := by
    rcases ht with ht | ⟨hb, ht⟩
    · exact nextMove_host ht (by simp [hp])
    · rw [nextMove_of_idle (by rcases ht with h | ⟨h, -⟩ <;> simp [h]) hb]
      simp [hostEnabled, hp]
  have htail : s.env.turns.tail = turns := by rcases ht with h | ⟨-, h | ⟨h, rfl⟩⟩ <;> simp [h]
  rw [step_of_host_txn hm hp, takeTurn_eq htail]
  rfl

/-- Settles O6: the engine moves, in its own turn, in one that nobody listed, or in place of an exhausted host. -/
theorem engineStepRunsTheCommand : Obligations.EngineStepRunsTheCommand := by
  unfold Obligations.EngineStepRunsTheCommand
  intro s i turns hb hd ht
  have hm : nextMove s = .engine := by
    rcases ht with h | ⟨h, -⟩ | ⟨h, hp⟩
    · exact nextMove_engine (by simp [h]) hb
    · exact nextMove_engine (by simp [h]) hb
    · simp [nextMove_of_exhausted h hp, hb]
  have htail : s.env.turns.tail = turns := by rcases ht with h | ⟨h, rfl⟩ | ⟨h, -⟩ <;> simp [h]
  rw [step_of_engine hm hd, takeTurn_eq htail]

/-- Settles O10: neither agent has a step. -/
theorem idleEngineDoesNothing : Obligations.IdleEngineDoesNothing := by
  unfold Obligations.IdleEngineDoesNothing
  intro s turns hb hp ht
  have hm : nextMove s = .ended := by
    rcases ht with h | h | ⟨h, -⟩
    · simp [nextMove_of_idle (.inl (by simp [h])) hb, hostEnabled, hp]
    · simp [nextMove_of_exhausted h hp, hb]
    · simp [nextMove_of_idle (.inr h) hb, hostEnabled, hp]
  have htail : s.env.turns.tail = turns := by rcases ht with h | h | ⟨h, rfl⟩ <;> simp [h]
  rw [step_of_ended hm, takeTurn_eq htail]

/-- A placed transaction runs in the state it was placed in: its line and its turn are used up. -/
theorem step_place_transaction (t : Txn) (s : State) : step (place (.transaction t) s) = exec (decodeTxn t) s :=
  hostStepRunsTheTransaction (place (.transaction t) s) t _ s.env.program s.env.turns rfl rfl (.inl rfl)

/-- A placed command word runs in the state that its acceptance makes: only its turn is used up. -/
theorem step_place_command {w : Word32} {i : Instr} (hd : decodeCommand w = .ok i) (s : State) :
    step (place (.command w) s) = exec i (accept w { s with status := { s.status with busy := false } }) := by
  refine engineStepRunsTheCommand (place (.command w) s) i s.env.turns rfl hd (.inl ?_)
  simp [place]

theorem decodeTableWord_eq_some_iff {nbits w : Nat} {i : Instr} :
    decodeTableWord nbits w = some i ↔ decode (Encoded.ofBits nbits w) = .ok i := by
  unfold decodeTableWord
  cases decode (Encoded.ofBits nbits w) <;> simp

/-- Settles O11: one case for each of the two formats. -/
theorem placedWordRunsNext : Obligations.PlacedWordRunsNext := by
  unfold Obligations.PlacedWordRunsNext
  intro s nbits w i hd
  rw [decodeTableWord_eq_some_iff] at hd
  constructor
  · intro hn
    simp only [Encoded.ofBits, hn, if_false, decode] at hd
    obtain rfl := Except.ok.inj hd
    simp only [State.withFetchWord, Encoded.ofBits, hn, if_false, step_place_transaction]
  · rintro rfl
    exact step_place_command hd s

end Sys2Proof.Machine
end

section
/-!
SUPPORT. The fields of a binary64 encoding (00_scope.md R12, R63): of a sign and a number below 2^63, of a value with its
sign changed, of a quiet NaN, and of 2^−n; and the classes of values they separate.
-/

namespace Sys2Proof.Machine

namespace Binary64

/-! ### A sign and the 63 bits below it -/

theorem withSign_toNat (neg : Bool) {bits : Nat} (h : bits < 2 ^ 63) :
    (withSign neg bits).toNat = bits + if neg then 2 ^ 63 else 0 := by
  rw [withSign, BitVec.toNat_ofNat]
  apply Nat.mod_eq_of_lt
  split <;> omega

theorem sign_withSign (neg : Bool) {bits : Nat} (h : bits < 2 ^ 63) : sign (withSign neg bits) = neg := by
  rw [sign, BitVec.getLsbD, Nat.testBit_eq_decide_div_mod_eq, withSign_toNat neg h]
  cases neg <;> simp <;> omega

theorem biased_withSign (neg : Bool) {bits : Nat} (h : bits < 2 ^ 63) : biased (withSign neg bits) = bits / 2 ^ 52 := by
  rw [biased, BitVec.extractLsb'_toNat, withSign_toNat neg h, Nat.shiftRight_eq_div_pow]
  split <;> omega

theorem fraction_withSign (neg : Bool) {bits : Nat} (h : bits < 2 ^ 63) :
    fraction (withSign neg bits) = bits % 2 ^ 52 := by
  rw [fraction, BitVec.extractLsb'_toNat, withSign_toNat neg h, Nat.shiftRight_zero]
  split <;> omega

theorem fraction_lt (a : Real64) : fraction a < 2 ^ 52 := BitVec.isLt _

theorem infinity_eq_withSign (neg : Bool) : infinity neg = withSign neg infBits := by
  cases neg <;> rfl

theorem signedZero_eq_withSign (neg : Bool) : signedZero neg = withSign neg 0 := by
  cases neg <;> rfl

/-! ### Finite values, infinities and NaNs -/

theorem isNaN_of_finite {a : Real64} (h : IsFinite a) : isNaN a = false := by
  have hb : biased a ≠ 0x7FF := h
  simp [isNaN, hb]

theorem isInf_of_finite {a : Real64} (h : IsFinite a) : isInf a = false := by
  have hb : biased a ≠ 0x7FF := h
  simp [isInf, hb]

@[simp] theorem isNaN_infinity (neg : Bool) : isNaN (infinity neg) = false := by
  cases neg <;> decide

@[simp] theorem isInf_infinity (neg : Bool) : isInf (infinity neg) = true := by
  cases neg <;> decide

@[simp] theorem sign_infinity (neg : Bool) : sign (infinity neg) = neg := by
  cases neg <;> decide

theorem natAbs_value (a : Real64) : (value a).natAbs = magnitude a := by
  unfold value
  split <;> simp

theorem value_eq_zero_iff {a : Real64} : value a = 0 ↔ magnitude a = 0 := by
  rw [← natAbs_value, Int.natAbs_eq_zero]

/-! ### The sign change -/

/-- Only bit 63 changes (R12). -/
theorem fneg_getLsbD (a : Real64) (k : Nat) : (fneg a).getLsbD k = (a.getLsbD k ^^ decide (k = 63)) := by
  have h : (0x8000000000000000#64).getLsbD k = decide (k = 63) := by
    rw [show 0x8000000000000000#64 = BitVec.twoPow 64 63 from rfl, BitVec.getLsbD_twoPow]
    by_cases hk : k = 63 <;> simp [hk, eq_comm]
  rw [fneg, BitVec.getLsbD_xor, h]

@[simp] theorem sign_fneg (a : Real64) : sign (fneg a) = !sign a := by
  rw [sign, fneg_getLsbD, sign, decide_eq_true rfl, Bool.xor_true]

@[simp] theorem biased_fneg (a : Real64) : biased (fneg a) = biased a := by
  rw [biased, fneg, BitVec.extractLsb'_xor, biased,
    show BitVec.extractLsb' 52 11 0x8000000000000000#64 = 0#11 from rfl, BitVec.xor_zero]

@[simp] theorem fraction_fneg (a : Real64) : fraction (fneg a) = fraction a := by
  rw [fraction, fneg, BitVec.extractLsb'_xor, fraction,
    show BitVec.extractLsb' 0 52 0x8000000000000000#64 = 0#52 from rfl, BitVec.xor_zero]

@[simp] theorem isNaN_fneg (a : Real64) : isNaN (fneg a) = isNaN a := by
  simp [isNaN]

@[simp] theorem fneg_infinity (neg : Bool) : fneg (infinity neg) = infinity (!neg) := by
  cases neg <;> rfl

theorem fneg_finite {a : Real64} (h : IsFinite a) : IsFinite (fneg a) := by
  simpa [IsFinite] using h

@[simp] theorem value_fneg (a : Real64) : value (fneg a) = -value a := by
  have hm : magnitude (fneg a) = magnitude a := by simp [magnitude]
  cases h : sign a <;> simp [value, h, hm]

/-! ### The NaN of a draw -/

theorem quietNaN_getLsbD_quiet (d : Nat) : (quietNaN d).getLsbD 51 = true := by
  rw [quietNaN, BitVec.getLsbD_or, show (0x7FF8000000000000#64).getLsbD 51 = true from rfl, Bool.or_true]

/-- Whatever the draw is, its exponent field is all ones and its fraction is not 0 (log 5). -/
theorem isNaN_quietNaN (d : Nat) : isNaN (quietNaN d) = true := by
  have hb : biased (quietNaN d) = 0x7FF := by
    rw [biased, quietNaN, BitVec.extractLsb'_or,
      show BitVec.extractLsb' 52 11 0x7FF8000000000000#64 = BitVec.allOnes 11 from rfl, BitVec.or_allOnes]
    rfl
  have hf : fraction (quietNaN d) ≠ 0 := by
    intro h
    have h0 : (quietNaN d).extractLsb' 0 52 = 0#52 := BitVec.eq_of_toNat_eq h
    have h51 := BitVec.getLsbD_extractLsb' 0 52 (quietNaN d) 51
    rw [h0, Nat.zero_add, quietNaN_getLsbD_quiet] at h51
    simp at h51
  simp [isNaN, hb, hf]

/-! ### 2^−n -/

theorem pow2neg_eq_withSign (n : Nat) : pow2neg n = withSign false ((1023 - n) * 2 ^ 52) := by
  simp [pow2neg, withSign]

theorem pow2neg_finite (n : Nat) : IsFinite (pow2neg n) := by
  rw [IsFinite, pow2neg_eq_withSign, biased_withSign _ (by omega)]
  omega

/-- The power is exact: 2^(1074 − n) units of 2^-1074 (R12). -/
theorem value_pow2neg {n : Nat} (h : n ≤ 1022) : value (pow2neg n) = 2 ^ (1074 - n) := by
  have hlt : (1023 - n) * 2 ^ 52 < 2 ^ 63 := by omega
  have hb : biased (pow2neg n) = 1023 - n := by
    rw [pow2neg_eq_withSign, biased_withSign _ hlt]
    omega
  have hf : fraction (pow2neg n) = 0 := by
    rw [pow2neg_eq_withSign, fraction_withSign _ hlt]
    omega
  have hs : sign (pow2neg n) = false := by
    rw [pow2neg_eq_withSign, sign_withSign _ hlt]
  have hm : magnitude (pow2neg n) = 2 ^ (1074 - n) := by
    have h0 : 1023 - n ≠ 0 := by omega
    have he : 52 + (1023 - n - 1) = 1074 - n := by omega
    rw [magnitude, hb, hf, if_neg h0, Nat.add_zero, ← Nat.pow_add, he]
  simp [value, hs, hm]

end Binary64

end Sys2Proof.Machine
end

section
/-!
SUPPORT. What `round` gives (00_scope.md R12): the nearest finite value, ties to even, below 2^1024 − 2^970 in magnitude, and
the infinity of the sign from there on. The idea: with k bits dropped and e = k − s, the result is q·2^e units for q = m/2^k
rounded, and every other binary64 value is a multiple of 2^e or below 2^52·2^e, where q is nearer.
-/

namespace Sys2Proof.Machine

namespace Binary64

/-! ### A sign and a magnitude -/

/-- The integer of a sign and a magnitude. -/
def signed (neg : Bool) (n : Nat) : Int := if neg then -(n : Int) else n

theorem value_eq_signed (a : Real64) : value a = signed (sign a) (magnitude a) := rfl

@[simp] theorem natAbs_signed (neg : Bool) (n : Nat) : (signed neg n).natAbs = n := by
  cases neg <;> simp [signed]

theorem signed_decide_natAbs (v : Int) : signed (decide (v < 0)) v.natAbs = v := by
  simp only [signed, decide_eq_true_eq]
  split <;> omega

theorem signed_mul (neg neg' : Bool) (n n' : Nat) :
    signed neg n * signed neg' n' = signed (neg != neg') (n * n') := by
  cases neg <;> cases neg' <;> simp [signed]

theorem decide_signed_lt_zero (neg : Bool) {n : Nat} (h : n ≠ 0) : decide (signed neg n < 0) = neg := by
  cases neg
  · simp [signed]
  · simp [signed]
    omega

/-- `x` mirrored when `neg` is set. -/
def mirror (neg : Bool) (x : Int) : Int := if neg then -x else x

@[simp] theorem natAbs_mirror (neg : Bool) (x : Int) : (mirror neg x).natAbs = x.natAbs := by
  cases neg <;> simp [mirror]

@[simp] theorem mirror_signed (neg : Bool) (n : Nat) : mirror neg (signed neg n) = n := by
  cases neg <;> simp [mirror, signed]

theorem mirror_injective (neg : Bool) : Function.Injective (mirror neg) := by
  cases neg
  · exact fun _ _ h => h
  · exact neg_injective

/-- Distances from a signed magnitude are distances from the magnitude, mirrored. -/
theorem natAbs_mul_sub_signed (x y : Int) (neg : Bool) (n : Nat) :
    (x * y - signed neg n).natAbs = (mirror neg x * y - n).natAbs := by
  rw [← natAbs_mirror neg]
  congr 1
  cases neg <;> simp only [mirror, signed, if_true, Bool.false_eq_true, if_false]
  ring

/-! ### The rounded quotient -/

/-- Rounding keeps the quotient below half a unit of remainder and passes to the next from half a unit on, where at exactly
half a unit it is the even one of the two. -/
theorem roundShift_cases (m k : Nat) : ∃ keep rem, m = keep * 2 ^ k + rem ∧ rem < 2 ^ k ∧
    (roundShift m k = keep ∧ (2 * rem < 2 ^ k ∨ 2 * rem = 2 ^ k ∧ keep % 2 = 0) ∨
      roundShift m k = keep + 1 ∧ (2 ^ k < 2 * rem ∨ 2 * rem = 2 ^ k ∧ keep % 2 = 1)) := by
  refine ⟨m / 2 ^ k, m % 2 ^ k, (Nat.div_add_mod' m _).symm, Nat.mod_lt m (Nat.two_pow_pos k), ?_⟩
  simp only [roundShift, Nat.shiftRight_eq_div_pow]
  split <;> omega

theorem roundShift_le {m k n : Nat} (h : m < n * 2 ^ k) : roundShift m k ≤ n := by
  obtain ⟨keep, rem, rfl, -, hq⟩ := roundShift_cases m k
  have hkeep : keep < n := Nat.lt_of_mul_lt_mul_right ((Nat.le_add_right _ rem).trans_lt h)
  omega

theorem le_roundShift {m k n : Nat} (h : n * 2 ^ k ≤ m) : n ≤ roundShift m k := by
  obtain ⟨keep, rem, rfl, hrem, hq⟩ := roundShift_cases m k
  have hkeep : n < keep + 1 := by
    refine Nat.lt_of_mul_lt_mul_right (a := 2 ^ k) ?_
    rw [Nat.succ_mul]
    omega
  omega

/-- No integer is nearer to m/2^k, and where another is as near the one chosen is even. -/
theorem roundShift_nearest (m k : Nat) (y : Int) :
    ((roundShift m k : Int) * 2 ^ k - m).natAbs ≤ (y * 2 ^ k - m).natAbs ∧
      (((roundShift m k : Int) * 2 ^ k - m).natAbs = (y * 2 ^ k - m).natAbs → y ≠ roundShift m k →
        roundShift m k % 2 = 0) := by
  obtain ⟨keep, rem, hm, hrem, hq⟩ := roundShift_cases m k
  obtain ⟨z, rfl⟩ : ∃ z : Int, y = keep + z := ⟨y - keep, by ring⟩
  have hunit : (2 : Int) ^ k = (2 ^ k : Nat) := by push_cast; rfl
  rw [hunit]
  generalize 2 ^ k = unit at *
  have hz : z ≤ -1 ∧ z * unit ≤ -unit ∨ z = 0 ∧ z * unit = 0 ∨ z = 1 ∧ z * unit = unit ∨
      2 ≤ z ∧ 2 * unit ≤ z * unit := by
    rcases lt_trichotomy z 0 with h | rfl | h
    · exact .inl ⟨by omega, by nlinarith⟩
    · simp
    · rcases eq_or_lt_of_le (show 1 ≤ z from h) with rfl | h2
      · simp
      · exact .inr (.inr (.inr ⟨h2, by nlinarith⟩))
  have hy : (keep + z) * (unit : Int) - m = z * unit - rem := by rw [hm]; push_cast; ring
  have hkeep : (keep : Int) * unit - m = -rem := by rw [hm]; push_cast; ring
  have hnext : (keep + 1 : Int) * unit - m = unit - rem := by rw [hm]; push_cast; ring
  rw [hy]
  rcases hq with ⟨h, hr⟩ | ⟨h, hr⟩
  · rw [h, hkeep]
    omega
  · rw [h, Nat.cast_succ, hnext]
    omega

/-- The quotient reaches 2^53 from half a unit below it on: the tie goes up, since 2^53 − 1 is odd. -/
theorem roundShift_carries_iff {m k : Nat} (h : m < 2 ^ 53 * 2 ^ k) :
    2 ^ 53 ≤ roundShift m k ↔ (2 ^ 54 - 1) * 2 ^ k ≤ 2 * m := by
  obtain ⟨keep, rem, rfl, hrem, hq⟩ := roundShift_cases m k
  generalize roundShift _ k = q at *
  generalize 2 ^ k = unit at *
  have hlt : keep < 2 ^ 53 := Nat.lt_of_mul_lt_mul_right ((Nat.le_add_right _ rem).trans_lt h)
  by_cases hlast : keep = 2 ^ 53 - 1
  · subst hlast
    omega
  · have hmul : (keep + 1) * unit ≤ (2 ^ 53 - 1) * unit := Nat.mul_le_mul_right _ (by omega)
    rw [Nat.succ_mul] at hmul
    omega

/-! ### The rounded encoding -/

/-- The encoding that `round` builds, by the number of binades `e` above the subnormals: below 2^53 significand bits are kept,
and all 53 where e > 0. -/
theorem round_eq (neg : Bool) (m s : Nat) : ∃ e, m < 2 ^ 53 * 2 ^ (s + e) ∧ (e ≠ 0 → 2 ^ 52 * 2 ^ (s + e) ≤ m) ∧
    round neg m s = withSign neg (min infBits (e * 2 ^ 52 + roundShift m (s + e))) := by
  refine ⟨max s (Nat.log2 m - 52) - s, ?_, ?_, ?_⟩
  · rw [← Nat.pow_add]
    exact Nat.lt_log2_self.trans_le (Nat.pow_le_pow_right (by omega) (by omega))
  · intro he
    have hm : m ≠ 0 := by
      rintro rfl
      simp at he
    rw [← Nat.pow_add]
    exact (Nat.pow_le_pow_right (by omega) (by omega)).trans (Nat.log2_self_le hm)
  · rw [Nat.add_sub_cancel' (le_max_left _ _)]
    rfl

theorem round_zero (neg : Bool) (s : Nat) : round neg 0 s = withSign neg 0 := by
  simp [round, roundShift]

/-- An encoding of `q` units of 2^e: a significand of 2^53 carries into the exponent field. -/
theorem magnitude_withSign (neg : Bool) {e q : Nat} (hq : q ≤ 2 ^ 53) (he : e ≠ 0 → 2 ^ 52 ≤ q)
    (hlt : e * 2 ^ 52 + q < 2 ^ 63) : magnitude (withSign neg (e * 2 ^ 52 + q)) = q * 2 ^ e := by
  rw [magnitude, biased_withSign neg hlt, fraction_withSign neg hlt]
  by_cases hsub : q < 2 ^ 52
  · have he0 : e = 0 := by omega
    subst he0
    rw [if_pos (by omega), Nat.pow_zero]
    omega
  · rw [if_neg (by omega)]
    by_cases hcarry : q = 2 ^ 53
    · have h1 : (e * 2 ^ 52 + q) / 2 ^ 52 - 1 = e + 1 := by omega
      have h2 : 2 ^ 52 + (e * 2 ^ 52 + q) % 2 ^ 52 = 2 ^ 52 := by omega
      rw [h1, h2, hcarry, Nat.pow_succ]
      omega
    · have h1 : (e * 2 ^ 52 + q) / 2 ^ 52 - 1 = e := by omega
      have h2 : 2 ^ 52 + (e * 2 ^ 52 + q) % 2 ^ 52 = q := by omega
      rw [h1, h2]

/-- Every value is a multiple of 2^e or lies below 2^52·2^e. -/
theorem magnitude_grid (c : Real64) (e : Nat) : 2 ^ e ∣ magnitude c ∨ magnitude c < 2 ^ 52 * 2 ^ e := by
  have hf := fraction_lt c
  unfold magnitude
  split
  · exact .inr (hf.trans_le (Nat.le_mul_of_pos_right _ (Nat.two_pow_pos e)))
  · by_cases he : e ≤ biased c - 1
    · exact .inl ((Nat.pow_dvd_pow 2 he).mul_left _)
    · right
      calc (2 ^ 52 + fraction c) * 2 ^ (biased c - 1)
          < 2 ^ 53 * 2 ^ (biased c - 1) := Nat.mul_lt_mul_of_pos_right (by omega) (Nat.two_pow_pos _)
        _ = 2 ^ 52 * 2 ^ (biased c - 1 + 1) := by ring
        _ ≤ 2 ^ 52 * 2 ^ e := Nat.mul_le_mul_left _ (Nat.pow_le_pow_right (by omega) (by omega))

/-! ### The nearest value, and overflow -/

/-- On the grid of `magnitude_grid`, q·2^e units of 2^s are nearest to m. -/
theorem roundShift_nearest_of_grid {m s e : Nat} (he : e ≠ 0 → 2 ^ 52 * 2 ^ (s + e) ≤ m) {x : Int}
    (hx : 2 ^ e ∣ x ∨ x.natAbs < 2 ^ 52 * 2 ^ e) :
    let r : Int := roundShift m (s + e) * 2 ^ e
    (r * 2 ^ s - m).natAbs ≤ (x * 2 ^ s - m).natAbs ∧
      ((r * 2 ^ s - m).natAbs = (x * 2 ^ s - m).natAbs → x ≠ r → roundShift m (s + e) % 2 = 0) := by
  intro r
  have hscale (y : Int) : y * 2 ^ e * 2 ^ s = y * 2 ^ (s + e) := by ring
  by_cases hdvd : (2 : Int) ^ e ∣ x
  · obtain ⟨y, rfl⟩ := hdvd
    obtain ⟨hle, htie⟩ := roundShift_nearest m (s + e) y
    rw [mul_comm _ y, hscale, hscale]
    exact ⟨hle, fun heq hne => htie heq fun h => hne (by rw [h])⟩
  · have hlt := hx.resolve_left hdvd
    have he0 : e ≠ 0 := by
      rintro rfl
      simp at hdvd
    have hm := he he0
    have hle := (roundShift_nearest m (s + e) (2 ^ 52)).1
    have hxs : x * 2 ^ s < 2 ^ 52 * 2 ^ (s + e) := by
      rw [← hscale]
      exact mul_lt_mul_of_pos_right (Int.le_natAbs.trans_lt (by exact_mod_cast hlt)) (by positivity)
    have hfar : ((2 : Int) ^ 52 * 2 ^ (s + e) - m).natAbs < (x * 2 ^ s - m).natAbs := by
      have hm' : (2 : Int) ^ 52 * 2 ^ (s + e) ≤ m := by exact_mod_cast hm
      generalize (2 : Int) ^ 52 * 2 ^ (s + e) = u at *
      generalize x * 2 ^ s = w at *
      omega
    rw [hscale]
    exact ⟨by omega, by omega⟩

theorem pow_sub_pow_mul (a b s : Nat) : (2 ^ (54 + a) - 2 ^ a) * 2 ^ b * 2 ^ s = (2 ^ 54 - 1) * 2 ^ (s + (a + b)) := by
  rw [Nat.pow_add 2 54 a, ← Nat.sub_one_mul, Nat.add_comm s, Nat.pow_add _ (a + b), Nat.pow_add _ a, Nat.mul_assoc,
    Nat.mul_assoc, Nat.mul_assoc]

/-- The overflow limit lies halfway between the largest finite value, (2^54 − 2)·2^2044 units of 2^-1074, and 2^1024. -/
theorem overflow_limit_eq (s : Nat) : (2 ^ 1024 - 2 ^ 970) * 2 ^ 1074 * 2 ^ s = (2 ^ 54 - 1) * 2 ^ (s + 2044) := by
  simpa only [Nat.reduceAdd] using pow_sub_pow_mul 970 1074 s

/-- The encoding reaches the infinity's exactly from the overflow limit on. -/
theorem infBits_le_iff {m s e : Nat} (hlt : m < 2 ^ 53 * 2 ^ (s + e)) (he : e ≠ 0 → 2 ^ 52 * 2 ^ (s + e) ≤ m) :
    infBits ≤ e * 2 ^ 52 + roundShift m (s + e) ↔ (2 ^ 1024 - 2 ^ 970) * 2 ^ 1074 * 2 ^ s ≤ m := by
  rw [overflow_limit_eq]
  have hq := roundShift_le hlt
  unfold infBits
  rcases Nat.lt_trichotomy e 2045 with h | rfl | h
  · have hpow : 2 ^ (s + e) ≤ 2 ^ (s + 2044) := Nat.pow_le_pow_right (by omega) (by omega)
    generalize 2 ^ (s + e) = t, 2 ^ (s + 2044) = u at *
    omega
  · have hcarry := roundShift_carries_iff hlt
    have hpow : 2 ^ (s + 2045) = 2 * 2 ^ (s + 2044) := Nat.pow_succ'
    rw [hpow] at hcarry
    generalize 2 ^ (s + 2044) = u at *
    omega
  · have hm := he (by omega)
    have hq' := le_roundShift hm
    have hpow : 2 ^ (s + 2044 + 2) ≤ 2 ^ (s + e) := Nat.pow_le_pow_right (by omega) (by omega)
    rw [Nat.pow_add _ _ 2] at hpow
    generalize 2 ^ (s + e) = t, 2 ^ (s + 2044) = u at *
    omega

theorem nearestEven_withSign (neg : Bool) {m s e : Nat} (hlt : m < 2 ^ 53 * 2 ^ (s + e))
    (he : e ≠ 0 → 2 ^ 52 * 2 ^ (s + e) ≤ m) (hbits : e * 2 ^ 52 + roundShift m (s + e) < 2 ^ 63) :
    NearestEven (withSign neg (e * 2 ^ 52 + roundShift m (s + e))) (signed neg m) (2 ^ s) := by
  have hmag := magnitude_withSign neg (roundShift_le hlt) (fun h => le_roundShift (he h)) hbits
  intro c _
  have hx : (2 : Int) ^ e ∣ mirror neg (value c) ∨ (mirror neg (value c)).natAbs < 2 ^ 52 * 2 ^ e := by
    rw [natAbs_mirror, natAbs_value, ← Int.natAbs_dvd_natAbs, natAbs_mirror, natAbs_value, Int.natAbs_pow]
    exact magnitude_grid c e
  obtain ⟨hle, htie⟩ := roundShift_nearest_of_grid he hx
  have hr : mirror neg (value (withSign neg (e * 2 ^ 52 + roundShift m (s + e)))) = roundShift m (s + e) * 2 ^ e := by
    rw [value_eq_signed, sign_withSign _ hbits, hmag, mirror_signed, Nat.cast_mul, Nat.cast_pow]
    rfl
  rw [natAbs_mul_sub_signed, natAbs_mul_sub_signed, hr, Nat.cast_pow, fraction_withSign _ hbits]
  refine ⟨hle, fun heq hne => ?_⟩
  have heven := htie heq fun h => hne (mirror_injective neg (h.trans hr.symm))
  omega

/-- Rounding a signed magnitude of units of 2^-(1074 + s) (R12). -/
theorem round_roundsTo (neg : Bool) (m s : Nat) : RoundsTo (round neg m s) (signed neg m) (2 ^ s) := by
  obtain ⟨e, hlt, he, hround⟩ := round_eq neg m s
  have hinf := infBits_le_iff hlt he
  rw [hround, RoundsTo, natAbs_signed]
  have hpos : 0 < (2 ^ 1024 - 2 ^ 970) * 2 ^ 1074 * 2 ^ s := by
    rw [overflow_limit_eq]
    positivity
  have hlimit : infBits < 2 ^ 63 := by decide
  refine ⟨fun hm => ?_, fun hm => ?_, fun hm => ?_⟩
  · have hbits : e * 2 ^ 52 + roundShift m (s + e) < infBits := by
      rw [← not_le, hinf]
      omega
    rw [min_eq_right hbits.le]
    refine ⟨?_, nearestEven_withSign neg hlt he (hbits.trans hlimit)⟩
    rw [IsFinite, biased_withSign _ (hbits.trans hlimit)]
    unfold infBits at hbits
    omega
  · rw [min_eq_left (hinf.mpr hm), decide_signed_lt_zero neg (by omega), infinity_eq_withSign]
  · have hm0 : m ≠ 0 := by
      rintro rfl
      cases neg <;> simp [signed] at hm
    rw [sign_withSign neg ((min_le_left _ _).trans_lt hlimit), decide_signed_lt_zero neg hm0]

end Binary64

open Binary64

/-! ### The operations on finite values -/

theorem fsub_eq_fadd_fneg (d : Nat) (a b : Real64) : fsub d a b = fadd d a (fneg b) := rfl

theorem fadd_of_finite (d : Nat) {a b : Real64} (ha : IsFinite a) (hb : IsFinite b) :
    fadd d a b = if value a + value b = 0 then withSign (sign a && sign b) 0
      else round (decide (value a + value b < 0)) (value a + value b).natAbs 0 := by
  simp [fadd, isNaN_of_finite ha, isNaN_of_finite hb, isInf_of_finite ha, isInf_of_finite hb]

theorem fmul_of_finite (d : Nat) {a b : Real64} (ha : IsFinite a) (hb : IsFinite b) :
    fmul d a b = round (sign a != sign b) (magnitude a * magnitude b) 1074 := by
  simp [fmul, isNaN_of_finite ha, isNaN_of_finite hb, isInf_of_finite ha, isInf_of_finite hb]

/-- A zero sum is rounded from 0 too, so both branches of `fadd` round the exact sum. -/
theorem fadd_roundsTo (d : Nat) {a b : Real64} (ha : IsFinite a) (hb : IsFinite b) :
    RoundsTo (fadd d a b) (value a + value b) 1 := by
  rw [fadd_of_finite d ha hb, ← pow_zero 2]
  split
  · next h =>
    rw [h, ← round_zero _ 0]
    simpa [signed] using round_roundsTo (sign a && sign b) 0 0
  · simpa only [signed_decide_natAbs] using
      round_roundsTo (decide (value a + value b < 0)) (value a + value b).natAbs 0

theorem fmul_roundsTo (d : Nat) {a b : Real64} (ha : IsFinite a) (hb : IsFinite b) :
    RoundsTo (fmul d a b) (value a * value b) (2 ^ 1074) := by
  rw [fmul_of_finite d ha hb, value_eq_signed, value_eq_signed, signed_mul]
  exact round_roundsTo _ _ _

/-- Settles O44: each operation is `round` of the exact result. -/
theorem arithmeticRoundsToNearestEven : Obligations.ArithmeticRoundsToNearestEven := by
  unfold Obligations.ArithmeticRoundsToNearestEven
  intro d a b ha hb
  refine ⟨fadd_roundsTo d ha hb, ?_, fmul_roundsTo d ha hb⟩
  simpa only [fsub_eq_fadd_fneg, value_fneg, ← sub_eq_add_neg] using fadd_roundsTo d ha (fneg_finite hb)

end Sys2Proof.Machine
end

section
/-!
SUPPORT. NaNs, infinities and zeros in `fadd` and `fmul` (00_scope.md R12; logs 5, 6); `fsub` follows from `fadd`.
-/

namespace Sys2Proof.Machine

open Binary64

/-! ### NaN operands -/

theorem fadd_of_isNaN (d : Nat) {a b : Real64} (h : isNaN a = true ∨ isNaN b = true) : fadd d a b = quietNaN d := by
  rw [fadd, if_pos (by simpa using h)]

theorem fmul_of_isNaN (d : Nat) {a b : Real64} (h : isNaN a = true ∨ isNaN b = true) : fmul d a b = quietNaN d := by
  rw [fmul, if_pos (by simpa using h)]

/-! ### Infinite operands -/

theorem fadd_infinity_left (d : Nat) (m : Bool) {b : Real64} (hb : IsFinite b) :
    fadd d (infinity m) b = infinity m := by
  simp [fadd, isNaN_of_finite hb, isInf_of_finite hb]

theorem fadd_infinity_right (d : Nat) (m : Bool) {b : Real64} (hb : IsFinite b) :
    fadd d b (infinity m) = infinity m := by
  simp [fadd, isNaN_of_finite hb, isInf_of_finite hb]

theorem fadd_infinity_infinity (d : Nat) (m n : Bool) :
    fadd d (infinity m) (infinity n) = if m = n then infinity m else quietNaN d := by
  by_cases h : m = n <;> simp [fadd, h]

theorem fmul_infinity_left (d : Nat) (m : Bool) {b : Real64} (hb : IsFinite b) :
    fmul d (infinity m) b = if value b = 0 then quietNaN d else infinity (m != sign b) := by
  simp [fmul, isNaN_of_finite hb, isInf_of_finite hb, value_eq_zero_iff, ← infinity_eq_withSign]

theorem fmul_infinity_right (d : Nat) (m : Bool) {b : Real64} (hb : IsFinite b) :
    fmul d b (infinity m) = if value b = 0 then quietNaN d else infinity (m != sign b) := by
  simp [fmul, isNaN_of_finite hb, isInf_of_finite hb, value_eq_zero_iff, ← infinity_eq_withSign, bne_comm (a := m)]

theorem fmul_infinity_infinity (d : Nat) (m n : Bool) : fmul d (infinity m) (infinity n) = infinity (m != n) := by
  simp [fmul, ← infinity_eq_withSign]

/-! ### Zero results of finite operands -/

theorem fadd_eq_signedZero (d : Nat) {a b : Real64} (ha : IsFinite a) (hb : IsFinite b) (h : value a + value b = 0) :
    fadd d a b = signedZero (sign a && sign b) := by
  rw [fadd_of_finite d ha hb, if_pos h, signedZero_eq_withSign]

theorem fmul_eq_signedZero (d : Nat) {a b : Real64} (ha : IsFinite a) (hb : IsFinite b) (h : value a * value b = 0) :
    fmul d a b = signedZero (sign a != sign b) := by
  have hm : magnitude a * magnitude b = 0 := by
    rw [← natAbs_value, ← natAbs_value, ← Int.natAbs_mul, h, Int.natAbs_zero]
  rw [fmul_of_finite d ha hb, hm, round_zero, signedZero_eq_withSign]

/-- Settles O45: one lemma per class of operands; a subtraction adds the operand with its sign changed. -/
theorem specialValuesFollowIeee : Obligations.SpecialValuesFollowIeee := by
  unfold Obligations.SpecialValuesFollowIeee
  intro d a b m n
  refine ⟨fun h => ⟨fadd_of_isNaN d h, ?_, fmul_of_isNaN d h⟩, ⟨isNaN_quietNaN d, quietNaN_getLsbD_quiet d⟩,
    fun hb => ⟨fadd_infinity_left d m hb, fadd_infinity_right d m hb, ?_, ?_⟩, fadd_infinity_infinity d m n, ?_,
    fun hb => ⟨fmul_infinity_left d m hb, fmul_infinity_right d m hb⟩, fmul_infinity_infinity d m n,
    fun ha hb => ⟨fadd_eq_signedZero d ha hb, fun h => ?_, fmul_eq_signedZero d ha hb⟩, ?_, fun k hk => ?_⟩
  · exact fadd_of_isNaN d (by rwa [isNaN_fneg])
  · exact fadd_infinity_left d m (fneg_finite hb)
  · rw [fsub_eq_fadd_fneg, fneg_infinity, fadd_infinity_right d _ hb]
  · rw [fsub_eq_fadd_fneg, fneg_infinity, fadd_infinity_infinity]
    cases m <;> cases n <;> rfl
  · rw [fsub_eq_fadd_fneg, fadd_eq_signedZero d ha (fneg_finite hb) (by rwa [value_fneg, ← sub_eq_add_neg]), sign_fneg]
  · exact sign_fneg a
  · rw [fneg_getLsbD, decide_eq_false (by omega), Bool.xor_false]

end Sys2Proof.Machine
end

section
/-!
SUPPORT. What stage 3 of ESTIMATE writes (43_pipeline.md R163).
-/

namespace Sys2Proof.Machine

/-- With every element it needs written, stage 3 writes the scaled response and then +0.0, and keeps the rest of IR. -/
theorem scaleStage_eq_ok {α : Type} (num : Num α) (d n : Nat) {tagl : Buf Word32} {work : Buf α} (ir : Buf α)
    {w : Nat → Word32} {x : Nat → α} (ht : Holds tagl (seqLen n) w)
    (hw : ∀ i, i < seqLen n → Buf.read work (w i).toNat = some (x i)) :
    ∃ b, scaleStage num d n tagl work ir = .ok b ∧
      Holds b (seqLen n) (fun i => num.mul (d + i) (x i) (num.pow2neg n)) ∧
      Buf.read b (seqLen n) = some num.zero ∧ SameFrom (seqLen n + 1) ir b := by
  have hvs : scaledResponse num d n tagl work =
      .ok ((List.range' 0 (seqLen n)).map fun i => num.mul (d + i) (x i) (num.pow2neg n)) := by
    refine forRange_eq_ok _ _ fun k _ hk => ?_
    rw [Nat.zero_add] at hk
    rw [bufRead_ok_iff.mpr (ht k hk)]
    simp only [bufRead_ok_iff.mpr (hw k hk)]
  refine ⟨_, by rw [scaleStage, hvs], fun i hi => ?_, ?_, fun i hi => ?_⟩
  · rw [Buf.read_writeRun_lt _ _ (by simp; omega)]
    simp [List.getElem?_append, hi]
  · rw [Buf.read_writeRun_lt _ _ (by simp)]
    simp
  · exact Buf.read_writeRun_ge _ _ (by simpa using hi)

theorem exec_estimate_permuteScale {s : State} (h : s.status.state = .permuteScale) :
    exec .estimate s = estimateScale s := by
  simp [exec, execEstimate, h]

theorem estimateScale_of_ok {s : State} {ir : Buf Real64} (hc : s.cancel = false)
    (h : scaleStage binary64 s.env.draws s.curN.toNat s.mem.tagl s.mem.work s.mem.ir = .ok ir) :
    estimateScale s = .next (finish (useDraws (seqLen s.curN.toNat) { s with mem := { s.mem with ir := ir } })) := by
  simp [estimateScale, hc, h]

/-- Settles O41: stage 3 in binary64, with the factor exactly 2^−N. -/
theorem estimateThirdStepScales : Obligations.EstimateThirdStepScales := by
  unfold Obligations.EstimateThirdStepScales
  intro s w x n p hn1 hn18 hstate hcancel htagl hwork
  obtain ⟨b, hb, hresp, hlast, hkept⟩ := scaleStage_eq_ok binary64 s.env.draws n s.mem.ir htagl hwork
  refine ⟨b, s.env.draws + p, ?_, hresp, hlast, hkept, Binary64.pow2neg_finite n, Binary64.value_pow2neg (by omega)⟩
  rw [exec_estimate_permuteScale hstate, estimateScale_of_ok hcancel hb]
  rfl

end Sys2Proof.Machine
end

section
/-!
SUPPORT. What a command's step can change, said once for all six commands (10_state.md R33, R37, R249): `exec_command_next`.
-/

namespace Sys2Proof.Machine

/-! ### Who may change which buffer -/

/-- `m'` is `m` with only the buffers changed that instruction `i` may change (R37). -/
structure OnlyWrites (i : Instr) (m m' : Memory) : Prop where
  mls : i ≠ .genseq → m'.mls = m.mls
  probe : i ≠ .bipolar → m'.probe = m.probe
  tags : (i ≠ .gentags ∧ ∀ idx dat, i ≠ .wrTags idx dat) → m'.tags = m.tags
  tagl : (i ≠ .gentagl ∧ ∀ idx dat, i ≠ .wrTagl idx dat) → m'.tagl = m.tagl
  recd : (∀ idx dat, i ≠ .wrRec idx dat) → m'.recd = m.recd
  work : (i ≠ .estimate ∧ i ≠ .fht ∧ ∀ idx dat, i ≠ .wrWork idx dat) → m'.work = m.work
  ir : i ≠ .estimate → m'.ir = m.ir

theorem OnlyWrites.refl (i : Instr) (m : Memory) : OnlyWrites i m m :=
  ⟨fun _ => rfl, fun _ => rfl, fun _ => rfl, fun _ => rfl, fun _ => rfl, fun _ => rfl, fun _ => rfl⟩

/-! ### How the step of a command ends -/

/-- The step of command `i` finishes, reports an error or moves ESTIMATE to its next step, in a state that differs from `s` in
no more than the buffers `i` writes, SEQN if `i` is GENSEQ, CANCEL and what stands around the block. -/
inductive CommandStep (i : Instr) (s : State) : State → Prop
  | finished {m : Memory} {q : Word32} {e : Env} (hm : OnlyWrites i s.mem m)
      (hq : q = s.seqn ∨ i = .genseq ∧ q = s.curN) :
      CommandStep i s (finish { s with mem := m, seqn := q, env := e })
  | errored {code : ErrCode} {stage : ErrStage} {a0 a1 : Word32} {m : Memory} {c : Bool} (hm : OnlyWrites i s.mem m)
      (hc : code ≠ .none) : CommandStep i s (raiseError code stage a0 a1 { s with mem := m, cancel := c })
  | moved {m : Memory} {e : Env} {st : EngineState} (hm : OnlyWrites i s.mem m)
      (hst : st = .transform ∨ st = .permuteScale) : CommandStep i s (setState st { s with mem := m, env := e })

/-- An error raised before anything was written. -/
theorem CommandStep.error (i : Instr) {code : ErrCode} (hc : code ≠ .none) (stage : ErrStage) (a0 a1 : Word32)
    (s : State) : CommandStep i s (raiseError code stage a0 a1 s) :=
  .errored (.refl i s.mem) hc

theorem execGenseq_commandStep {s t : State} (h : execGenseq s = .next t) : CommandStep .genseq s t := by
  rcases execGenseq_next h with ⟨-, rfl⟩ | ⟨m, -, rfl⟩
  · exact .error _ (by decide) _ _ _ s
  · exact .finished (by constructor <;> simp) (.inr ⟨rfl, rfl⟩)

theorem execBipolar_commandStep {s t : State} (h : execBipolar s = .next t) : CommandStep .bipolar s t := by
  rcases execBipolar_next h with ⟨-, rfl⟩ | ⟨-, -, rfl⟩ | ⟨-, -, vs, -, rfl⟩
  · exact .error _ (by decide) _ _ _ s
  · exact .error _ (by decide) _ _ _ s
  · exact .finished (by constructor <;> simp) (.inl rfl)

theorem execGentags_commandStep {s t : State} (h : execGentags s = .next t) : CommandStep .gentags s t := by
  rcases execGentags_next h with ⟨-, rfl⟩ | ⟨-, -, rfl⟩ | ⟨-, -, ws, -, rfl | ⟨f, rfl⟩⟩
  · exact .error _ (by decide) _ _ _ s
  · exact .error _ (by decide) _ _ _ s
  · exact .finished (by constructor <;> simp) (.inl rfl)
  · exact .errored (by constructor <;> simp) (by decide)

theorem execGentagl_commandStep {s t : State} (h : execGentagl s = .next t) : CommandStep .gentagl s t := by
  rcases execGentagl_next h with
    ⟨-, rfl⟩ | ⟨-, -, rfl⟩ | ⟨-, -, cs, -, ⟨j, -, rfl⟩ | ⟨index, ts, -, -, rfl | ⟨f, rfl⟩⟩⟩
  · exact .error _ (by decide) _ _ _ s
  · exact .error _ (by decide) _ _ _ s
  · exact .error _ (by decide) _ _ _ s
  · exact .finished (by constructor <;> simp) (.inl rfl)
  · exact .errored (by constructor <;> simp) (by decide)

theorem execFht_commandStep {s t : State} (h : execFht s = .next t) : CommandStep .fht s t := by
  rcases execFht_next h with ⟨-, rfl⟩ | ⟨-, -, rfl⟩ | ⟨-, -, work, -, rfl⟩
  · exact .error _ (by decide) _ _ _ s
  · exact .error _ (by decide) _ _ _ s
  · exact .finished (by constructor <;> simp) (.inl rfl)

theorem estimatePermute_commandStep {s t : State} (h : estimatePermute s = .next t) : CommandStep .estimate s t := by
  rcases estimatePermute_next h with ⟨-, rfl⟩ | ⟨-, -, rfl⟩ | ⟨f, which, -, rfl⟩ | ⟨-, -, -, -, work, -, rfl⟩
  · exact .error _ (by decide) _ _ _ s
  · exact .error _ (by decide) _ _ _ s
  · exact .error _ (by decide) _ _ _ s
  · exact .moved (by constructor <;> simp) (.inl rfl)

theorem estimateTransform_commandStep {s t : State} (h : estimateTransform s = .next t) :
    CommandStep .estimate s t := by
  rcases estimateTransform_next h with ⟨-, rfl⟩ | ⟨-, work, -, rfl⟩
  · exact .errored (.refl _ _) (by decide)
  · exact .moved (by constructor <;> simp) (.inr rfl)

theorem estimateScale_commandStep {s t : State} (h : estimateScale s = .next t) : CommandStep .estimate s t := by
  rcases estimateScale_next h with ⟨-, rfl⟩ | ⟨-, ir, -, rfl⟩
  · exact .errored (.refl _ _) (by decide)
  · exact .finished (by constructor <;> simp) (.inl rfl)

/-- What the step of any of the six commands can do. -/
theorem exec_command_next {i : Instr} {s t : State} (hi : i.isCommand = true) (h : exec i s = .next t) :
    CommandStep i s t := by
  cases i with
  | genseq => exact execGenseq_commandStep h
  | bipolar => exact execBipolar_commandStep h
  | gentags => exact execGentags_commandStep h
  | gentagl => exact execGentagl_commandStep h
  | fht => exact execFht_commandStep h
  | estimate =>
    rcases execEstimate_next h with ⟨-, h⟩ | ⟨-, h⟩ | ⟨-, h⟩
    · exact estimatePermute_commandStep h
    · exact estimateTransform_commandStep h
    · exact estimateScale_commandStep h
  | _ => simp [Instr.isCommand] at hi

/-! ### Consequences for the buffers, SEQN, the operand registers and the latches -/

theorem regWrite_mem (idx : Nat) (v : Word32) (s : State) : (regWrite idx v s).mem = s.mem := by
  rcases regWrite_cases idx v s with ⟨-, h⟩ | ⟨-, h⟩ | ⟨-, h⟩ | ⟨-, h⟩ | ⟨-, h⟩ | ⟨-, h⟩ <;> simp [h]

theorem regWrite_seqn (idx : Nat) (v : Word32) (s : State) : (regWrite idx v s).seqn = s.seqn := by
  rcases regWrite_cases idx v s with ⟨-, h⟩ | ⟨-, h⟩ | ⟨-, h⟩ | ⟨-, h⟩ | ⟨-, h⟩ | ⟨-, h⟩ <;> simp [h]

theorem CommandStep.onlyWrites {i : Instr} {s t : State} (h : CommandStep i s t) : OnlyWrites i s.mem t.mem := by
  cases h <;> assumption

theorem exec_host_onlyWrites {i : Instr} {s t : State} (hi : i.isCommand = false) (h : exec i s = .next t) :
    OnlyWrites i s.mem t.mem := by
  rcases exec_host_next hi h with ⟨v, rfl⟩ | ⟨idx, v, -, rfl⟩ |
    ⟨-, ⟨idx, v, -, rfl, rfl⟩ | ⟨idx, v, -, rfl, rfl⟩ | ⟨idx, v, -, rfl, rfl⟩ | ⟨idx, v, -, rfl, rfl⟩⟩ | ⟨-, rfl⟩
  · exact .refl i s.mem
  · exact regWrite_mem idx _ s ▸ .refl i s.mem
  · constructor <;> simp
  · constructor <;> simp
  · constructor <;> simp
  · constructor <;> simp
  · exact .refl i _

/-- Settles O52: a command writes what `exec_command_next` says, a transaction what `exec_host_next` says. -/
theorem onlyTheWritersChangeABuffer : Obligations.OnlyTheWritersChangeABuffer := by
  unfold Obligations.OnlyTheWritersChangeABuffer
  intro i s t h
  have hw : OnlyWrites i s.mem t.mem := by
    cases hi : i.isCommand with
    | true => exact (exec_command_next hi h).onlyWrites
    | false => exact exec_host_onlyWrites hi h
  exact ⟨hw.mls, hw.probe, hw.tags, hw.tagl, hw.recd, hw.work, hw.ir⟩

theorem CommandStep.seqn {i : Instr} {s t : State} (h : CommandStep i s t) :
    t.seqn = s.seqn ∨ i = .genseq ∧ t.seqn = s.curN := by
  cases h with
  | finished hm hq => exact hq
  | errored hm hc => exact .inl rfl
  | moved hm hst => exact .inl rfl

theorem CommandStep.operands {i : Instr} {s t : State} (h : CommandStep i s t) :
    t.order = s.order ∧ t.reclen = s.reclen ∧ t.worklen = s.worklen ∧ t.curCmd = s.curCmd ∧ t.curN = s.curN ∧
      t.curReclen = s.curReclen ∧ t.curWorklen = s.curWorklen := by
  cases h <;> exact ⟨rfl, rfl, rfl, rfl, rfl, rfl, rfl⟩

theorem exec_host_seqn {i : Instr} {s t : State} (hi : i.isCommand = false) (h : exec i s = .next t) :
    t.seqn = s.seqn := by
  rcases exec_host_next hi h with ⟨v, rfl⟩ | ⟨idx, v, -, rfl⟩ |
    ⟨-, ⟨idx, v, -, -, rfl⟩ | ⟨idx, v, -, -, rfl⟩ | ⟨idx, v, -, -, rfl⟩ | ⟨idx, v, -, -, rfl⟩⟩ | ⟨-, rfl⟩
  case inr.inl => exact regWrite_seqn idx _ s
  all_goals rfl

/-- Settles O53: a host transaction keeps SEQN, and a command changes no more than `exec_command_next` says. -/
theorem onlyGenseqChangesSeqn : Obligations.OnlyGenseqChangesSeqn := by
  unfold Obligations.OnlyGenseqChangesSeqn
  intro i s t h
  cases hi : i.isCommand with
  | false =>
    have hq := exec_host_seqn hi h
    exact ⟨fun _ => hq, .inl hq, fun hc => by cases hc⟩
  | true =>
    have hstep := exec_command_next hi h
    refine ⟨fun hne => hstep.seqn.resolve_right fun hg => hne hg.1, ?_, fun _ => hstep.operands⟩
    exact hstep.seqn.imp_right And.right

end Sys2Proof.Machine
end

section
/-!
SUPPORT. The invariants of STATUS alone (10_state.md R25, R26).
-/

namespace Sys2Proof.Machine

theorem statusInv_reset : StatusInv Status.reset := by
  unfold StatusInv
  decide

theorem statusInv_accepted (v : Word32) : StatusInv (Status.accepted v) := by
  by_cases h : v = estimateWord <;> simp [StatusInv, h]

theorem StatusInv.finished {st : Status} (h : StatusInv st) : StatusInv st.finished := by
  obtain ⟨-, herr, hnone, -⟩ := h
  exact ⟨by simp, fun he => ⟨rfl, (herr he).2⟩, hnone, by simp⟩

theorem statusInv_errored (st : Status) {code : ErrCode} (hc : code ≠ .none) (stage : ErrStage) (cmd : BitVec 4) :
    StatusInv (st.errored code stage cmd) := by
  simp [StatusInv, hc]

theorem StatusInv.overrun {st : Status} (h : StatusInv st) : StatusInv st.overrun := h

/-- Only while a command runs may STATE move to one of ESTIMATE's steps. -/
theorem StatusInv.withState {st : Status} (h : StatusInv st) (hb : st.busy = true) {e : EngineState}
    (he : e = .transform ∨ e = .permuteScale) : StatusInv (st.withState e) := by
  obtain ⟨hbusy, herr, hnone, -⟩ := h
  refine ⟨hbusy, herr, hnone, fun _ => ?_, fun _ => hb⟩
  rcases he with rfl | rfl <;> simp

theorem StatusInv.accept {s : State} (h : StatusInv s.status) (v : Word32) : StatusInv (accept v s).status := by
  cases hb : s.status.busy with
  | true =>
    rw [accept_of_busy hb]
    exact h.overrun
  | false =>
    rw [accept_of_idle hb]
    exact statusInv_accepted v

theorem CommandStep.statusInv {i : Instr} {s t : State} (hstep : CommandStep i s t) (h : StatusInv s.status)
    (hb : s.status.busy = true) : StatusInv t.status := by
  cases hstep with
  | finished hm hq => exact h.finished
  | errored hm hc => exact statusInv_errored _ hc _ _
  | moved hm hst => exact h.withState hb hst

theorem exec_host_statusInv {i : Instr} {s t : State} (hi : i.isCommand = false) (h : exec i s = .next t)
    (hinv : StatusInv s.status) : StatusInv t.status := by
  rcases exec_host_next hi h with ⟨v, rfl⟩ | ⟨idx, v, -, rfl⟩ |
    ⟨-, ⟨idx, v, -, -, rfl⟩ | ⟨idx, v, -, -, rfl⟩ | ⟨idx, v, -, -, rfl⟩ | ⟨idx, v, -, -, rfl⟩⟩ | ⟨-, rfl⟩
  case inr.inl =>
    rcases regWrite_cases idx (lowData v) s with ⟨-, hr⟩ | ⟨-, hr⟩ | ⟨-, hr⟩ | ⟨-, hr⟩ | ⟨-, hr⟩ | ⟨-, hr⟩ <;> rw [hr]
    case inl => exact hinv.accept _
    all_goals exact hinv
  all_goals exact hinv

theorem decodeCommand_isCommand {w : Word32} {i : Instr} (h : decodeCommand w = .ok i) : i.isCommand = true := by
  unfold decodeCommand at h
  split at h
  · cases h
  · split at h <;> cases h <;> rfl

theorem decodeTxn_isCommand (t : Txn) : (decodeTxn t).isCommand = false := by
  unfold decodeTxn
  split <;> rfl

/-- Settles O48: an engine step ends the command or moves ESTIMATE on while BUSY = 1; of the host's, only an accept changes
STATUS in more than OVR. -/
theorem stepKeepsStatusConsistent : Obligations.StepKeepsStatusConsistent := by
  unfold Obligations.StepKeepsStatusConsistent
  intro s t hinv h
  rcases step_cases s with ⟨hb, i, hd, hs⟩ | ⟨-, -, hs⟩ | ⟨x, ops, hs⟩ | ⟨ops, hs⟩ | ⟨ops, hs⟩ | hs <;> rw [hs] at h
  · exact (exec_command_next (decodeCommand_isCommand hd) h).statusInv hinv hb
  · obtain rfl := next_inj h
    exact statusInv_errored _ (by decide) _ _
  · exact exec_host_statusInv (decodeTxn_isCommand x) h hinv
  · exact exec_host_statusInv rfl h hinv
  · obtain rfl := next_inj h
    exact statusInv_reset
  · obtain rfl := next_inj h
    exact hinv

end Sys2Proof.Machine
end

section
/-!
SUPPORT. The STATUS word and the reset (10_state.md R25 to R28, R50; 70_reset_and_hazards.md R240).
-/

namespace Sys2Proof.Machine

/-! ### The fields of the STATUS word -/

/-- The fields of several bits: what `word` appends below one is skipped, what it appends above is cut off. -/
theorem word_fields (st : Status) :
    st.word.extractLsb' 4 4 = st.errcode.code ∧ st.word.extractLsb' 8 4 = st.errcmd ∧
      st.word.extractLsb' 12 3 = st.state.code ∧ st.word.extractLsb' 16 3 = st.errstage.code ∧
      st.word.extractLsb' 19 13 = 0#13 := by
  simp (disch := decide) only [Status.word, BitVec.extractLsb'_append_eq_of_le, BitVec.extractLsb'_append_eq_right,
    BitVec.extractLsb'_eq_self, Nat.reduceSub, and_self]

/-- The four flags and the reserved bit 15, where `word` appends them. -/
theorem word_bits (st : Status) :
    st.word.getLsbD 0 = st.busy ∧ st.word.getLsbD 1 = st.done ∧ st.word.getLsbD 2 = st.err ∧
      st.word.getLsbD 3 = st.ovr ∧ st.word.getLsbD 15 = false := by
  simp only [Status.word, BitVec.getLsbD_append]
  simp

/-- Settles O12: each field is where `word` appends it, with the code of its value. -/
theorem statusWordLayout : Obligations.StatusWordLayout := by
  unfold Obligations.StatusWordLayout
  intro st
  obtain ⟨hbusy, hdone, herr, hovr, hreserved⟩ := word_bits st
  obtain ⟨herrcode, herrcmd, hstate, herrstage, hhigh⟩ := word_fields st
  rw [herrcode, hstate, herrstage]
  refine ⟨hbusy, hdone, herr, hovr, ?_, herrcmd, ?_, hreserved, ?_, hhigh⟩
  · cases st.errcode <;> rfl
  · cases st.state <;> rfl
  · cases st.errstage <;> rfl

/-! ### The reset -/

theorem step_of_reset_turn {s : State} {turns : List Turn} (ht : s.env.turns = .reset :: turns) :
    step s = .next (resetEvent (takeTurn s)) :=
  step_of_moved (by simp [fetch, nextMove, ht])

theorem step_of_host_reset {s : State} {ops : List HostOp} (hm : nextMove s = .host)
    (hp : s.env.program = .reset :: ops) : step s = .next (resetEvent (setProgram ops (takeTurn s))) :=
  step_of_moved (by simp [fetch, hm, hostFetch, hp])

/-- Settles O9: both forms are the reset event, which leaves nothing of the block's state. -/
theorem resetGivesEveryPartItsResetValue : Obligations.ResetGivesEveryPartItsResetValue := by
  unfold Obligations.ResetGivesEveryPartItsResetValue
  intro s ops turns h
  have hstep : ∃ u, step s = .next (resetEvent u) ∧ u.env.program = ops ∧ u.env.turns = turns := by
    rcases h with ⟨ht, hp⟩ | ⟨ht, hp⟩
    · exact ⟨_, step_of_reset_turn ht, hp.symm, by simp [ht]⟩
    · exact ⟨_, step_of_host_reset (nextMove_host ht (by simp [hp])) hp, rfl, by simp [ht]⟩
  obtain ⟨u, hu, hprog, hturns⟩ := hstep
  have hword : Status.reset.word = 0 := by decide
  have hctrl : ctrlWord false = 0 := by decide
  exact ⟨_, hu, hword, hctrl, rfl, rfl, rfl, rfl, rfl, rfl, rfl, rfl, rfl, rfl, rfl,
    fun _ => ⟨rfl, rfl, rfl, rfl, rfl, rfl, rfl⟩, hprog, hturns⟩

/-- The reset state meets the invariant whatever stands around it: nothing is written, no command runs and SEQN is 0. -/
theorem inv_resetEvent (s : State) : Inv (resetEvent s) where
  memory := Memory.reset_wf
  status := statusInv_reset
  command := fun hb => by cases hb
  seqn := .inl rfl
  probe := fun i v hv => by simp [State.reset, Memory.reset] at hv
  pipeline := fun he => by simp [State.reset, Status.reset] at he

/-- Settles O46: the reset event leads from the reset state to itself. -/
theorem resetMeetsTheInvariant : Obligations.ResetMeetsTheInvariant :=
  inv_resetEvent State.reset

end Sys2Proof.Machine
end

section
/-!
SUPPORT. No command looks at ORDER, RECLEN or WORKLEN (10_state.md R46; 70_reset_and_hazards.md R245): each shared operation
goes on with other values there as it does with its own.
-/

namespace Sys2Proof.Machine

/-- `s` with these values in ORDER, RECLEN and WORKLEN. -/
def withLive (o r w : Word32) (s : State) : State := { s with order := o, reclen := r, worklen := w }

theorem mapNext_withRead {α : Type} (f : State → State) (x : Except Fault α) (go : α → Result) :
    mapNext f (withRead x go) = withRead x fun v => mapNext f (go v) := by
  cases x <;> rfl

theorem mapNext_ite (f : State → State) (c : Prop) [Decidable c] (a b : Result) :
    mapNext f (if c then a else b) = if c then mapNext f a else mapNext f b := by
  split <;> rfl

theorem checkGenerated_withLive (o r w : Word32) (sp : Space) (b : Buf Word32) (p which : Nat) (s : State) :
    checkGenerated sp b p which (withLive o r w s) = mapNext (withLive o r w) (checkGenerated sp b p which s) := by
  rw [checkGenerated, checkGenerated, mapNext_withRead]
  congr 1
  funext x
  cases x <;> rfl

theorem checkSupplied_withLive (o r w : Word32) (sp : Space) (b : Buf Word32) (p which : Nat) (s : State) (go : Result) :
    checkSupplied sp b p which (withLive o r w s) (mapNext (withLive o r w) go) =
      mapNext (withLive o r w) (checkSupplied sp b p which s go) := by
  rw [checkSupplied, checkSupplied, mapNext_withRead]
  congr 1
  funext x
  cases x <;> rfl

theorem execGenseq_withLive (o r w : Word32) (s : State) :
    execGenseq (withLive o r w s) = mapNext (withLive o r w) (execGenseq s) := by
  simp only [execGenseq, withLive]
  split <;> rfl

theorem execBipolar_withLive (o r w : Word32) (s : State) :
    execBipolar (withLive o r w s) = mapNext (withLive o r w) (execBipolar s) := by
  simp only [execBipolar, mapNext_ite, mapNext_withRead]
  rfl

theorem execGentags_withLive (o r w : Word32) (s : State) :
    execGentags (withLive o r w s) = mapNext (withLive o r w) (execGentags s) := by
  simp only [execGentags, mapNext_ite, mapNext_withRead, ← checkGenerated_withLive]
  rfl

theorem execGentagl_withLive (o r w : Word32) (s : State) :
    execGentagl (withLive o r w s) = mapNext (withLive o r w) (execGentagl s) := by
  simp only [execGentagl, mapNext_ite, mapNext_withRead]
  congr 3
  funext colSum
  dsimp only [withLive]
  split
  · rfl
  · simp only [mapNext_withRead, ← checkGenerated_withLive]
    rfl

theorem execFht_withLive (o r w : Word32) (s : State) :
    execFht (withLive o r w s) = mapNext (withLive o r w) (execFht s) := by
  simp only [execFht, mapNext_ite, mapNext_withRead]
  rfl

theorem execEstimate_withLive (o r w : Word32) (s : State) :
    execEstimate (withLive o r w s) = mapNext (withLive o r w) (execEstimate s) := by
  have h1 : estimatePermute (withLive o r w s) = mapNext (withLive o r w) (estimatePermute s) := by
    simp only [estimatePermute, mapNext_ite, mapNext_withRead, ← checkSupplied_withLive]
    rfl
  have h2 : estimateTransform (withLive o r w s) = mapNext (withLive o r w) (estimateTransform s) := by
    simp only [estimateTransform, mapNext_ite, mapNext_withRead]
    rfl
  have h3 : estimateScale (withLive o r w s) = mapNext (withLive o r w) (estimateScale s) := by
    simp only [estimateScale, mapNext_ite, mapNext_withRead]
    rfl
  simp only [execEstimate, h1, h2, h3]
  dsimp only [withLive]
  split <;> rfl

/-- Settles O51: one lemma for each command. -/
theorem commandsIgnoreTheLiveRegisters : Obligations.CommandsIgnoreTheLiveRegisters := by
  unfold Obligations.CommandsIgnoreTheLiveRegisters
  intro s o r w i hi
  cases i with
  | genseq => exact execGenseq_withLive o r w s
  | bipolar => exact execBipolar_withLive o r w s
  | gentags => exact execGentags_withLive o r w s
  | gentagl => exact execGentagl_withLive o r w s
  | fht => exact execFht_withLive o r w s
  | estimate => exact execEstimate_withLive o r w s
  | _ => simp [Instr.isCommand] at hi

end Sys2Proof.Machine
end

section
/-!
SUPPORT. What the commands' loops leave in the buffers they write (40_sequence.md R112, R115; 41_tags.md R131 to R134;
42_transform.md R150; 43_pipeline.md R161, R163): lengths, the canonical form, and which elements are written.
-/

namespace Sys2Proof.Machine

/-! ### GENSEQ, BIPOLAR and the tag generators -/

/-- GENSEQ leaves the samples of its order and mask in MLS[0..P−1]. -/
theorem holds_sequence (mls : Buf Bit) (n m : Nat) :
    Holds (mls.writeRun 0 (sequence n m)) (seqLen n) (sample n m) := by
  intro i hi
  have hlt : i < (sequence n m).length := by rwa [sequence_length]
  rw [Buf.read_writeRun_lt _ _ hlt, sample, List.getElem?_eq_getElem hlt, List.getD_eq_getElem _ _ hlt]

theorem bipolarRun_ok {α : Type} {num : Num α} {mls : Buf Bit} {p : Nat} {vs : List α}
    (h : bipolarRun num mls p = .ok vs) : vs.length = p ∧ ∀ v ∈ vs, v = num.one ∨ v = num.negOne := by
  obtain ⟨hlen, hval⟩ := forRange_ok_iff.mp h
  refine ⟨hlen, fun v hv => ?_⟩
  obtain ⟨k, hk, rfl⟩ := List.getElem_of_mem hv
  have hstep := hval k hk
  split at hstep
  · cases hstep
  · next b _ =>
    rw [← Except.ok.inj hstep, bipolar]
    split <;> simp

theorem windows_length {mls : Buf Bit} {n : Nat} {ws : List Nat} (h : windows mls n = .ok ws) :
    ws.length = seqLen n :=
  (forRange_ok_iff.mp h).1

theorem inverseTags_length {mls : Buf Bit} {index : List Nat} {p : Nat} {ts : List Nat}
    (h : inverseTags mls index p = .ok ts) : ts.length = p :=
  (forRange_ok_iff.mp h).1

/-! ### The transform -/

/-- HT replaces elements 0 to L − 1 by one run, or with L = 1 does nothing. -/
theorem transform_ok {α : Type} {num : Num α} {d n : Nat} {work work' : Buf α}
    (h : transform num d work n = .ok work') :
    (n = 0 ∧ work' = work) ∨ ∃ vs, vs.length = workLen n ∧ work' = work.writeRun 0 vs := by
  cases n with
  | zero => exact .inl ⟨rfl, (Except.ok.inj h).symm⟩
  | succ k =>
    simp only [transform] at h
    split at h
    · cases h
    · next ps hps =>
      have hlen : ps.length = 2 ^ k := (forRange_ok_iff.mp hps).1
      refine .inr ⟨_, hadamard_length num (k + 1) d _ ?_, (Except.ok.inj h).symm⟩
      simp [hlen]
      omega

theorem transform_wfFrom {α : Type} {num : Num α} {d n : Nat} {work work' : Buf α} (hn : n ≤ 18)
    (hw : Buf.wfFrom Config.capWork 0 work = true) (h : transform num d work n = .ok work') :
    Buf.wfFrom Config.capWork 0 work' = true := by
  rcases transform_ok h with ⟨-, rfl⟩ | ⟨vs, hlen, rfl⟩
  · exact hw
  · exact Buf.wfFrom_writeRun hw (Nat.le_refl 0) (by rw [hlen, Nat.zero_add]; exact workLen_le_capWork hn)

theorem written_writeRun {α : Type} (b : Buf α) (vs : List α) : Written (b.writeRun 0 vs) vs.length := by
  intro i hi
  rw [Buf.read_writeRun_lt _ _ hi]
  simpa using hi

theorem transform_written {α : Type} {num : Num α} {d n : Nat} {work work' : Buf α}
    (hw : Written work (workLen n)) (h : transform num d work n = .ok work') : Written work' (workLen n) := by
  rcases transform_ok h with ⟨-, rfl⟩ | ⟨vs, hlen, rfl⟩
  · exact hw
  · exact hlen ▸ written_writeRun work vs

/-! ### A checked tag array -/

/-- No index offends exactly when the values lie in [1, P], differ from each other and are none of those seen before. -/
theorem firstOffender_eq_none_iff {p : Nat} {seen : List Word32} {i : Nat} {vs : List Word32} :
    firstOffender p seen i vs = none ↔ (∀ v ∈ vs, (1 ≤ v.toNat ∧ v.toNat ≤ p) ∧ v ∉ seen) ∧ vs.Nodup := by
  induction vs generalizing seen i with
  | nil => simp [firstOffender]
  | cons v vs ih =>
    simp only [firstOffender, List.forall_mem_cons, List.nodup_cons]
    split
    · next hbad =>
      simp only [reduceCtorEq, false_iff]
      rintro ⟨⟨⟨hrange, hnew⟩, -⟩, -⟩
      rcases hbad with h | h | h
      · omega
      · omega
      · exact hnew h
    · next hgood =>
      simp only [not_or, Nat.not_lt] at hgood
      obtain ⟨hlow, hhigh, hnew⟩ := hgood
      rw [ih]
      simp only [List.mem_cons, not_or]
      constructor
      · rintro ⟨hvs, hnodup⟩
        exact ⟨⟨⟨⟨hlow, hhigh⟩, hnew⟩, fun x hx => ⟨(hvs x hx).1, (hvs x hx).2.2⟩⟩,
          fun hmem => (hvs v hmem).2.1 rfl, hnodup⟩
      · rintro ⟨⟨-, hvs⟩, hmem, hnodup⟩
        exact ⟨fun x hx => ⟨(hvs x hx).1, fun he => hmem (he ▸ hx), (hvs x hx).2⟩, hnodup⟩

/-- An array in which FirstBad finds nothing is a bijection onto 1, …, P (R132). -/
theorem checkedTags_of_firstBad {sp : Space} {b : Buf Word32} {p : Nat} (h : firstBad sp b p = .ok none) :
    CheckedTags b p := by
  obtain ⟨vs, hlen, hread, hnone⟩ := firstBad_ok_iff.mp h
  obtain ⟨hrange, hnodup⟩ := firstOffender_eq_none_iff.mp hnone
  have hget : ∀ i (hi : i < p), vs.getD i 0 = vs[i] := fun i hi => List.getD_eq_getElem _ _ _
  refine ⟨fun i => vs.getD i 0, fun i hi => ?_, fun i hi => ?_, fun i j hi hj hij => ?_⟩
  · simp only [hget i hi]
    exact hread i (hlen ▸ hi)
  · simp only [hget i hi]
    exact (hrange _ (List.getElem_mem _)).1
  · simp only [hget i hi, hget j hj] at hij
    exact (hnodup.getElem_inj_iff).mp (BitVec.eq_of_toNat_eq hij)

/-- A one-to-one map of [0, P) into {1, …, P} takes every value there. -/
theorem Bijective.surjective {v : Nat → Nat} {p : Nat} (h : Bijective v p) {k : Nat} (h1 : 1 ≤ k) (hk : k ≤ p) :
    ∃ i, i < p ∧ v i = k := by
  obtain ⟨hrange, hinj⟩ := h
  have hsub : (Finset.range p).image v ⊆ Finset.Icc 1 p := by
    intro x hx
    obtain ⟨i, hi, rfl⟩ := Finset.mem_image.mp hx
    exact Finset.mem_Icc.mpr (hrange i (Finset.mem_range.mp hi))
  have hcard : ((Finset.range p).image v).card = p := by
    rw [Finset.card_image_of_injOn, Finset.card_range]
    exact fun i hi j hj hij => hinj i j (by simpa using hi) (by simpa using hj) hij
  have himage : (Finset.range p).image v = Finset.Icc 1 p :=
    Finset.eq_of_subset_of_card_le hsub (by rw [hcard, Nat.card_Icc, Nat.add_sub_cancel])
  have hmem : k ∈ (Finset.range p).image v := himage ▸ Finset.mem_Icc.mpr ⟨h1, hk⟩
  obtain ⟨i, hi, hik⟩ := Finset.mem_image.mp hmem
  exact ⟨i, Finset.mem_range.mp hi, hik⟩

/-! ### The stages of ESTIMATE -/

theorem Buf.isSome_read_write {α : Type} (b : Buf α) (i : Nat) (v : α) {k : Nat}
    (h : k = i ∨ (Buf.read b k).isSome = true) : (Buf.read (Buf.write b i v) k).isSome = true := by
  by_cases hk : k = i
  · rw [hk, Buf.read_write_same]
    rfl
  · rw [Buf.read_write_other b v hk]
    exact h.resolve_left hk

/-- What a list of writes names is written after them, and what was written stays so. -/
theorem Buf.isSome_read_writeAll {α : Type} (ps : List (Nat × α)) (b : Buf α) {k : Nat}
    (h : (∃ v, (k, v) ∈ ps) ∨ (Buf.read b k).isSome = true) : (Buf.read (Buf.writeAll b ps) k).isSome = true := by
  induction ps generalizing b with
  | nil => simpa [Buf.writeAll] using h
  | cons c rest ih =>
    obtain ⟨i, w⟩ := c
    rw [Buf.writeAll]
    refine ih _ ?_
    rcases h with ⟨v, hv⟩ | h
    · rcases List.mem_cons.mp hv with heq | hmem
      · exact .inr (Buf.isSome_read_write b i w (.inl (Prod.mk.inj heq).1))
      · exact .inl ⟨v, hmem⟩
    · exact .inr (Buf.isSome_read_write b i w (.inr h))

/-- The addresses that stage 1 reads are the tags. -/
theorem readPermutation_ok {α : Type} {tags : Buf Word32} {recd : Buf α} {p : Nat} {ps : List (Nat × α)}
    (h : readPermutation tags recd p = .ok ps) :
    ps.length = p ∧ ∀ k (hk : k < ps.length), ∃ t, Buf.read tags k = some t ∧ ps[k].1 = t.toNat := by
  obtain ⟨hlen, hval⟩ := forRange_ok_iff.mp h
  refine ⟨hlen, fun k hk => ?_⟩
  have hstep := hval k hk
  rw [Nat.zero_add] at hstep
  split at hstep
  · cases hstep
  · next t ht =>
    split at hstep
    · cases hstep
    · exact ⟨t, bufRead_ok_iff.mp ht, by rw [← Except.ok.inj hstep]⟩

theorem permuteStage_ok {α : Type} {num : Num α} {d p : Nat} {tags : Buf Word32} {recd work work' : Buf α}
    (h : permuteStage num d tags recd work p = .ok work') :
    ∃ dc ps, readPermutation tags recd p = .ok ps ∧ work' = (work.write 0 dc).writeAll ps := by
  unfold permuteStage at h
  split at h
  · cases h
  · split at h
    · cases h
    · next ps hps => exact ⟨_, ps, hps, (Except.ok.inj h).symm⟩

/-- Stage 1 with checked tags writes within WORK's capacity. -/
theorem permuteStage_wfFrom {α : Type} {num : Num α} {d p : Nat} {tags : Buf Word32} {recd work work' : Buf α}
    (hp : p < Config.capWork) (htags : CheckedTags tags p) (hw : Buf.wfFrom Config.capWork 0 work = true)
    (h : permuteStage num d tags recd work p = .ok work') : Buf.wfFrom Config.capWork 0 work' = true := by
  obtain ⟨dc, ps, hps, rfl⟩ := permuteStage_ok h
  obtain ⟨hlen, haddr⟩ := readPermutation_ok hps
  obtain ⟨v, hv, hrange, -⟩ := htags
  refine Buf.wfFrom_writeAll ps (Buf.wfFrom_write hw dc (Nat.le_refl 0) (by omega)) fun c hc => ⟨Nat.zero_le _, ?_⟩
  obtain ⟨k, hk, rfl⟩ := List.getElem_of_mem hc
  obtain ⟨t, ht, hkt⟩ := haddr k hk
  rw [hv k (by omega)] at ht
  have hle : (v k).toNat ≤ p := (hrange k (by omega)).2
  rw [hkt, ← Option.some.inj ht]
  omega

/-- Stage 1 with checked tags writes element 0 and, as the tags take every value from 1 to P, the elements up to P. -/
theorem permuteStage_written {α : Type} {num : Num α} {d p : Nat} {tags : Buf Word32} {recd work work' : Buf α}
    (htags : CheckedTags tags p) (h : permuteStage num d tags recd work p = .ok work') : Written work' (p + 1) := by
  obtain ⟨dc, ps, hps, rfl⟩ := permuteStage_ok h
  obtain ⟨hlen, haddr⟩ := readPermutation_ok hps
  obtain ⟨v, hv, hbij⟩ := htags
  intro k hk
  refine Buf.isSome_read_writeAll ps _ ?_
  by_cases hk0 : k = 0
  · exact .inr (Buf.isSome_read_write work 0 dc (.inl hk0))
  · obtain ⟨i, hi, hik⟩ := hbij.surjective (k := k) (by omega) (by omega)
    obtain ⟨t, ht, hit⟩ := haddr i (by omega)
    rw [hv i hi] at ht
    have hadr : (k, ps[i].2) = ps[i] := by rw [← hik, Option.some.inj ht, ← hit]
    exact .inl ⟨ps[i].2, hadr ▸ List.getElem_mem _⟩

/-- Stage 3 writes IR[0..P]. -/
theorem scaleStage_wfFrom {α : Type} {num : Num α} {d n : Nat} {tagl : Buf Word32} {work ir ir' : Buf α} (hn : n ≤ 18)
    (hw : Buf.wfFrom Config.capWork 0 ir = true) (h : scaleStage num d n tagl work ir = .ok ir') :
    Buf.wfFrom Config.capWork 0 ir' = true := by
  unfold scaleStage at h
  split at h
  · cases h
  · next vs hvs =>
    obtain rfl := Except.ok.inj h
    have hlen : vs.length = seqLen n := (forRange_ok_iff.mp hvs).1
    refine Buf.wfFrom_writeRun hw (Nat.le_refl 0) ?_
    rw [Nat.zero_add, List.length_append, hlen, List.length_singleton, seqLen_add_one]
    exact workLen_le_capWork hn

end Sys2Proof.Machine
end

section
/-!
SUPPORT. The invariant of the machine. `DataInv` is what holds of a state at any point of a step; a command that ends leaves
no more to show, since what `Inv` adds speaks of a running command only.
-/

namespace Sys2Proof.Machine

/-- The part of the invariant that does not speak of the running command. -/
structure DataInv (s : State) : Prop where
  memory : s.mem.wf = true
  status : StatusInv s.status
  seqn : SeqnInv s
  probe : ProbeInv s

theorem Inv.data {s : State} (h : Inv s) : DataInv s := ⟨h.memory, h.status, h.seqn, h.probe⟩

/-- With no command running, `Inv` says no more than `DataInv`. -/
theorem DataInv.inv_of_idle {s : State} (h : DataInv s) (hb : s.status.busy = false) : Inv s where
  memory := h.memory
  status := h.status
  command := fun hbusy => by simp [hb] at hbusy
  seqn := h.seqn
  probe := h.probe
  pipeline := fun hstate => by
    obtain ⟨-, -, -, hiff⟩ := h.status
    have hbusy : s.status.busy = true := hiff.mpr (.inr (hstate.imp_right .inl))
    simp [hb] at hbusy

theorem DataInv.useDraws {s : State} (h : DataInv s) (n : Nat) : DataInv (useDraws n s) :=
  ⟨h.memory, h.status, h.seqn, h.probe⟩

theorem DataInv.inv_finish {s : State} (h : DataInv s) : Inv (finish s) :=
  DataInv.inv_of_idle ⟨h.memory, h.status.finished, h.seqn, h.probe⟩ rfl

theorem DataInv.inv_raiseError {s : State} (h : DataInv s) {code : ErrCode} (hc : code ≠ .none) (stage : ErrStage)
    (a0 a1 : Word32) : Inv (raiseError code stage a0 a1 s) :=
  DataInv.inv_of_idle ⟨h.memory, statusInv_errored _ hc _ _, h.seqn, h.probe⟩ rfl

theorem DataInv.inv_takeCancel {s : State} (h : DataInv s) (stage : ErrStage) : Inv (takeCancel stage s) :=
  DataInv.inv_raiseError (s := { s with cancel := false }) ⟨h.memory, h.status, h.seqn, h.probe⟩ (by decide) _ _ _

/-- The invariant speaks of the buffers, STATUS, SEQN, CUR_CMD and CUR_N only, and of STATUS only BUSY and STATE matter to the
running command. -/
theorem Inv.of_agrees {s t : State} (h : Inv s) (hst : StatusInv t.status) (hmem : t.mem = s.mem)
    (hbusy : t.status.busy = s.status.busy) (hstate : t.status.state = s.status.state) (hseqn : t.seqn = s.seqn)
    (hcmd : t.curCmd = s.curCmd) (hn : t.curN = s.curN) : Inv t where
  memory := hmem ▸ h.memory
  status := hst
  command := by
    rw [CommandInv, hbusy, hstate, hcmd]
    exact h.command
  seqn := by
    rw [SeqnInv, hseqn, hmem]
    exact h.seqn
  probe := by
    rw [ProbeInv, hmem]
    exact h.probe
  pipeline := by
    rw [PipelineInv, hstate, hn, hmem]
    exact h.pipeline

/-! ### Writing one buffer -/

theorem DataInv.set_tags {s : State} (h : DataInv s) {b : Buf Word32} (hb : Buf.wfFrom Config.capSeq 0 b = true) :
    DataInv { s with mem := { s.mem with tags := b } } :=
  ⟨Memory.wf_set_tags h.memory hb, h.status, h.seqn, h.probe⟩

theorem DataInv.set_tagl {s : State} (h : DataInv s) {b : Buf Word32} (hb : Buf.wfFrom Config.capSeq 0 b = true) :
    DataInv { s with mem := { s.mem with tagl := b } } :=
  ⟨Memory.wf_set_tagl h.memory hb, h.status, h.seqn, h.probe⟩

theorem DataInv.set_recd {s : State} (h : DataInv s) {b : Buf Real64} (hb : Buf.wfFrom Config.capSeq 0 b = true) :
    DataInv { s with mem := { s.mem with recd := b } } :=
  ⟨Memory.wf_set_recd h.memory hb, h.status, h.seqn, h.probe⟩

theorem DataInv.set_work {s : State} (h : DataInv s) {b : Buf Real64} (hb : Buf.wfFrom Config.capWork 0 b = true) :
    DataInv { s with mem := { s.mem with work := b } } :=
  ⟨Memory.wf_set_work h.memory hb, h.status, h.seqn, h.probe⟩

theorem DataInv.set_ir {s : State} (h : DataInv s) {b : Buf Real64} (hb : Buf.wfFrom Config.capWork 0 b = true) :
    DataInv { s with mem := { s.mem with ir := b } } :=
  ⟨Memory.wf_set_ir h.memory hb, h.status, h.seqn, h.probe⟩

theorem DataInv.set_probe {s : State} (h : DataInv s) {b : Buf Real64} (hb : Buf.wfFrom Config.capSeq 0 b = true)
    (hv : ∀ i v, Buf.read b i = some v → v = plusOne ∨ v = minusOne) :
    DataInv { s with mem := { s.mem with probe := b } } :=
  ⟨Memory.wf_set_probe h.memory hb, h.status, h.seqn, hv⟩

theorem DataInv.set_mls_seqn {s : State} (h : DataInv s) {b : Buf Bit} (hb : Buf.wfFrom Config.capSeq 0 b = true)
    {q : Word32} {m : Nat} (hm : supportedMask q.toNat = some m) (hholds : Holds b (seqLen q.toNat) (sample q.toNat m)) :
    DataInv { s with mem := { s.mem with mls := b }, seqn := q } :=
  ⟨Memory.wf_set_mls h.memory hb, h.status, .inr ⟨m, hm, hholds⟩, h.probe⟩

/-! ### The commands -/

/-- A run of P elements of a supported order fits the sequence buffers. -/
theorem wfFrom_seqRun {α : Type} {b : Buf α} (h : Buf.wfFrom Config.capSeq 0 b = true) {n : Nat} (hn : n ≤ 18)
    {vs : List α} (hlen : vs.length = seqLen n) : Buf.wfFrom Config.capSeq 0 (b.writeRun 0 vs) = true :=
  Buf.wfFrom_writeRun h (Nat.le_refl 0) (by rw [Nat.zero_add, hlen]; exact seqLen_le_capSeq hn)

theorem supported_le {n : Nat} (h : supported n = true) : n ≤ 18 := (supported_iff.mp h).2

theorem execGenseq_inv {s t : State} (hi : DataInv s) (h : execGenseq s = .next t) : Inv t := by
  rcases execGenseq_next h with ⟨-, rfl⟩ | ⟨m, hm, rfl⟩
  · exact hi.inv_raiseError (by decide) _ _ _
  · obtain ⟨hmls, -⟩ := (Memory.wf_iff _).mp hi.memory
    have hn := (supportedMask_eq_some_iff.mp hm).2.2
    exact (hi.set_mls_seqn (wfFrom_seqRun hmls hn (sequence_length _ m)) hm (holds_sequence _ _ m)).inv_finish

/-- The elements of PROBE after a run of ±1.0 are of the run or were there before. -/
theorem probe_writeRun {probe : Buf Real64} (h : ∀ i v, Buf.read probe i = some v → v = plusOne ∨ v = minusOne)
    {vs : List Real64} (hvs : ∀ v ∈ vs, v = plusOne ∨ v = minusOne) (i : Nat) (v : Real64)
    (hv : Buf.read (probe.writeRun 0 vs) i = some v) : v = plusOne ∨ v = minusOne := by
  by_cases hlt : i < vs.length
  · rw [Buf.read_writeRun_lt _ _ hlt] at hv
    exact hvs v (List.mem_of_getElem? hv)
  · rw [Buf.read_writeRun_ge _ _ (Nat.le_of_not_lt hlt)] at hv
    exact h i v hv

theorem execBipolar_inv {s t : State} (hi : DataInv s) (h : execBipolar s = .next t) : Inv t := by
  rcases execBipolar_next h with ⟨-, rfl⟩ | ⟨-, -, rfl⟩ | ⟨hs, -, vs, hvs, rfl⟩
  · exact hi.inv_raiseError (by decide) _ _ _
  · exact hi.inv_raiseError (by decide) _ _ _
  · obtain ⟨-, hprobe, -⟩ := (Memory.wf_iff _).mp hi.memory
    obtain ⟨hlen, hval⟩ := bipolarRun_ok hvs
    exact (hi.set_probe (wfFrom_seqRun hprobe (supported_le hs) hlen) (probe_writeRun hi.probe hval)).inv_finish

theorem execGentags_inv {s t : State} (hi : DataInv s) (h : execGentags s = .next t) : Inv t := by
  rcases execGentags_next h with ⟨-, rfl⟩ | ⟨-, -, rfl⟩ | ⟨hs, -, ws, hws, hend⟩
  · exact hi.inv_raiseError (by decide) _ _ _
  · exact hi.inv_raiseError (by decide) _ _ _
  · obtain ⟨-, -, htags, -⟩ := (Memory.wf_iff _).mp hi.memory
    have hlen : (ws.map (BitVec.ofNat 32)).length = seqLen s.curN.toNat := by
      rw [List.length_map, windows_length hws]
    have hi' := hi.set_tags (wfFrom_seqRun htags (supported_le hs) hlen)
    rcases hend with rfl | ⟨f, rfl⟩
    · exact hi'.inv_finish
    · exact hi'.inv_raiseError (by decide) _ _ _

theorem execGentagl_inv {s t : State} (hi : DataInv s) (h : execGentagl s = .next t) : Inv t := by
  rcases execGentagl_next h with
    ⟨-, rfl⟩ | ⟨-, -, rfl⟩ | ⟨hs, -, cs, -, ⟨j, -, rfl⟩ | ⟨index, ts, -, hts, hend⟩⟩
  · exact hi.inv_raiseError (by decide) _ _ _
  · exact hi.inv_raiseError (by decide) _ _ _
  · exact hi.inv_raiseError (by decide) _ _ _
  · obtain ⟨-, -, -, htagl, -⟩ := (Memory.wf_iff _).mp hi.memory
    have hlen : (ts.map (BitVec.ofNat 32)).length = seqLen s.curN.toNat := by
      rw [List.length_map, inverseTags_length hts]
    have hi' := hi.set_tagl (wfFrom_seqRun htagl (supported_le hs) hlen)
    rcases hend with rfl | ⟨f, rfl⟩
    · exact hi'.inv_finish
    · exact hi'.inv_raiseError (by decide) _ _ _

theorem execFht_inv {s t : State} (hi : DataInv s) (h : execFht s = .next t) : Inv t := by
  rcases execFht_next h with ⟨-, rfl⟩ | ⟨-, -, rfl⟩ | ⟨hs, -, work, hw, rfl⟩
  · exact hi.inv_raiseError (by decide) _ _ _
  · exact hi.inv_raiseError (by decide) _ _ _
  · obtain ⟨-, -, -, -, -, hwork, -⟩ := (Memory.wf_iff _).mp hi.memory
    exact ((hi.set_work (transform_wfFrom (supported_le hs) hwork hw)).useDraws _).inv_finish

/-- A running ESTIMATE that moves to its next step keeps the invariant if it leaves what that step rests on. -/
theorem DataInv.inv_setState {s : State} (hi : DataInv s) (hb : s.status.busy = true) (hcmd : s.curCmd = 0x00000006#32)
    {e : EngineState} (he : e = .transform ∨ e = .permuteScale)
    (hpipe : supported s.curN.toNat = true ∧ CheckedTags s.mem.tags (seqLen s.curN.toNat) ∧
      CheckedTags s.mem.tagl (seqLen s.curN.toNat) ∧ Written s.mem.work (workLen s.curN.toNat)) :
    Inv (setState e s) where
  memory := hi.memory
  status := hi.status.withState hb he
  command := fun _ => by rcases he with rfl | rfl <;> simp [hcmd]
  seqn := hi.seqn
  probe := hi.probe
  pipeline := fun _ => hpipe

theorem estimatePermute_inv {s t : State} (hi : DataInv s) (hb : s.status.busy = true) (hcmd : s.curCmd = 0x00000006#32)
    (h : estimatePermute s = .next t) : Inv t := by
  rcases estimatePermute_next h with
    ⟨-, rfl⟩ | ⟨-, -, rfl⟩ | ⟨f, which, -, rfl⟩ | ⟨hs, -, htags, htagl, work, hw, rfl⟩
  · exact hi.inv_raiseError (by decide) _ _ _
  · exact hi.inv_raiseError (by decide) _ _ _
  · exact hi.inv_raiseError (by decide) _ _ _
  · obtain ⟨-, -, -, -, -, hwork, -⟩ := (Memory.wf_iff _).mp hi.memory
    have hp : seqLen s.curN.toNat < Config.capWork := by
      have := workLen_le_capWork (supported_le hs)
      rw [← seqLen_add_one] at this
      omega
    have hct := checkedTags_of_firstBad htags
    have hi' := (hi.set_work (permuteStage_wfFrom hp hct hwork hw)).useDraws (seqLen s.curN.toNat)
    refine hi'.inv_setState hb hcmd (.inl rfl) ⟨hs, hct, checkedTags_of_firstBad htagl, ?_⟩
    exact seqLen_add_one s.curN.toNat ▸ permuteStage_written hct hw

theorem estimateTransform_inv {s t : State} (hi : Inv s) (hb : s.status.busy = true) (hcmd : s.curCmd = 0x00000006#32)
    (hstate : s.status.state = .transform) (h : estimateTransform s = .next t) : Inv t := by
  rcases estimateTransform_next h with ⟨-, rfl⟩ | ⟨-, work, hw, rfl⟩
  · exact hi.data.inv_takeCancel _
  · obtain ⟨-, -, -, -, -, hwork, -⟩ := (Memory.wf_iff _).mp hi.memory
    obtain ⟨hs, htags, htagl, hwritten⟩ := hi.pipeline (.inl hstate)
    have hi' := (hi.data.set_work (transform_wfFrom (supported_le hs) hwork hw)).useDraws
      (transformDraws s.curN.toNat)
    exact hi'.inv_setState hb hcmd (.inr rfl) ⟨hs, htags, htagl, transform_written hwritten hw⟩

theorem estimateScale_inv {s t : State} (hi : Inv s) (hstate : s.status.state = .permuteScale)
    (h : estimateScale s = .next t) : Inv t := by
  rcases estimateScale_next h with ⟨-, rfl⟩ | ⟨-, ir, hir, rfl⟩
  · exact hi.data.inv_takeCancel _
  · obtain ⟨-, -, -, -, -, -, hwf⟩ := (Memory.wf_iff _).mp hi.memory
    obtain ⟨hs, -⟩ := hi.pipeline (.inr hstate)
    exact ((hi.data.set_ir (scaleStage_wfFrom (supported_le hs) hwf hir)).useDraws _).inv_finish

/-- A command that runs at one of ESTIMATE's STATEs is ESTIMATE. -/
theorem Inv.curCmd_of_state {s : State} (hi : Inv s) (hb : s.status.busy = true) {e : EngineState}
    (hstate : s.status.state = e) (he : e ≠ .exec) : s.curCmd = 0x00000006#32 := by
  by_contra hne
  exact he (hstate ▸ (hi.command hb).mpr hne)

theorem execEstimate_inv {s t : State} (hi : Inv s) (hb : s.status.busy = true) (h : execEstimate s = .next t) :
    Inv t := by
  rcases execEstimate_next h with ⟨hstate, h⟩ | ⟨hstate, h⟩ | ⟨hstate, h⟩
  · exact estimatePermute_inv hi.data hb (hi.curCmd_of_state hb hstate (by decide)) h
  · exact estimateTransform_inv hi hb (hi.curCmd_of_state hb hstate (by decide)) hstate h
  · exact estimateScale_inv hi hstate h

theorem exec_command_inv {i : Instr} {s t : State} (hi : Inv s) (hb : s.status.busy = true)
    (hcmd : i.isCommand = true) (h : exec i s = .next t) : Inv t := by
  cases i with
  | genseq => exact execGenseq_inv hi.data h
  | bipolar => exact execBipolar_inv hi.data h
  | gentags => exact execGentags_inv hi.data h
  | gentagl => exact execGentagl_inv hi.data h
  | fht => exact execFht_inv hi.data h
  | estimate => exact execEstimate_inv hi hb h
  | _ => simp [Instr.isCommand] at hcmd

/-! ### The host's steps -/

theorem accept_inv {s : State} (hi : Inv s) (v : Word32) : Inv (accept v s) := by
  have hst := hi.status.accept v
  cases hb : s.status.busy with
  | true =>
    rw [accept_of_busy hb] at hst ⊢
    exact hi.of_agrees hst rfl rfl rfl rfl rfl rfl
  | false =>
    rw [accept_of_idle hb] at hst ⊢
    refine ⟨hi.memory, hst, fun _ => ?_, hi.seqn, hi.probe, fun hstate => ?_⟩
    · by_cases hv : v = 0x00000006#32 <;> simp [estimateWord, hv]
    · by_cases hv : v = estimateWord <;> simp [hv] at hstate

theorem regWrite_inv {s : State} (hi : Inv s) (idx : Nat) (v : Word32) : Inv (regWrite idx v s) := by
  rcases regWrite_cases idx v s with ⟨-, h⟩ | ⟨-, h⟩ | ⟨-, h⟩ | ⟨-, h⟩ | ⟨-, h⟩ | ⟨-, h⟩ <;> rw [h]
  case inl => exact accept_inv hi v
  all_goals exact hi.of_agrees hi.status rfl rfl rfl rfl rfl rfl

theorem exec_host_inv {i : Instr} {s t : State} (hc : i.isCommand = false) (hi : Inv s) (h : exec i s = .next t) :
    Inv t := by
  obtain ⟨-, -, htags, htagl, hrecd, hwork, -⟩ := (Memory.wf_iff _).mp hi.memory
  rcases exec_host_next hc h with ⟨v, rfl⟩ | ⟨idx, v, -, rfl⟩ |
    ⟨hb, ⟨idx, v, hidx, -, rfl⟩ | ⟨idx, v, hidx, -, rfl⟩ | ⟨idx, v, hidx, -, rfl⟩ | ⟨idx, v, hidx, -, rfl⟩⟩ | ⟨-, rfl⟩
  · exact hi.of_agrees hi.status rfl rfl rfl rfl rfl rfl
  · exact regWrite_inv hi idx _
  · exact (hi.data.set_tags (Buf.wfFrom_write htags _ (Nat.zero_le _) hidx)).inv_of_idle hb
  · exact (hi.data.set_tagl (Buf.wfFrom_write htagl _ (Nat.zero_le _) hidx)).inv_of_idle hb
  · exact (hi.data.set_recd (Buf.wfFrom_write hrecd _ (Nat.zero_le _) hidx)).inv_of_idle hb
  · exact (hi.data.set_work (Buf.wfFrom_write hwork _ (Nat.zero_le _) hidx)).inv_of_idle hb
  · exact hi

/-- Settles O47: each kind of step of `step_cases` keeps the invariant. -/
theorem stepKeepsTheInvariant : Obligations.StepKeepsTheInvariant := by
  unfold Obligations.StepKeepsTheInvariant
  intro s t hi h
  have hturn : Inv (takeTurn s) := hi.of_agrees hi.status rfl rfl rfl rfl rfl rfl
  have hprog : ∀ ops, Inv (setProgram ops (takeTurn s)) := fun ops =>
    hturn.of_agrees hturn.status rfl rfl rfl rfl rfl rfl
  rcases step_cases s with ⟨hb, i, hd, hs⟩ | ⟨-, -, hs⟩ | ⟨x, ops, hs⟩ | ⟨ops, hs⟩ | ⟨ops, hs⟩ | hs <;> rw [hs] at h
  · exact exec_command_inv hturn hb (decodeCommand_isCommand hd) h
  · obtain rfl := next_inj h
    exact hturn.data.inv_raiseError (by decide) _ _ _
  · exact exec_host_inv (decodeTxn_isCommand x) (hprog ops) h
  · exact exec_host_inv rfl (hprog ops) h
  · obtain rfl := next_inj h
    exact inv_resetEvent _
  · obtain rfl := next_inj h
    exact hturn

end Sys2Proof.Machine
end

section
/-!
SUPPORT. Every mask of the taps ROM is maximal (40_sequence.md R110, R113 item 3). The idea: one step of the delay line is
linear over exclusive or, so 2^k steps are computed by squaring k times the list of the values of the single bits; and the
period divides P once P steps lead back, so it is P unless P/q steps lead back too for a prime q that divides P.
-/

namespace Sys2Proof.Machine

/-! ### Linear maps by their columns -/

/-- The linear map whose value at bit k alone is the k-th column: the exclusive or of the columns that `d` selects. -/
def combine : List Nat → Nat → Nat
  | [], _ => 0
  | c :: cs, d => (if d % 2 = 1 then c else 0) ^^^ combine cs (d / 2)

theorem combine_zero (cs : List Nat) : combine cs 0 = 0 := by
  induction cs with
  | nil => rfl
  | cons c cs ih => simpa [combine] using ih

theorem combine_xor (cs : List Nat) (a b : Nat) : combine cs (a ^^^ b) = combine cs a ^^^ combine cs b := by
  induction cs generalizing a b with
  | nil => simp [combine]
  | cons c cs ih =>
    have hcol : (if (a ^^^ b) % 2 = 1 then c else 0) =
        (if a % 2 = 1 then c else 0) ^^^ (if b % 2 = 1 then c else 0) := by
      simp only [Nat.xor_mod_two_eq_one]
      by_cases ha : a % 2 = 1 <;> by_cases hb : b % 2 = 1 <;> simp [ha, hb]
    rw [combine, combine, combine, hcol, Nat.xor_div_two, ih]
    ac_rfl

/-- A linear map of the columns gives the composition. -/
theorem combine_map {g : Nat → Nat} (h0 : g 0 = 0) (hx : ∀ a b, g (a ^^^ b) = g a ^^^ g b) (cs : List Nat) (d : Nat) :
    combine (cs.map g) d = g (combine cs d) := by
  induction cs generalizing d with
  | nil => exact h0.symm
  | cons c cs ih =>
    rw [List.map_cons, combine, combine, hx, ih]
    split <;> simp [h0]

/-- Mapping the columns by themselves squares the map. -/
theorem combine_square (cs : List Nat) : combine (cs.map (combine cs)) = (combine cs)^[2] :=
  funext fun d => combine_map (combine_zero cs) (combine_xor cs) cs d

theorem two_mul_xor_of_lt {f : Nat} (d : Nat) (h : f < 2) : 2 * d ^^^ f = 2 * d + f := by
  have hmod : (2 * d ^^^ f) % 2 = (2 * d + f) % 2 := Nat.xor_mod_two_eq
  have hdiv : (2 * d ^^^ f) / 2 = d := by
    rw [Nat.xor_div_two, Nat.div_eq_of_lt h, Nat.xor_zero, Nat.mul_div_cancel_left d (by decide)]
  omega

theorem two_mul_xor (a b : Nat) : 2 * (a ^^^ b) = 2 * a ^^^ 2 * b := by
  have hmod : (2 * a ^^^ 2 * b) % 2 = (2 * a + 2 * b) % 2 := Nat.xor_mod_two_eq
  have hdiv : (2 * a ^^^ 2 * b) / 2 = a ^^^ b := by
    rw [Nat.xor_div_two, Nat.mul_div_cancel_left a (by decide), Nat.mul_div_cancel_left b (by decide)]
  omega

/-- The single bits are the columns of the identity on n bits. -/
theorem combine_bits (n d : Nat) : combine ((List.range n).map (2 ^ ·)) d = d % 2 ^ n := by
  induction n generalizing d with
  | zero => simp [combine, Nat.mod_one]
  | succ n ih =>
    have hcols : (List.range (n + 1)).map (2 ^ ·) = 1 :: ((List.range n).map (2 ^ ·)).map (2 * ·) := by
      simp [List.range_succ_eq_map, Nat.pow_succ']
    have hbit : (if d % 2 = 1 then 1 else 0) = d % 2 := by split <;> omega
    rw [hcols, combine, combine_map (Nat.mul_zero 2) two_mul_xor, ih, hbit, Nat.xor_comm,
      two_mul_xor_of_lt _ (Nat.mod_lt d (by decide)), Nat.pow_succ', Nat.mod_mul, Nat.add_comm]

/-! ### The step of the delay line is linear -/

theorem parity_xor_eq_add_mod (w a b : Nat) : parity w (a ^^^ b) = (parity w a + parity w b) % 2 := by
  induction w generalizing a b with
  | zero => rfl
  | succ w ih =>
    have hmod : (a ^^^ b) % 2 = (a + b) % 2 := Nat.xor_mod_two_eq
    have hw := ih (a / 2) (b / 2)
    simp only [parity, Nat.xor_div_two]
    omega

theorem parity_xor (w a b : Nat) : parity w (a ^^^ b) = parity w a ^^^ parity w b := by
  have hlt : parity w a ^^^ parity w b < 2 := Nat.xor_lt_two_pow (n := 1) (parity_lt w a) (parity_lt w b)
  rw [parity_xor_eq_add_mod, ← Nat.xor_mod_two_eq, Nat.mod_eq_of_lt hlt]

theorem shiftLine_eq_xor (n m d : Nat) : shiftLine n m d = (2 * d ^^^ feedback n m d) % 2 ^ n := by
  have hf : feedback n m d < 2 := parity_lt n _
  rw [shiftLine, two_mul_xor_of_lt d hf]

theorem shiftLine_xor (n m a b : Nat) : shiftLine n m (a ^^^ b) = shiftLine n m a ^^^ shiftLine n m b := by
  have hf : feedback n m (a ^^^ b) = feedback n m a ^^^ feedback n m b := by
    rw [feedback, Nat.and_xor_distrib_left, parity_xor]
    rfl
  rw [shiftLine_eq_xor, shiftLine_eq_xor, shiftLine_eq_xor, two_mul_xor, hf, ← Nat.xor_mod_two_pow]
  congr 1
  ac_rfl

theorem parity_zero (w : Nat) : parity w 0 = 0 := by
  induction w with
  | zero => rfl
  | succ w ih => simp [parity, ih]

theorem shiftLine_zero (n m : Nat) : shiftLine n m 0 = 0 := by
  simp [shiftLine, feedback, parity_zero]

/-- The columns of one step. -/
def lineColumns (n m : Nat) : List Nat := ((List.range n).map (2 ^ ·)).map (shiftLine n m)

theorem combine_lineColumns {n d : Nat} (m : Nat) (h : d < 2 ^ n) : combine (lineColumns n m) d = shiftLine n m d := by
  rw [lineColumns, combine_map (shiftLine_zero n m) (shiftLine_xor n m), combine_bits, Nat.mod_eq_of_lt h]

theorem lineAt_lt (n m t : Nat) : lineAt n m t < 2 ^ n := by
  cases t with
  | zero => exact Nat.sub_lt (Nat.two_pow_pos n) Nat.one_pos
  | succ t => exact Nat.mod_lt _ (Nat.two_pow_pos n)

theorem lineAt_eq_iterate (n m t : Nat) : lineAt n m t = (combine (lineColumns n m))^[t] (allOnes n) := by
  induction t with
  | zero => rfl
  | succ t ih =>
    rw [Function.iterate_succ_apply', ← ih, combine_lineColumns m (lineAt_lt n m t)]
    rfl

/-! ### Many steps at once -/

/-- `d` after `t` applications of the map with columns `cs`, by repeated squaring; `t` has at most `bits` bits. -/
def jump : Nat → Nat → List Nat → Nat → Nat
  | 0, _, _, d => d
  | bits + 1, t, cs, d => jump bits (t / 2) (cs.map (combine cs)) (if t % 2 = 1 then combine cs d else d)

theorem jump_eq_iterate {bits t : Nat} (h : t < 2 ^ bits) (cs : List Nat) (d : Nat) :
    jump bits t cs d = (combine cs)^[t] d := by
  induction bits generalizing t cs d with
  | zero =>
    obtain rfl : t = 0 := by omega
    rfl
  | succ bits ih =>
    have hbit : (if t % 2 = 1 then combine cs d else d) = (combine cs)^[t % 2] d := by
      rcases Nat.mod_two_eq_zero_or_one t with ht | ht <;> rw [ht] <;> rfl
    rw [jump, ih (by omega), combine_square, hbit, ← Function.iterate_mul, ← Function.iterate_add_apply,
      Nat.div_add_mod]

/-! ### The period -/

/-- A period that no P/q is, for a prime q dividing P, is the least. -/
theorem minimalPeriod_eq_of_prime {α : Type} {f : α → α} {x : α} {p : Nat} (hp : Function.IsPeriodicPt f p x)
    (hq : ∀ q, q.Prime → q ∣ p → ¬ Function.IsPeriodicPt f (p / q) x) : Function.minimalPeriod f x = p := by
  obtain ⟨k, hk⟩ := hp.minimalPeriod_dvd
  by_contra hne
  have hk1 : k ≠ 1 := fun h => hne (by rw [hk, h, Nat.mul_one])
  obtain ⟨q, hprime, j, rfl⟩ := Nat.exists_prime_and_dvd hk1
  have hdiv : p / q = Function.minimalPeriod f x * j := by
    rw [hk, Nat.mul_left_comm, Nat.mul_div_cancel_left _ hprime.pos]
  refine hq q hprime ⟨Function.minimalPeriod f x * j, by rw [hk, Nat.mul_left_comm]⟩ ?_
  exact hdiv ▸ (Function.isPeriodicPt_minimalPeriod f x).mul_const j

/-- What is computed of a mask: P steps lead back to all ones, and P/q steps do not, for each q of `qs`, whose product is P. -/
def passesPeriodCheck (n m : Nat) (qs : List Nat) : Bool :=
  decide (m < 2 ^ n) && decide (qs.prod = seqLen n) &&
    decide (jump n (seqLen n) (lineColumns n m) (allOnes n) = allOnes n) &&
    qs.all fun q => decide (jump n (seqLen n / q) (lineColumns n m) (allOnes n) ≠ allOnes n)

theorem maximalMask_of_check {n m : Nat} {qs : List Nat} (hn : 1 ≤ n) (hprime : ∀ q ∈ qs, q.Prime)
    (h : passesPeriodCheck n m qs = true) : MaximalMask n m := by
  simp only [passesPeriodCheck, Bool.and_eq_true, decide_eq_true_eq, List.all_eq_true] at h
  obtain ⟨⟨⟨hm, hprod⟩, hback⟩, hnot⟩ := h
  have hP : seqLen n < 2 ^ n := Nat.sub_lt (Nat.two_pow_pos n) Nat.one_pos
  have hperiod : Function.IsPeriodicPt (combine (lineColumns n m)) (seqLen n) (allOnes n) := by
    rwa [jump_eq_iterate hP] at hback
  have hmin : Function.minimalPeriod (combine (lineColumns n m)) (allOnes n) = seqLen n := by
    refine minimalPeriod_eq_of_prime hperiod fun q hq hdvd hbad => ?_
    have hmem : q ∈ qs := mem_list_primes_of_dvd_prod hq.prime (fun r hr => (hprime r hr).prime) (hprod ▸ hdvd)
    refine hnot q hmem ?_
    rw [jump_eq_iterate ((Nat.div_le_self _ q).trans_lt hP)]
    exact hbad
  refine ⟨hn, hm, (lineAt_eq_iterate n m _).trans hperiod, fun t ht0 ht heq => ?_⟩
  rw [lineAt_eq_iterate] at heq
  have hle := Function.IsPeriodicPt.minimalPeriod_le ht0 heq
  omega

/-! ### The ROM -/

/-- The prime factors of 2^N − 1 for N from 1 to 18. -/
def seqLenFactors : List (List Nat) :=
  [[], [3], [7], [3, 5], [31], [3, 3, 7], [127], [3, 5, 17], [7, 73], [3, 11, 31], [23, 89], [3, 3, 5, 7, 13], [8191],
    [3, 43, 127], [7, 31, 151], [3, 5, 17, 257], [131071], [3, 3, 3, 7, 19, 73]]

theorem seqLenFactors_prime : ∀ qs ∈ seqLenFactors, ∀ q ∈ qs, q.Prime := by
  simp only [seqLenFactors, List.forall_mem_cons]
  norm_num

theorem taps_passPeriodCheck :
    ∀ k : Fin 18, ∃ m ∈ taps (k + 1), passesPeriodCheck (k + 1) m (seqLenFactors.getD k []) = true := by
  decide +kernel

theorem taps_maximal {n : Nat} (h1 : 1 ≤ n) (h18 : n ≤ 18) : ∃ m, taps n = some m ∧ MaximalMask n m := by
  obtain ⟨k, rfl⟩ : ∃ k : Fin 18, n = k + 1 := ⟨⟨n - 1, by omega⟩, by simp; omega⟩
  obtain ⟨m, hm, hcheck⟩ := taps_passPeriodCheck k
  have hmem : seqLenFactors.getD k [] ∈ seqLenFactors := by
    rw [List.getD_eq_getElem _ _ k.isLt]
    exact List.getElem_mem _
  exact ⟨m, hm, maximalMask_of_check h1 (seqLenFactors_prime _ hmem) hcheck⟩

theorem taps_eq_stageMask (n : Nat) : taps n = if 1 ≤ n then (romStages[n - 1]?).map stageMask else none := by
  by_cases hn : n < 19
  · have hrom : ∀ k : Fin 19, taps k = if 1 ≤ k.val then (romStages[k.val - 1]?).map stageMask else none := by decide
    exact hrom ⟨n, hn⟩
  · obtain ⟨k, rfl⟩ : ∃ k, n = k + 19 := ⟨n - 19, by omega⟩
    have hlen : romStages.length = 18 := rfl
    simp [taps, hlen]

/-- Settles O28: the stages of R110 by evaluation, the periods by `maximalMask_of_check`. -/
theorem romMasksAreMaximal : Obligations.RomMasksAreMaximal :=
  ⟨rfl, taps_eq_stageMask, fun _ h1 h18 => taps_maximal h1 h18⟩

end Sys2Proof.Machine
end

section
/-!
SUPPORT. What a host transaction leaves alone: a read changes no more than the DATA it answers (20_memory.md R67), and while a
command runs a transaction changes no more than the registers the host may write, OVR and DATA (20_memory.md R75,
44_host_interface.md R181, 70_reset_and_hazards.md R245).
-/

namespace Sys2Proof.Machine

/-! ### Reads -/

/-- A read does not look at what the read before it answered. -/
theorem hostRead_respond {α : Type} (sp : Space) (b : Buf α) (f : α → Word64) (idx : Nat) (v : Word64) (s : State) :
    hostRead sp b f idx (respond v s) = hostRead sp b f idx s := rfl

theorem exec_read_respond {i : Instr} (hi : i.isRead = true) (v : Word64) (s : State) :
    exec i (respond v s) = exec i s := by
  cases i with
  | rdReg idx => rfl
  | rdMls idx | rdProbe idx | rdTags idx | rdTagl idx | rdRec idx | rdWork idx | rdIr idx => exact hostRead_respond ..
  | _ => simp [Instr.isRead] at hi

theorem hostRead_next_respond {α : Type} {sp : Space} {b : Buf α} {f : α → Word64} {idx : Nat} {s t : State}
    (h : hostRead sp b f idx s = .next t) : ∃ v, t = respond v s := by
  obtain ⟨-, ⟨-, ht⟩ | ⟨-, v, -, ht⟩⟩ := hostRead_next h
  · exact ⟨0, ht⟩
  · exact ⟨f v, ht⟩

/-- A read that goes on answered DATA and did nothing else. -/
theorem exec_read_next {i : Instr} {s t : State} (hi : i.isRead = true) (h : exec i s = .next t) :
    ∃ v, t = respond v s := by
  cases i with
  | rdReg idx => exact ⟨_, next_inj h⟩
  | rdMls idx | rdProbe idx | rdTags idx | rdTagl idx | rdRec idx | rdWork idx | rdIr idx => exact hostRead_next_respond h
  | _ => simp [Instr.isRead] at hi

/-- Settles O54: a read that goes on did no more than answer, and no read looks at the answer of another. -/
theorem readsHaveNoSideEffect : Obligations.ReadsHaveNoSideEffect := by
  unfold Obligations.ReadsHaveNoSideEffect
  intro i s t hi h
  obtain ⟨v, rfl⟩ := exec_read_next hi h
  exact ⟨rfl, rfl, rfl, rfl, (exec_read_respond hi v s).trans h⟩

/-! ### Transactions while a command runs -/

/-- `t` is `s` but for what the host may change while a command runs: OVR, CANCEL, the operand registers and DATA. -/
def AgreesWhileBusy (s t : State) : Prop :=
  ∃ (o c : Bool) (n r w : Word32) (d : Option Word64),
    t = { s with
      status := { s.status with ovr := o }
      cancel := c
      order := n, reclen := r, worklen := w
      env := { s.env with data := d } }

/-- A write to CMD is turned away with OVR set; the other writes go to CTRL or an operand register, or do nothing. -/
theorem regWrite_agreesWhileBusy {s : State} (hb : s.status.busy = true) (idx : Nat) (v : Word32) :
    AgreesWhileBusy s (regWrite idx v s) := by
  rcases regWrite_cases idx v s with ⟨-, h⟩ | ⟨-, h⟩ | ⟨-, h⟩ | ⟨-, h⟩ | ⟨-, h⟩ | ⟨-, h⟩ <;> rw [h]
  case inl =>
    rw [accept_of_busy hb]
    exact ⟨true, _, _, _, _, _, rfl⟩
  all_goals exact ⟨_, _, _, _, _, _, rfl⟩

theorem exec_host_agreesWhileBusy {i : Instr} {s t : State} (hi : i.isCommand = false) (hb : s.status.busy = true)
    (h : exec i s = .next t) : AgreesWhileBusy s t := by
  rcases exec_host_next hi h with ⟨v, rfl⟩ | ⟨idx, v, -, rfl⟩ | ⟨hidle, -⟩ | ⟨hidle, -⟩
  · exact ⟨_, _, _, _, _, some v, rfl⟩
  · exact regWrite_agreesWhileBusy hb idx _
  · simp [hb] at hidle
  · simp [hb] at hidle

/-- Settles O55: with BUSY = 1 only a register transaction goes on, and it changes no more than `AgreesWhileBusy` allows. -/
theorem hostCannotDisturbARunningCommand : Obligations.HostCannotDisturbARunningCommand := by
  unfold Obligations.HostCannotDisturbARunningCommand
  intro i s t hi hb h
  obtain ⟨o, c, n, r, w, d, rfl⟩ := exec_host_agreesWhileBusy hi hb h
  exact ⟨rfl, rfl, rfl, rfl, rfl, rfl, rfl, rfl, o, rfl⟩

end Sys2Proof.Machine
end

section
/-!
SUPPORT. Decoder and encoder (30_encoding.md R90 to R99): which command words are legal, what a transaction's fields say, and
that each undoes the other, through the numbering of bits too.
-/

namespace Sys2Proof

/-! ### Command words -/

/-- With MBZ = 0 a command word is its OPCODE (R91). -/
theorem toNat_opcode_of_mbz {w : Word32} (h : mbz w = 0#28) : (opcode w).toNat = w.toNat := by
  have hm := congrArg BitVec.toNat h
  simp only [mbz, BitVec.extractLsb'_toNat, Nat.shiftRight_eq_div_pow, BitVec.toNat_ofNat] at hm
  simp only [opcode, BitVec.extractLsb'_toNat, Nat.shiftRight_zero]
  have := w.isLt
  omega

/-- The other words are rejected, for their MBZ or for their OPCODE (R93). -/
theorem decodeCommand_of_illegal {w : Word32} (h : ¬ (1 ≤ w.toNat ∧ w.toNat ≤ 6)) :
    decodeCommand w = .error (.illegalCommand w) := by
  unfold decodeCommand
  split
  · rfl
  · next hm =>
    rw [toNat_opcode_of_mbz (not_not.mp hm)]
    split
    case h_7 => rfl
    all_goals omega

/-- A legal word is the encoding of the command it decodes to (R92). -/
theorem decodeCommand_of_legal {w : Word32} (h : 1 ≤ w.toNat ∧ w.toNat ≤ 6) :
    ∃ i, decodeCommand w = .ok i ∧ encode i = .command w ∧ i.wellFormed = true := by
  have hw : w = 1 ∨ w = 2 ∨ w = 3 ∨ w = 4 ∨ w = 5 ∨ w = 6 := by bv_omega
  rcases hw with rfl | rfl | rfl | rfl | rfl | rfl <;> exact ⟨_, rfl, rfl, rfl⟩

/-! ### Transactions -/

/-- SPACE and DIR are all of a header, so they give it back (R94). -/
theorem header_space_isWrite (t : Txn) : header t.space t.isWrite = t.header := by
  have hall : ∀ h : BitVec 4, header (Txn.space ⟨h, 0, 0⟩) (Txn.isWrite ⟨h, 0, 0⟩) = h := by decide
  exact hall t.header

/-- Space, direction, INDEX and DATA of a transaction are what its instruction is encoded from. -/
theorem encode_decodeTxn (t : Txn) : encode (decodeTxn t) =
    if t.isWrite then writeTxn t.space t.index.toNat t.data else readTxn t.space t.index.toNat := by
  unfold decodeTxn
  cases t.space <;> cases t.isWrite <;> rfl

/-- INDEX has 32 bits (R94), so whatever a transaction decodes to has an encoding. -/
theorem decodeTxn_wellFormed (t : Txn) : (decodeTxn t).wellFormed = true := by
  have h : indexFits t.index.toNat = true := decide_eq_true t.index.isLt
  unfold decodeTxn
  split <;> exact h

theorem toNat_ofNat_of_indexFits {idx : Nat} (h : indexFits idx = true) : (BitVec.ofNat 32 idx).toNat = idx :=
  Nat.mod_eq_of_lt (of_decide_eq_true h)

/-! ### Both formats -/

theorem decode_encode {i : Instr} (h : i.wellFormed = true) : decode (encode i) = .ok i := by
  cases i with
  | genseq | bipolar | gentags | gentagl | fht | estimate => rfl
  | rdReg idx | rdMls idx | rdProbe idx | rdTags idx | rdTagl idx | rdRec idx | rdWork idx | rdIr idx =>
    simp [encode, readTxn, decode, decodeTxn, toNat_ofNat_of_indexFits h]
  | wrReg idx dat | wrMls idx dat | wrProbe idx dat | wrTags idx dat | wrTagl idx dat | wrRec idx dat
  | wrWork idx dat | wrIr idx dat =>
    simp [encode, writeTxn, decode, decodeTxn, toNat_ofNat_of_indexFits h]

/-- The numbering of bits loses nothing: header, INDEX and DATA stand side by side (log 8). -/
theorem ofBits_bits (e : Encoded) : Encoded.ofBits e.nbits e.bits = e := by
  cases e with
  | command w => simp [Encoded.ofBits, Encoded.nbits]
  | transaction t =>
    have hh : BitVec.ofNat 4 (Encoded.transaction t).bits = t.header := by
      apply BitVec.eq_of_toNat_eq
      rw [BitVec.toNat_ofNat, transaction_bits_mod]
    have hlow : t.header.toNat < 2 ^ 4 := t.header.isLt
    have hidx : t.index.toNat < 2 ^ 32 := t.index.isLt
    have hi : BitVec.ofNat 32 ((Encoded.transaction t).bits / 2 ^ 4) = t.index := by
      apply BitVec.eq_of_toNat_eq
      simp only [Encoded.bits, BitVec.toNat_ofNat]
      omega
    have hd : BitVec.ofNat 64 ((Encoded.transaction t).bits / 2 ^ 36) = t.data := by
      apply BitVec.eq_of_toNat_eq
      have := t.data.isLt
      simp only [Encoded.bits, BitVec.toNat_ofNat]
      omega
    have hn : (Encoded.transaction t).nbits ≠ 32 := by simp [Encoded.nbits]
    rw [Encoded.ofBits, if_neg hn, hh, hi, hd]

end Sys2Proof

namespace Sys2Proof.Machine

/-! ### The obligations about the encoding -/

/-- Settles O3: the bits hold the encoded instruction, and decoding undoes encoding. -/
theorem decodeOfEncodeIsIdentity : Obligations.DecodeOfEncodeIsIdentity := by
  unfold Obligations.DecodeOfEncodeIsIdentity
  intro i hi
  rw [decodeTableWord_eq_some_iff, ofBits_bits]
  exact decode_encode hi

/-- Settles O4: a word that decodes is one of the six; a transaction is rebuilt from its space, direction, INDEX and DATA. -/
theorem encodeOfDecodeIsIdentity : Obligations.EncodeOfDecodeIsIdentity := by
  unfold Obligations.EncodeOfDecodeIsIdentity
  constructor
  · intro w i hd
    by_cases hw : 1 ≤ w.toNat ∧ w.toNat ≤ 6
    · obtain ⟨j, hj, hencode⟩ := decodeCommand_of_legal hw
      obtain rfl : j = i := Except.ok.inj (hj.symm.trans hd)
      exact hencode
    · rw [decodeCommand_of_illegal hw] at hd
      cases hd
  · intro t hread
    refine ⟨?_, decodeTxn_wellFormed t⟩
    have hheader := header_space_isWrite t
    rw [encode_decodeTxn]
    cases hdir : t.isWrite <;> rw [hdir] at hheader
    · simp [readTxn, hheader, ← hread hdir]
    · simp [writeTxn, hheader]

/-- Settles O1: the decoder chooses by the word, or by SPACE and DIR of the header, whatever INDEX and DATA are. -/
theorem specWordsDecode : Obligations.SpecWordsDecode := by
  unfold Obligations.SpecWordsDecode
  refine ⟨⟨rfl, rfl, rfl, rfl, rfl, rfl⟩, fun idx dat => ?_⟩
  and_intros <;> simp [decode, decodeTxn, Txn.space, Txn.isWrite]

/-- Settles O2: the words 1 to 6 are encodings of commands, and the others are rejected. -/
theorem sixCommandWordsAreLegal : Obligations.SixCommandWordsAreLegal := by
  unfold Obligations.SixCommandWordsAreLegal
  intro w
  refine ⟨⟨fun ⟨i, hd⟩ => ?_, fun hw => ?_⟩, decodeCommand_of_illegal⟩
  · by_contra hw
    rw [decodeCommand_of_illegal hw] at hd
    cases hd
  · obtain ⟨i, hd, -⟩ := decodeCommand_of_legal hw
    exact ⟨i, hd⟩

end Sys2Proof.Machine
end

section
/-!
SUPPORT. The two steps that the encoding's rules add to those of transactions and commands: the engine's rejection of an
illegal word (30_encoding.md R93) and the host's poll of STATUS in WAIT (R97).
-/

namespace Sys2Proof.Machine

theorem raiseError_eq_errorState (c : ErrCode) (g : ErrStage) (a0 a1 : Word32) (s : State) :
    raiseError c g a0 a1 s = errorState s c g a0 a1 := rfl

theorem step_of_engine_illegal {s : State} {e : DecodeError} (hm : nextMove s = .engine)
    (hd : decodeCommand s.curCmd = .error e) : step s = .next (raiseIllegal (takeTurn s)) :=
  step_of_moved (by simp [fetch, hm, engineFetch, hd])

/-- Settles O7: the decoder rejects CUR_CMD, so the engine's step is the report of ILLEGAL_CMD. -/
theorem illegalWordReportsIllegalCmd : Obligations.IllegalWordReportsIllegalCmd := by
  unfold Obligations.IllegalWordReportsIllegalCmd
  intro s turns hb hw ht
  have hm : nextMove s = .engine := nextMove_engine (by simp [ht]) hb
  have htail : s.env.turns.tail = turns := by simp [ht]
  rw [step_of_engine_illegal hm (decodeCommand_of_illegal hw), takeTurn_eq htail, raiseIllegal_eq, raiseError_eq_errorState]

theorem step_of_host_wait {s : State} {ops : List HostOp} (hm : nextMove s = .host)
    (hp : s.env.program = .wait :: ops) : step s = exec (.rdReg 1) (afterWait ops (takeTurn s)) :=
  step_of_run (by simp [fetch, hm, hostFetch, hp])

/-- Bit [0] of the value read is BUSY (R25). -/
theorem afterWait_eq (ops : List HostOp) (s : State) :
    afterWait ops s = if s.status.busy = true then s else setProgram ops s := by
  have hbit : (regRead 1 s).getLsbD 0 = s.status.busy := (word_bits s.status).1
  rw [afterWait, hbit]

/-- RD.REG of STATUS answers its word, zero-extended (R183). -/
theorem exec_rdReg_status (s : State) :
    exec (.rdReg 1) s = .next (respond (BitVec.ofNat 64 s.status.word.toNat) s) := by
  rw [BitVec.ofNat_toNat]
  rfl

/-- Settles O8: with BUSY = 1 the poll leaves the line where it stands, and with BUSY = 0 it uses it up. -/
theorem waitPollsStatus : Obligations.WaitPollsStatus := by
  unfold Obligations.WaitPollsStatus
  intro s ops turns hp ht
  have hm : nextMove s = .host := nextMove_host ht (by simp [hp])
  have htail : s.env.turns.tail = turns := by simp [ht]
  rw [step_of_host_wait hm hp, takeTurn_eq htail, afterWait_eq, exec_rdReg_status]
  cases hb : s.status.busy
  · simp [respond, setProgram]
  · simp [respond, hp]

end Sys2Proof.Machine
end

section
/-!
SUPPORT. The two errors that a command reports before it looks at a buffer's contents: CONFIG for an order that is not
supported (40_sequence.md R111) and NOT_READY for a sequence of another order (40_sequence.md R115; 41_tags.md R131, R134).
-/

namespace Sys2Proof.Machine

theorem exec_estimate_permute {s : State} (h : s.status.state = .permute) : exec .estimate s = estimatePermute s := by
  simp [exec, execEstimate, h]

theorem execGenseq_of_unsupported {s : State} (h : supported s.curN.toNat = false) :
    execGenseq s = .next (raiseConfig s) := by
  have hmask : supportedMask s.curN.toNat = none := by simpa [supported] using h
  simp [execGenseq, hmask]

/-- Every command tests the order first. -/
theorem exec_of_unsupported {s : State} (h : supported s.curN.toNat = false) {i : Instr} (hi : i.isCommand = true)
    (hstate : i = .estimate → s.status.state = .permute) : exec i s = .next (raiseConfig s) := by
  cases i with
  | genseq => exact execGenseq_of_unsupported h
  | bipolar => simp [exec, execBipolar, h]
  | gentags => simp [exec, execGentags, h]
  | gentagl => simp [exec, execGentagl, h]
  | fht => simp [exec, execFht, h]
  | estimate => simp [exec_estimate_permute (hstate rfl), estimatePermute, h]
  | _ => simp [Instr.isCommand] at hi

/-- Settles O22: the test of the order comes first in each of the six meanings. -/
theorem unsupportedOrderReportsConfig : Obligations.UnsupportedOrderReportsConfig := by
  unfold Obligations.UnsupportedOrderReportsConfig
  refine fun s => ⟨supported_iff, fun hn i hi hstate => ?_⟩
  have hs : supported s.curN.toNat = false := by
    rw [← supported_iff] at hn
    simpa using hn
  rw [exec_of_unsupported hs hi hstate, raiseConfig_eq, raiseError_eq_errorState]

/-- The three commands that read MLS test SEQN next. -/
theorem exec_of_stale {s : State} (h : supported s.curN.toNat = true) (hseqn : s.seqn ≠ s.curN) {i : Instr}
    (hi : i ∈ [Instr.bipolar, .gentags, .gentagl]) : exec i s = .next (raiseNotReady s) := by
  simp only [List.mem_cons, List.not_mem_nil, or_false] at hi
  rcases hi with rfl | rfl | rfl
  · simp [exec, execBipolar, h, hseqn]
  · simp [exec, execGentags, h, hseqn]
  · simp [exec, execGentagl, h, hseqn]

/-- Settles O23: the order is supported, so the test of SEQN decides. -/
theorem staleSequenceReportsNotReady : Obligations.StaleSequenceReportsNotReady := by
  unfold Obligations.StaleSequenceReportsNotReady
  intro s hn1 hn18 hseqn i hi
  rw [exec_of_stale (supported_iff.mpr ⟨hn1, hn18⟩) hseqn hi, raiseNotReady_eq, raiseError_eq_errorState]

end Sys2Proof.Machine
end

section
/-!
SUPPORT. What BIPOLAR writes (40_sequence.md R115), and the run of elements that a command's loop leaves in a buffer.
-/

namespace Sys2Proof.Machine

/-! ### A run of P elements -/

/-- A run of the values of a loop over [0, P) holds them. -/
theorem holds_writeRun_map {α : Type} (b : Buf α) (p : Nat) (g : Nat → α) :
    Holds (b.writeRun 0 ((List.range' 0 p).map g)) p g := by
  intro i hi
  rw [Buf.read_writeRun_lt _ _ (by simpa using hi)]
  simp [hi]

/-- A run of P elements leaves the elements from P on alone. -/
theorem sameFrom_writeRun {α : Type} (b : Buf α) {p : Nat} {vs : List α} (h : vs.length = p) :
    SameFrom p b (b.writeRun 0 vs) :=
  fun _ hi => Buf.read_writeRun_ge _ _ (h ▸ hi)

theorem sameFrom_writeRun_map {α : Type} (b : Buf α) (p : Nat) (g : Nat → α) :
    SameFrom p b (b.writeRun 0 ((List.range' 0 p).map g)) :=
  sameFrom_writeRun b (by simp)

/-! ### BIPOLAR -/

theorem bipolarRun_eq_ok {α : Type} (num : Num α) {mls : Buf Bit} {p : Nat} {x : Nat → Bit} (h : Holds mls p x) :
    bipolarRun num mls p = .ok ((List.range' 0 p).map fun i => bipolar num (x i)) := by
  refine forRange_eq_ok p 0 fun k _ hk => ?_
  rw [Nat.zero_add] at hk
  rw [bufRead_ok_iff.mpr (h k hk)]

theorem execBipolar_of_holds {s : State} {x : Nat → Bit} (hs : supported s.curN.toNat = true) (hseqn : s.seqn = s.curN)
    (h : Holds s.mem.mls (seqLen s.curN.toNat) x) :
    execBipolar s = .next (finish { s with
      mem := { s.mem with
        probe := s.mem.probe.writeRun 0
          ((List.range' 0 (seqLen s.curN.toNat)).map fun i => bipolar binary64 (x i)) } }) := by
  simp [execBipolar, hs, hseqn, bipolarRun_eq_ok binary64 h]

/-- Settles O29: the loop reads each sample once and writes its value of R115. -/
theorem bipolarMapsTheSequence : Obligations.BipolarMapsTheSequence := by
  unfold Obligations.BipolarMapsTheSequence
  intro s x p hn1 hn18 hseqn hmls
  exact ⟨_, execBipolar_of_holds (supported_iff.mpr ⟨hn1, hn18⟩) hseqn hmls,
    holds_writeRun_map _ p fun i => bipolar binary64 (x i), sameFrom_writeRun_map _ p _⟩

end Sys2Proof.Machine
end

section
/-!
SUPPORT. The generator's output as an unbounded stream (40_sequence.md R112, R113): its recurrence, its first N bits, and
what GENSEQ writes of it.
-/

namespace Sys2Proof.Machine

/-- P ≥ N: the sequence has room for its first N bits. -/
theorem le_seqLen (n : Nat) : n ≤ seqLen n := Nat.le_sub_one_of_lt Nat.lt_two_pow_self

/-! ### The stream -/

/-- The bit that step `t` of the generator emits, for every `t`. -/
def stream (n m t : Nat) : Bit := lastStage n (lineAt n m t)

theorem lfsr_getElem? (n m : Nat) {count i : Nat} (hi : i < count) (t : Nat) :
    (lfsr n m count (lineAt n m t))[i]? = some (stream n m (t + i)) := by
  induction count generalizing i t with
  | zero => omega
  | succ count ih =>
    cases i with
    | zero => rfl
    | succ i =>
      rw [lfsr, List.getElem?_cons_succ, ← Nat.succ_add_eq_add_succ]
      exact ih (by omega) (t + 1)

/-- The samples are the first P bits of the stream. -/
theorem sample_eq_stream {n m i : Nat} (hi : i < seqLen n) : sample n m i = stream n m i := by
  rw [sample, List.getD_eq_getElem?_getD, sequence]
  change (lfsr n m (seqLen n) (lineAt n m 0))[i]?.getD 0#1 = _
  rw [lfsr_getElem? n m hi 0, Option.getD_some, Nat.zero_add]

/-! ### The stages of the delay line -/

/-- Stage k + 1 takes stage k. -/
theorem testBit_shiftLine_succ {n k : Nat} (m d : Nat) (hk : k + 1 < n) :
    (shiftLine n m d).testBit (k + 1) = d.testBit k := by
  have hf : feedback n m d < 2 := parity_lt n _
  have hdiv : (2 * d + feedback n m d) / 2 = d := by omega
  rw [shiftLine, Nat.testBit_mod_two_pow, Nat.testBit_add_one, hdiv]
  simp [hk]

/-- Stage 0 takes the feedback bit. -/
theorem shiftLine_mod_two {n : Nat} (hn : 1 ≤ n) (m d : Nat) : shiftLine n m d % 2 = feedback n m d := by
  have hf : feedback n m d < 2 := parity_lt n _
  rw [shiftLine, Nat.mod_mod_of_dvd _ (dvd_pow_self 2 (by omega))]
  omega

theorem testBit_lineAt_add {n m t k j : Nat} (hk : k + j < n) :
    (lineAt n m (t + j)).testBit (k + j) = (lineAt n m t).testBit k := by
  induction j with
  | zero => rfl
  | succ j ih =>
    rw [← Nat.add_assoc, ← Nat.add_assoc, lineAt, testBit_shiftLine_succ m _ (by omega)]
    exact ih (by omega)

/-- Stage k is emitted N − 1 − k steps later. -/
theorem ofBool_testBit_lineAt {n m t k : Nat} (hk : k < n) :
    BitVec.ofBool ((lineAt n m t).testBit k) = stream n m (t + (n - 1 - k)) := by
  rw [stream, lastStage, ← testBit_lineAt_add (j := n - 1 - k) (by omega), Nat.add_sub_of_le (by omega)]

/-- A delay line is determined by the N bits that it emits. -/
theorem lineAt_eq_of_emits {n m t d : Nat} (hd : d < 2 ^ n)
    (h : ∀ k, k < n → stream n m (t + (n - 1 - k)) = BitVec.ofBool (d.testBit k)) : lineAt n m t = d := by
  refine Nat.eq_of_testBit_eq fun k => ?_
  by_cases hk : k < n
  · rw [← BitVec.ofBool_eq_iff_eq, ofBool_testBit_lineAt hk, h k hk]
  · have hpow : 2 ^ n ≤ 2 ^ k := Nat.pow_le_pow_right (by decide) (by omega)
    rw [Nat.testBit_lt_two_pow ((lineAt_lt n m t).trans_le hpow), Nat.testBit_lt_two_pow (hd.trans_le hpow)]

theorem lineAt_eq_of_stream_eq {n m t u : Nat} (h : ∀ b, b < n → stream n m (t + b) = stream n m (u + b)) :
    lineAt n m t = lineAt n m u :=
  lineAt_eq_of_emits (lineAt_lt n m u) fun k hk => by rw [h _ (by omega), ofBool_testBit_lineAt hk]

theorem lineAt_eq_zero_of_stream {n m t : Nat} (h : ∀ b, b < n → stream n m (t + b) = 0#1) : lineAt n m t = 0 :=
  lineAt_eq_of_emits (Nat.two_pow_pos n) fun k hk => by rw [h _ (by omega), Nat.zero_testBit]; rfl

/-! ### The recurrence -/

/-- Whether the mask selects stage `k`, as a bit. -/
def tap (m k : Nat) : Bit := BitVec.ofBool (m.testBit k)

/-- The lowest bit of a number, as an element of the ring of bits. -/
theorem natCast_eq_ofBool (x : Nat) : (x : Bit) = BitVec.ofBool (x.testBit 0) := by
  rw [Nat.testBit_zero]
  rcases Nat.mod_two_eq_zero_or_one x with h | h <;> simp [← BitVec.toNat_inj, h]

theorem natCast_mod_two (x : Nat) : ((x % 2 : Nat) : Bit) = x := by
  rw [natCast_eq_ofBool, natCast_eq_ofBool x, Nat.testBit_zero, Nat.testBit_zero, Nat.mod_mod]

/-- Parity is the sum of the bits. -/
theorem natCast_parity (w x : Nat) :
    (parity w x : Bit) = ∑ k ∈ Finset.range w, BitVec.ofBool (x.testBit k) := by
  induction w generalizing x with
  | zero => rfl
  | succ w ih =>
    rw [parity, natCast_mod_two, Nat.cast_add, ih, Finset.sum_range_succ', natCast_eq_ofBool, add_comm]
    simp only [Nat.testBit_add_one]

/-- The sequence `z` obeys the generator's recurrence: each bit is the sum of those that the mask selects of the N bits before
it. -/
def Recurs (n m : Nat) (z : Nat → Bit) : Prop :=
  ∀ t, z (t + n) = ∑ k ∈ Finset.range n, tap m k * z (t + n - 1 - k)

theorem stream_recurs {n : Nat} (hn : 1 ≤ n) (m : Nat) : Recurs n m (stream n m) := by
  intro t
  have hand : ∀ a b : Bool, BitVec.ofBool (a && b) = BitVec.ofBool a * BitVec.ofBool b := by decide
  calc stream n m (t + n)
      = BitVec.ofBool ((lineAt n m (t + 1)).testBit 0) := by
        rw [ofBool_testBit_lineAt (by omega)]
        congr 1
        omega
    _ = (parity n (m &&& lineAt n m t) : Bit) := by
        rw [← natCast_eq_ofBool, ← natCast_mod_two, lineAt, shiftLine_mod_two hn, feedback]
    _ = ∑ k ∈ Finset.range n, tap m k * stream n m (t + n - 1 - k) := by
        rw [natCast_parity]
        refine Finset.sum_congr rfl fun k hk => ?_
        have hkn : k < n := Finset.mem_range.mp hk
        rw [Nat.testBit_and, hand, tap, ofBool_testBit_lineAt hkn, show t + (n - 1 - k) = t + n - 1 - k by omega]

theorem stream_of_lt {n t : Nat} (m : Nat) (ht : t < n) : stream n m t = 1#1 := by
  have h := ofBool_testBit_lineAt (m := m) (t := 0) (k := n - 1 - t) (n := n) (by omega)
  rw [show 0 + (n - 1 - (n - 1 - t)) = t by omega] at h
  rw [← h, lineAt, allOnes, Nat.testBit_two_pow_sub_one, decide_eq_true (by omega)]
  rfl

/-- The recurrence in the form of R113: the parity of the number of tapped ones. -/
theorem Recurs.eq_ofNat {n m : Nat} {z : Nat → Bit} (h : Recurs n m z) (t : Nat) :
    z (t + n) = BitVec.ofNat 1
      (((List.range n).map fun k => if m.testBit k then (z (t + n - 1 - k)).toNat else 0).sum) := by
  have hsum : ((List.range n).map fun k => if m.testBit k then (z (t + n - 1 - k)).toNat else 0).sum =
      ∑ k ∈ Finset.range n, if m.testBit k then (z (t + n - 1 - k)).toNat else 0 := rfl
  rw [h, hsum, ← BitVec.natCast_eq_ofNat, Nat.cast_sum]
  refine Finset.sum_congr rfl fun k _ => ?_
  cases hk : m.testBit k <;> simp [tap, hk]

/-! ### GENSEQ -/

theorem execGenseq_of_mask {s : State} {m : Nat} (h : supportedMask s.curN.toNat = some m) :
    execGenseq s = .next (finish { s with
      mem := { s.mem with mls := s.mem.mls.writeRun 0 (sequence s.curN.toNat m) }, seqn := s.curN }) := by
  simp [execGenseq, h]

/-- Settles O27: GENSEQ writes the stream, which starts with N ones and obeys the recurrence of the mask. -/
theorem genseqWritesTheSequence : Obligations.GenseqWritesTheSequence := by
  unfold Obligations.GenseqWritesTheSequence
  intro s m n p hn1 hn18 hm
  have hmask : supportedMask n = some m := supportedMask_eq_some_iff.mpr ⟨hm, hn1, hn18⟩
  have hnp : n ≤ p := le_seqLen n
  have hsample : ∀ i, i < p → sample n m i = stream n m i := fun i hi => sample_eq_stream hi
  refine ⟨_, sample n m, execGenseq_of_mask hmask, holds_sequence _ n m,
    sameFrom_writeRun _ (sequence_length n m), fun i hi => ?_, fun t ht => ?_⟩
  · rw [hsample i (by omega), stream_of_lt m hi]
  · have hprev : ∀ k, sample n m (t + n - 1 - k) = stream n m (t + n - 1 - k) := fun k => hsample _ (by omega)
    simp only [hsample _ ht, hprev]
    exact (stream_recurs hn1 m).eq_ofNat t

end Sys2Proof.Machine
end

section
/-!
SUPPORT. A mask whose period is P = 2^N − 1 gives tags that are bijections (41_tags.md R135). The windows are the delay lines
read backwards, so P steps give P different ones, none of them zero. For the inverse tags, the stream from any place on is
the sum of the streams from the unit positions that its first N bits select; the bits of TAGL[i] are those of these streams at
one place, so equal tags would make the stream repeat sooner than after P steps.
-/

namespace Sys2Proof.Machine

/-! ### The period -/

theorem lineAt_eq_iterate_shiftLine (n m t : Nat) : lineAt n m t = (shiftLine n m)^[t] (allOnes n) := by
  induction t with
  | zero => rfl
  | succ t ih => rw [Function.iterate_succ_apply', ← ih, lineAt]

theorem MaximalMask.minimalPeriod {n m : Nat} (h : MaximalMask n m) :
    Function.minimalPeriod (shiftLine n m) (allOnes n) = seqLen n := by
  obtain ⟨hn, -, hback, hnot⟩ := h
  have hperiod : Function.IsPeriodicPt (shiftLine n m) (seqLen n) (allOnes n) := by
    rwa [lineAt_eq_iterate_shiftLine] at hback
  refine (hperiod.minimalPeriod_le (seqLen_pos hn)).eq_of_not_lt fun hlt => ?_
  refine hnot _ (hperiod.minimalPeriod_pos (seqLen_pos hn)) hlt ?_
  rw [lineAt_eq_iterate_shiftLine]
  exact Function.isPeriodicPt_minimalPeriod _ _

section
variable {n m : Nat} (h : MaximalMask n m)
include h

theorem MaximalMask.lineAt_mod (t : Nat) : lineAt n m (t % seqLen n) = lineAt n m t := by
  rw [lineAt_eq_iterate_shiftLine, lineAt_eq_iterate_shiftLine, ← h.minimalPeriod, Function.iterate_mod_minimalPeriod_eq]

theorem MaximalMask.stream_mod (t : Nat) : stream n m (t % seqLen n) = stream n m t := by
  rw [stream, h.lineAt_mod, stream]

theorem MaximalMask.stream_add_seqLen (t : Nat) : stream n m (t + seqLen n) = stream n m t := by
  rw [← h.stream_mod, Nat.add_mod_right, h.stream_mod]

/-- Two steps less than P apart have different delay lines. -/
theorem MaximalMask.eq_of_lineAt_eq {t u : Nat} (heq : lineAt n m t = lineAt n m u) (htu : t < u + seqLen n)
    (hut : u < t + seqLen n) : t = u := by
  have hpos := seqLen_pos h.1
  rw [← h.lineAt_mod t, ← h.lineAt_mod u, lineAt_eq_iterate_shiftLine, lineAt_eq_iterate_shiftLine,
    Function.iterate_eq_iterate_iff_of_lt_minimalPeriod (h.minimalPeriod.symm ▸ Nat.mod_lt t hpos)
      (h.minimalPeriod.symm ▸ Nat.mod_lt u hpos)] at heq
  exact Nat.ModEq.eq_of_abs_lt heq (by rw [abs_lt]; omega)

/-- All zeros would stay so, and never lead back to all ones. -/
theorem MaximalMask.lineAt_ne_zero (t : Nat) : lineAt n m t ≠ 0 := by
  intro ht
  have hstay : ∀ j, lineAt n m (t + j) = 0 := fun j => by
    induction j with
    | zero => exact ht
    | succ j ih => rw [← Nat.add_assoc, lineAt, ih, shiftLine_zero]
  have hback : lineAt n m (t * seqLen n) = allOnes n := by rw [← h.lineAt_mod, Nat.mul_mod_left]; rfl
  have hle : t ≤ t * seqLen n := Nat.le_mul_of_pos_right t (seqLen_pos h.1)
  rw [← Nat.add_sub_of_le hle, hstay] at hback
  exact (seqLen_pos h.1).ne hback

end

/-! ### Numbers by their bits -/

/-- The number whose n lowest bits are `z 0`, `z 1`, … -/
def bitSum (z : Nat → Bit) (n : Nat) : Nat := ∑ j ∈ Finset.range n, (z j).toNat * 2 ^ j

theorem bitSum_lt (z : Nat → Bit) (n : Nat) : bitSum z n < 2 ^ n := by
  induction n with
  | zero => simp [bitSum]
  | succ n ih =>
    have hbit : (z n).toNat * 2 ^ n ≤ 1 * 2 ^ n := Nat.mul_le_mul_right _ (Nat.le_of_lt_succ (z n).isLt)
    rw [bitSum, Finset.sum_range_succ, ← bitSum, Nat.pow_succ]
    omega

theorem ofBool_testBit_bitSum (z : Nat → Bit) {n j : Nat} (hj : j < n) :
    BitVec.ofBool ((bitSum z n).testBit j) = z j := by
  induction n with
  | zero => omega
  | succ n ih =>
    rw [bitSum, Finset.sum_range_succ, ← bitSum, Nat.add_comm, Nat.mul_comm,
      Nat.testBit_two_pow_mul_add _ (bitSum_lt z n)]
    split
    · next hlt => exact ih hlt
    · obtain rfl : j = n := by omega
      rw [Nat.sub_self, ← natCast_eq_ofBool]
      simp

theorem windowSum_eq_bitSum (x : Nat → Bit) (n i : Nat) :
    windowSum x n i = bitSum (fun b => x (backMod (seqLen n) i (n - 1 - b))) n := by
  have hsum : windowSum x n i = ∑ k ∈ Finset.range n, (x (backMod (seqLen n) i k)).toNat * 2 ^ (n - 1 - k) := rfl
  rw [hsum, bitSum, ← Finset.sum_range_reflect]
  refine Finset.sum_congr rfl fun k hk => ?_
  have hkn : k < n := Finset.mem_range.mp hk
  rw [Nat.sub_sub_self (by omega)]

theorem inverseSum_eq_bitSum (x : Nat → Bit) (index : Nat → Nat) (n i : Nat) :
    inverseSum x index n i = bitSum (fun j => x (backMod (seqLen n) (index j) i)) n := rfl

theorem windowSum_le (x : Nat → Bit) (n i : Nat) : windowSum x n i ≤ seqLen n :=
  Nat.le_sub_one_of_lt (windowSum_eq_bitSum x n i ▸ bitSum_lt _ n)

theorem inverseSum_le (x : Nat → Bit) (index : Nat → Nat) (n i : Nat) : inverseSum x index n i ≤ seqLen n :=
  Nat.le_sub_one_of_lt (bitSum_lt _ n)

/-! ### The tags of the samples -/

theorem backMod_eq_mod {p i k : Nat} (hk : k ≤ i + p) : backMod p i k = (i + p - k) % p := by
  have hcast : ((i + p - k : Nat) : Int) = (i : Int) - k + p := by omega
  rw [backMod, ← Int.add_emod_right, ← hcast]
  rfl

section
variable {n m : Nat} (h : MaximalMask n m)
include h

theorem MaximalMask.sample_backMod {i k : Nat} (hk : k ≤ i + seqLen n) :
    sample n m (backMod (seqLen n) i k) = stream n m (i + seqLen n - k) := by
  rw [sample_eq_stream (backMod_lt (seqLen_pos h.1) i k), backMod_eq_mod hk, h.stream_mod]

/-- Bit b of W(i) is b places after the window's first sample. -/
theorem MaximalMask.ofBool_testBit_windowSum {b : Nat} (hb : b < n) (i : Nat) :
    BitVec.ofBool ((windowSum (sample n m) n i).testBit b) = stream n m (i + seqLen n - (n - 1) + b) := by
  have hle := le_seqLen n
  rw [windowSum_eq_bitSum, ofBool_testBit_bitSum _ hb, h.sample_backMod (by omega)]
  congr 1
  omega

/-- Bit j of TAGL[i] is i places before the j-th unit position. -/
theorem MaximalMask.ofBool_testBit_inverseSum {i j : Nat} (hi : i < seqLen n) (hj : j < n) (index : Nat → Nat) :
    BitVec.ofBool ((inverseSum (sample n m) index n i).testBit j) = stream n m (index j + seqLen n - i) := by
  rw [inverseSum_eq_bitSum, ofBool_testBit_bitSum _ hj, h.sample_backMod (by omega)]

theorem MaximalMask.bijective_windowSum : Bijective (windowSum (sample n m) n) (seqLen n) := by
  refine ⟨fun i _ => ⟨Nat.pos_of_ne_zero fun hz => ?_, windowSum_le _ n i⟩, fun i j hi hj hij => ?_⟩
  · refine h.lineAt_ne_zero (i + seqLen n - (n - 1)) (lineAt_eq_zero_of_stream fun b hb => ?_)
    rw [← h.ofBool_testBit_windowSum hb, hz, Nat.zero_testBit]
    rfl
  · have hline : lineAt n m (i + seqLen n - (n - 1)) = lineAt n m (j + seqLen n - (n - 1)) :=
      lineAt_eq_of_stream_eq fun b hb => by
        rw [← h.ofBool_testBit_windowSum hb, hij, h.ofBool_testBit_windowSum hb]
    have hle := le_seqLen n
    have := h.eq_of_lineAt_eq hline (by omega) (by omega)
    omega

end

/-- Where the windows are a bijection, each power of two has its position. -/
theorem Bijective.exists_unitPosition {x : Nat → Bit} {n : Nat} (h : Bijective (windowSum x n) (seqLen n)) {j : Nat}
    (hj : j < n) : ∃ q, UnitPosition x n j q := by
  have hpow : 2 ^ j < 2 ^ n := Nat.pow_lt_pow_right (by decide) hj
  obtain ⟨q, hq, hval⟩ := h.surjective Nat.one_le_two_pow (Nat.le_sub_one_of_lt hpow)
  exact ⟨q, hq, hval, fun i hi hi2 => h.2 i q hi hq (hi2.trans hval.symm)⟩

/-! ### Sequences that obey the recurrence -/

theorem Recurs.shift {n m : Nat} {z : Nat → Bit} (h : Recurs n m z) (a : Nat) : Recurs n m fun t => z (a + t) := by
  intro t
  beta_reduce
  rw [← Nat.add_assoc, h]
  refine Finset.sum_congr rfl fun k hk => ?_
  have hkn : k < n := Finset.mem_range.mp hk
  rw [show a + t + n - 1 - k = a + (t + n - 1 - k) by omega]

theorem Recurs.sum {n m : Nat} {z : Nat → Nat → Bit} (h : ∀ j, Recurs n m (z j)) (c : Nat → Bit) (w : Nat) :
    Recurs n m fun t => ∑ j ∈ Finset.range w, c j * z j t := by
  intro t
  simp only [h _ t, Finset.mul_sum]
  rw [Finset.sum_comm]
  exact Finset.sum_congr rfl fun k _ => Finset.sum_congr rfl fun j _ => mul_left_comm _ _ _

/-- The first N bits determine the sequence. -/
theorem Recurs.ext {n m : Nat} {z z' : Nat → Bit} (h : Recurs n m z) (h' : Recurs n m z')
    (hfirst : ∀ t, t < n → z t = z' t) (t : Nat) : z t = z' t := by
  induction t using Nat.strong_induction_on with
  | _ t ih =>
    by_cases ht : t < n
    · exact hfirst t ht
    · rw [← Nat.sub_add_cancel (Nat.le_of_not_lt ht), h, h']
      refine Finset.sum_congr rfl fun k hk => ?_
      have hkn : k < n := Finset.mem_range.mp hk
      rw [ih _ (by omega)]

/-! ### The inverse tags -/

section
variable {n m : Nat} (h : MaximalMask n m) {index : Nat → Nat}
  (hindex : ∀ j, j < n → UnitPosition (sample n m) n j (index j))
include h hindex

/-- From the j-th unit position's window on, the stream starts with a 1 at place j among N − 1 zeros. -/
theorem MaximalMask.stream_unit {j b : Nat} (hj : j < n) (hb : b < n) :
    stream n m (index j + seqLen n - (n - 1) + b) = if j = b then 1 else 0 := by
  obtain ⟨-, hval, -⟩ := hindex j hj
  rw [← h.ofBool_testBit_windowSum hb, hval, Nat.testBit_two_pow]
  by_cases hjb : j = b <;> simp [hjb]

/-- The stream from `a` on is the sum of those unit streams that its first N bits select. -/
theorem MaximalMask.stream_eq_sum_unit (a t : Nat) :
    stream n m (a + t) =
      ∑ j ∈ Finset.range n, stream n m (a + j) * stream n m (index j + seqLen n - (n - 1) + t) := by
  have hrec := stream_recurs h.1 m
  refine Recurs.ext (hrec.shift a)
    (Recurs.sum (z := fun j t => stream n m (index j + seqLen n - (n - 1) + t)) (fun j => hrec.shift _) _ n)
    (fun b hb => ?_) t
  rw [Finset.sum_congr rfl fun j hj => by rw [h.stream_unit hindex (Finset.mem_range.mp hj) hb]]
  simp only [mul_ite, mul_one, mul_zero, Finset.sum_ite_eq', Finset.mem_range, hb, if_true]

/-- TAGL[i] alone tells the stream, at the same distance from every place. -/
theorem MaximalMask.stream_eq_sum_inverse {i : Nat} (hi : i < seqLen n) (a : Nat) :
    stream n m (a + (n - 1 + (seqLen n - i))) =
      ∑ j ∈ Finset.range n,
        stream n m (a + j) * BitVec.ofBool ((inverseSum (sample n m) index n i).testBit j) := by
  rw [h.stream_eq_sum_unit hindex]
  refine Finset.sum_congr rfl fun j hj => ?_
  have hle := le_seqLen n
  rw [h.ofBool_testBit_inverseSum hi (Finset.mem_range.mp hj), ← h.stream_add_seqLen (index j + seqLen n - i)]
  congr 2
  omega

theorem MaximalMask.bijective_inverseSum : Bijective (inverseSum (sample n m) index n) (seqLen n) := by
  refine ⟨fun i hi => ⟨Nat.pos_of_ne_zero fun hz => ?_, inverseSum_le _ index n i⟩, fun i j hi hj hij => ?_⟩
  · refine h.lineAt_ne_zero (n - 1 + (seqLen n - i)) (lineAt_eq_zero_of_stream fun b _ => ?_)
    rw [Nat.add_comm, h.stream_eq_sum_inverse hindex hi, hz]
    simp
  · have hline : lineAt n m (n - 1 + (seqLen n - i)) = lineAt n m (n - 1 + (seqLen n - j)) :=
      lineAt_eq_of_stream_eq fun b _ => by
        rw [Nat.add_comm, h.stream_eq_sum_inverse hindex hi, hij, ← h.stream_eq_sum_inverse hindex hj, Nat.add_comm]
    have := h.eq_of_lineAt_eq hline (by omega) (by omega)
    omega

end

end Sys2Proof.Machine
end

section
/-!
SUPPORT. What GENTAGS and GENTAGL do when MLS holds given samples (41_tags.md R130 to R134), and that with the ROM both end
with a bijection (R135).
-/

namespace Sys2Proof.Machine

/-! ### The windows -/

theorem windowFrom_eq_ok {mls : Buf Bit} {n : Nat} {x : Nat → Bit} (h : Holds mls (seqLen n) x) (hp : 0 < seqLen n)
    (i k w : Nat) :
    windowFrom mls (seqLen n) i k w =
      .ok (((List.range' k w).map fun j => (x (backMod (seqLen n) i j)).toNat * 2 ^ (k + w - 1 - j)).sum) := by
  induction w generalizing k with
  | zero => rfl
  | succ w ih =>
    have hread : bufRead .mls mls (backMod (seqLen n) i k) = .ok (x (backMod (seqLen n) i k)) :=
      bufRead_ok_iff.mpr (h _ (backMod_lt hp i k))
    simp only [windowFrom, hread, ih, List.range'_succ, List.map_cons, List.sum_cons]
    rw [show k + (w + 1) - 1 - k = w by omega, show k + (w + 1) - 1 = k + 1 + w - 1 by omega]

theorem windows_eq_ok {mls : Buf Bit} {n : Nat} {x : Nat → Bit} (h : Holds mls (seqLen n) x) (hn : 1 ≤ n) :
    windows mls n = .ok ((List.range' 0 (seqLen n)).map (windowSum x n)) := by
  refine forRange_eq_ok _ 0 fun i _ _ => ?_
  rw [window, windowFrom_eq_ok h (seqLen_pos hn), windowSum, List.range_eq_range', Nat.zero_add]

/-! ### The unit positions -/

theorem positionsFrom_map_range' (g : Nat → Nat) (v i p : Nat) :
    positionsFrom v i ((List.range' i p).map g) = (List.range' i p).filter fun k => g k = v := by
  induction p generalizing i with
  | zero => rfl
  | succ p ih =>
    simp only [List.range'_succ, List.map_cons, positionsFrom, ih, List.filter_cons, decide_eq_true_eq]

theorem positionsFrom_of_unitPosition {x : Nat → Bit} {n j q : Nat} (h : UnitPosition x n j q) :
    positionsFrom (2 ^ j) 0 ((List.range' 0 (seqLen n)).map (windowSum x n)) = [q] := by
  obtain ⟨hq, hval, huniq⟩ := h
  have hnodup : (List.range' 0 (seqLen n)).Nodup := List.nodup_range'
  rw [positionsFrom_map_range', ← List.perm_singleton,
    List.perm_ext_iff_of_nodup (hnodup.filter _) (List.nodup_singleton q)]
  intro k
  simp only [List.mem_filter, List.mem_range'_1, Nat.zero_le, Nat.zero_add, true_and, decide_eq_true_eq,
    List.mem_singleton]
  constructor
  · rintro ⟨hk, hkval⟩
    exact huniq k hk hkval
  · rintro rfl
    exact ⟨hq, hval⟩

theorem unitIndexFrom_eq_ok {colSum : List Nat} {index : Nat → Nat} (j w : Nat)
    (h : ∀ k, j ≤ k → k < j + w → positionsFrom (2 ^ k) 0 colSum = [index k]) :
    unitIndexFrom colSum j w = .ok ((List.range' j w).map index) := by
  induction w generalizing j with
  | zero => rfl
  | succ w ih =>
    have hrest := ih (j + 1) fun k hk hk' => h k (by omega) (by omega)
    simp only [unitIndexFrom, h j (Nat.le_refl j) (by omega), hrest, List.range'_succ, List.map_cons]

/-! ### The inverse tags -/

theorem tagSumFrom_eq_ok {mls : Buf Bit} {p : Nat} {x : Nat → Bit} (h : Holds mls p x) (hp : 0 < p) (index : Nat → Nat)
    (i j w : Nat) :
    tagSumFrom mls p i j ((List.range' j w).map index) =
      .ok (((List.range' j w).map fun k => (x (backMod p (index k) i)).toNat * 2 ^ k).sum) := by
  induction w generalizing j with
  | zero => rfl
  | succ w ih =>
    have hread : bufRead .mls mls (backMod p (index j) i) = .ok (x (backMod p (index j) i)) :=
      bufRead_ok_iff.mpr (h _ (backMod_lt hp _ i))
    simp only [List.range'_succ, List.map_cons, tagSumFrom, hread, ih, List.sum_cons]

theorem inverseTags_eq_ok {mls : Buf Bit} {n : Nat} {x : Nat → Bit} (h : Holds mls (seqLen n) x) (hn : 1 ≤ n)
    (index : Nat → Nat) :
    inverseTags mls ((List.range' 0 n).map index) (seqLen n) =
      .ok ((List.range' 0 (seqLen n)).map (inverseSum x index n)) := by
  refine forRange_eq_ok _ 0 fun i _ _ => ?_
  rw [tagSumFrom_eq_ok h (seqLen_pos hn), inverseSum, List.range_eq_range']

/-! ### The two generators -/

/-- `b` with the values `v` as its tags 0 to p − 1. -/
def withTags (b : Buf Word32) (p : Nat) (v : Nat → Nat) : Buf Word32 :=
  b.writeRun 0 (((List.range' 0 p).map v).map (BitVec.ofNat 32))

theorem sameFrom_withTags (b : Buf Word32) (p : Nat) (v : Nat → Nat) : SameFrom p b (withTags b p v) :=
  sameFrom_writeRun b (by simp)

theorem holds_withTags (b : Buf Word32) (p : Nat) (v : Nat → Nat) :
    Holds (withTags b p v) p fun i => BitVec.ofNat 32 (v i) := by
  rw [withTags, List.map_map]
  exact holds_writeRun_map b p _

theorem execGentags_of_holds {s : State} {x : Nat → Bit} (hs : supported s.curN.toNat = true) (hseqn : s.seqn = s.curN)
    (h : Holds s.mem.mls (seqLen s.curN.toNat) x) :
    let b := withTags s.mem.tags (seqLen s.curN.toNat) (windowSum x s.curN.toNat)
    execGentags s =
      checkGenerated .tags b (seqLen s.curN.toNat) 0 { s with mem := { s.mem with tags := b } } := by
  simp [execGentags, hs, hseqn, windows_eq_ok h (supported_iff.mp hs).1, withTags]

theorem execGentagl_of_holds {s : State} {x : Nat → Bit} {index : Nat → Nat} (hs : supported s.curN.toNat = true)
    (hseqn : s.seqn = s.curN) (h : Holds s.mem.mls (seqLen s.curN.toNat) x)
    (hindex : ∀ j, j < s.curN.toNat → UnitPosition x s.curN.toNat j (index j)) :
    let b := withTags s.mem.tagl (seqLen s.curN.toNat) (inverseSum x index s.curN.toNat)
    execGentagl s =
      checkGenerated .tagl b (seqLen s.curN.toNat) 1 { s with mem := { s.mem with tagl := b } } := by
  have hn := (supported_iff.mp hs).1
  have hunit := unitIndexFrom_eq_ok 0 s.curN.toNat fun k _ hk =>
    positionsFrom_of_unitPosition (hindex k (by omega))
  simp [execGentagl, hs, hseqn, windows_eq_ok h hn, hunit, inverseTags_eq_ok h hn, withTags]

/-! ### The check of the generated tags -/

/-- FirstBad finds nothing in a bijection onto 1, …, P (R132). -/
theorem firstBad_of_checkedTags {b : Buf Word32} {p : Nat} (sp : Space) (h : CheckedTags b p) :
    firstBad sp b p = .ok none := by
  obtain ⟨v, hv, hrange, hinj⟩ := h
  refine firstBad_ok_iff.mpr ⟨(List.range' 0 p).map v, by simp, fun k hk => ?_, ?_⟩
  · simpa using hv k (by simpa using hk)
  · refine firstOffender_eq_none_iff.mpr ⟨fun w hw => ?_, ?_⟩
    · obtain ⟨i, hi, rfl⟩ := List.mem_map.mp hw
      exact ⟨hrange i (by simpa using hi), List.not_mem_nil⟩
    · refine List.Nodup.map_on (fun i hi j hj hij => ?_) List.nodup_range'
      exact hinj i j (by simpa using hi) (by simpa using hj) (congrArg BitVec.toNat hij)

theorem checkGenerated_of_checkedTags {b : Buf Word32} {p : Nat} (h : CheckedTags b p) (sp : Space) (which : Nat)
    (s : State) : checkGenerated sp b p which s = .next (finish s) := by
  rw [checkGenerated, firstBad_of_checkedTags sp h, withRead_ok]

/-- Values of a supported order fit a tag element. -/
theorem checkedTags_withTags (b : Buf Word32) {n : Nat} (hn : n ≤ 18) {v : Nat → Nat} (h : Bijective v (seqLen n)) :
    CheckedTags (withTags b (seqLen n) v) (seqLen n) := by
  have hcap : seqLen n < 2 ^ 32 := (seqLen_le_capSeq hn).trans_lt (by decide)
  have hval : ∀ i, i < seqLen n → (BitVec.ofNat 32 (v i)).toNat = v i := fun i hi =>
    BitVec.toNat_ofNat (v i) 32 ▸ Nat.mod_eq_of_lt ((h.1 i hi).2.trans_lt hcap)
  refine ⟨_, holds_withTags b _ v, fun i hi => ?_, fun i j hi hj hij => ?_⟩
  · simp only [hval i hi]
    exact h.1 i hi
  · simp only [hval i hi, hval j hj] at hij
    exact h.2 i j hi hj hij

/-! ### With the ROM -/

/-- What the invariant says of MLS once a supported order's sequence is generated. -/
theorem Inv.holds_sample {s : State} (hi : Inv s) (hn1 : 1 ≤ s.curN.toNat) (hseqn : s.seqn = s.curN) :
    ∃ m, MaximalMask s.curN.toNat m ∧ Holds s.mem.mls (seqLen s.curN.toNat) (sample s.curN.toNat m) := by
  rcases hi.seqn with hz | ⟨m, hm, hmls⟩
  · rw [← hseqn, hz] at hn1
    exact absurd hn1 (by decide)
  · rw [hseqn] at hm hmls
    obtain ⟨htaps, -, hn18⟩ := supportedMask_eq_some_iff.mp hm
    obtain ⟨m', htaps', hmax⟩ := taps_maximal hn1 hn18
    obtain rfl : m' = m := Option.some.inj (htaps'.symm.trans htaps)
    exact ⟨m', hmax, hmls⟩

/-- Settles O56: MLS holds the sequence of a maximal mask, whose windows and inverse tags are bijections. -/
theorem romTagsNeverFailIntegrity : Obligations.RomTagsNeverFailIntegrity := by
  unfold Obligations.RomTagsNeverFailIntegrity
  intro s p hi hn1 hn18 hseqn
  have hs : supported s.curN.toNat = true := supported_iff.mpr ⟨hn1, hn18⟩
  obtain ⟨m, hmax, hmls⟩ := hi.holds_sample hn1 hseqn
  have hwindows := hmax.bijective_windowSum
  choose! index hindex using fun j (hj : j < s.curN.toNat) => hwindows.exists_unitPosition hj
  have htags := checkedTags_withTags s.mem.tags hn18 hwindows
  have htagl := checkedTags_withTags s.mem.tagl hn18 (hmax.bijective_inverseSum hindex)
  refine ⟨⟨_, ?_, htags, sameFrom_withTags _ _ _⟩, ⟨_, ?_, htagl, sameFrom_withTags _ _ _⟩⟩
  · exact (execGentags_of_holds hs hseqn hmls).trans (checkGenerated_of_checkedTags htags _ _ _)
  · exact (execGentagl_of_holds hs hseqn hmls hindex).trans (checkGenerated_of_checkedTags htagl _ _ _)

end Sys2Proof.Machine
end

section
/-!
SUPPORT. What FirstBad answers (41_tags.md R132), and the two checks built on it: of a generator's own output, and of the arrays
that ESTIMATE is given (43_pipeline.md R161).
-/

namespace Sys2Proof.Machine

/-! ### The least offending index -/

open Classical in
/-- The scan of R132 is a search for an index that offends. -/
theorem firstOffender_eq_find? {v : Nat → Word32} {p i n : Nat} {seen : List Word32} (hle : i + n ≤ p)
    (hseen : ∀ w, w ∈ seen ↔ ∃ k, k < i ∧ v k = w) :
    firstOffender p seen i ((List.range' i n).map v) =
      (List.range' i n).find? fun k => Offends (fun j => (v j).toNat) p k := by
  induction n generalizing i seen with
  | zero => rfl
  | succ n ih =>
    have hoff : Offends (fun j => (v j).toNat) p i ↔ (v i).toNat < 1 ∨ p < (v i).toNat ∨ v i ∈ seen := by
      simp only [Offends, hseen, BitVec.toNat_inj, show i < p by omega, true_and]
    have hseen' : ∀ w, w ∈ v i :: seen ↔ ∃ k, k < i + 1 ∧ v k = w := fun w => by
      rw [List.mem_cons, hseen, Nat.exists_lt_succ_right, or_comm, eq_comm]
    simp only [List.range'_succ, List.map_cons, firstOffender, List.find?_cons, ← hoff, ih (by omega) hseen']
    by_cases h : Offends (fun j => (v j).toNat) p i <;> simp [h]

theorem firstOffender_eq_some_iff {v : Nat → Word32} {p f : Nat} :
    firstOffender p [] 0 ((List.range' 0 p).map v) = some f ↔ LeastOffender (fun i => (v i).toNat) p f := by
  rw [firstOffender_eq_find? (Nat.zero_add p).le (by simp), List.find?_range'_eq_some]
  simp only [decide_eq_true_eq, List.mem_range'_1, Nat.zero_le, Nat.zero_add, true_and, forall_const,
    Bool.not_eq_true', decide_eq_false_iff_not, LeastOffender]
  exact ⟨fun ⟨hf, _, hleast⟩ => ⟨hf, hleast⟩, fun ⟨hf, hleast⟩ => ⟨hf, hf.1, hleast⟩⟩

/-- A map of [0, P) that takes every value from 1 to P takes each once, and no other. -/
theorem bijective_of_surjective {v : Nat → Nat} {p : Nat} (h : ∀ y, 1 ≤ y → y ≤ p → ∃ i, i < p ∧ v i = y) :
    Bijective v p := by
  have hsub : Finset.Icc 1 p ⊆ (Finset.range p).image v := by
    intro y hy
    obtain ⟨h1, hp⟩ := Finset.mem_Icc.mp hy
    obtain ⟨i, hi, rfl⟩ := h y h1 hp
    exact Finset.mem_image_of_mem v (Finset.mem_range.mpr hi)
  have hcard : (Finset.Icc 1 p).card = (Finset.range p).card := by simp
  have hle : ((Finset.range p).image v).card ≤ (Finset.Icc 1 p).card := hcard ▸ Finset.card_image_le
  have himage := Finset.eq_of_subset_of_card_le hsub hle
  have hinj : Set.InjOn v (Finset.range p) := Finset.card_image_iff.mp (by rw [← himage, hcard])
  refine ⟨fun i hi => ?_, fun i j hi hj => hinj (by simpa using hi) (by simpa using hj)⟩
  exact Finset.mem_Icc.mp (himage ▸ Finset.mem_image_of_mem v (Finset.mem_range.mpr hi))

/-! ### FirstBad on a written array -/

section
variable {b : Buf Word32} {p : Nat} {v : Nat → Word32} (h : Holds b p v) (sp : Space)
include h

theorem firstBad_of_holds : firstBad sp b p = .ok (firstOffender p [] 0 ((List.range' 0 p).map v)) := by
  have hread : forRange (bufRead sp b) 0 p = .ok ((List.range' 0 p).map v) :=
    forRange_eq_ok p 0 fun k _ hk => bufRead_ok_iff.mpr (h k (by omega))
  rw [firstBad, hread]

theorem firstBad_eq_some_iff {f : Nat} :
    firstBad sp b p = .ok (some f) ↔ LeastOffender (fun i => (v i).toNat) p f := by
  rw [firstBad_of_holds h, Except.ok.injEq, firstOffender_eq_some_iff]

theorem firstBad_eq_none_iff : firstBad sp b p = .ok none ↔ Bijective (fun i => (v i).toNat) p := by
  constructor
  · intro hnone
    obtain ⟨w, hw, hrange, hinj⟩ := checkedTags_of_firstBad hnone
    have hwv : ∀ i, i < p → w i = v i := fun i hi => Option.some.inj ((hw i hi).symm.trans (h i hi))
    refine ⟨fun i hi => by simpa only [hwv i hi] using hrange i hi, fun i j hi hj hij => hinj i j hi hj ?_⟩
    simpa only [hwv i hi, hwv j hj] using hij
  · exact fun hbij => firstBad_of_checkedTags sp ⟨v, h, hbij⟩

end

/-- Settles O26: the scan is a search for the least offender, and by counting no index offends exactly when no value from 1 to P
is missing. -/
theorem firstBadFindsTheLeastOffender : Obligations.FirstBadFindsTheLeastOffender := by
  unfold Obligations.FirstBadFindsTheLeastOffender
  intro sp b p v
  refine ⟨fun h => ⟨?_, fun f => firstBad_eq_some_iff h sp⟩, fun k hk hbelow hnone => ?_⟩
  · rw [firstBad_eq_none_iff h]
    exact ⟨fun hbij y h1 hp => hbij.surjective h1 hp, bijective_of_surjective⟩
  · exact firstBad_error_iff.mpr ⟨k, hk, hnone, rfl, fun j hj => Option.isSome_iff_exists.mp (hbelow j hj)⟩

/-! ### The checks -/

section
variable {b : Buf Word32} {p : Nat} {v : Nat → Word32} {f : Nat} (h : Holds b p v)
  (hf : LeastOffender (fun i => (v i).toNat) p f) (sp : Space) (which : Nat) (s : State)
include h hf

theorem checkGenerated_of_leastOffender :
    checkGenerated sp b p which s = .next (raiseIntegrity .generate f which s) := by
  rw [checkGenerated, (firstBad_eq_some_iff h sp).mpr hf, withRead_ok]

theorem checkSupplied_of_leastOffender (go : Result) :
    checkSupplied sp b p which s go = .next (raiseIntegrity .check f which s) := by
  rw [checkSupplied, (firstBad_eq_some_iff h sp).mpr hf, withRead_ok]

end

theorem checkSupplied_of_checkedTags {b : Buf Word32} {p : Nat} (h : CheckedTags b p) (sp : Space) (which : Nat)
    (s : State) (go : Result) : checkSupplied sp b p which s go = go := by
  rw [checkSupplied, firstBad_of_checkedTags sp h, withRead_ok]

/-- With a supported order and the right length, ESTIMATE's first step is the two checks and then stage 1 (R161). -/
theorem estimatePermute_of_length {s : State} (hs : supported s.curN.toNat = true)
    (hlen : s.curReclen.toNat = seqLen s.curN.toNat) :
    estimatePermute s =
      checkSupplied .tags s.mem.tags (seqLen s.curN.toNat) 0 s
        (checkSupplied .tagl s.mem.tagl (seqLen s.curN.toNat) 1 s
          (withRead (permuteStage binary64 s.env.draws s.mem.tags s.mem.recd s.mem.work (seqLen s.curN.toNat)) fun work =>
            .next (setState .transform
              (useDraws (seqLen s.curN.toNat) { s with mem := { s.mem with work := work } })))) := by
  simp [estimatePermute, hs, hlen]

/-- Settles O25: TAGS is checked first, and TAGL once it passes. -/
theorem badTagsReportIntegrity : Obligations.BadTagsReportIntegrity := by
  unfold Obligations.BadTagsReportIntegrity
  intro s v w f hn1 hn18 hstate p hlen htags
  rw [exec_estimate_permute hstate, estimatePermute_of_length (supported_iff.mpr ⟨hn1, hn18⟩) hlen]
  refine ⟨fun hf => ?_, fun hbij htagl hf => ?_⟩
  · exact checkSupplied_of_leastOffender htags hf _ _ _ _
  · exact (checkSupplied_of_checkedTags ⟨v, htags, hbij⟩ _ _ _ _).trans
      (checkSupplied_of_leastOffender htagl hf _ _ _ _)

end Sys2Proof.Machine
end

section
/-!
SUPPORT. What GENTAGS and GENTAGL leave in their arrays and how they end, whatever samples MLS holds (41_tags.md R131, R134).
-/

namespace Sys2Proof.Machine

/-! ### Generated tags -/

section
variable {n : Nat} {v : Nat → Nat} (hn : n ≤ 18) (hv : ∀ i, v i ≤ seqLen n)
include hn hv

/-- Tags of a supported order fit their 32 bits. -/
theorem toNat_ofNat_tag (i : Nat) : (BitVec.ofNat 32 (v i)).toNat = v i :=
  BitVec.toNat_ofNat (v i) 32 ▸
    Nat.mod_eq_of_lt ((hv i).trans_lt ((seqLen_le_capSeq hn).trans_lt (by decide)))

theorem read_withTags (b : Buf Word32) (i : Nat) (hi : i < seqLen n) :
    (Buf.read (withTags b (seqLen n) v) i).map BitVec.toNat = some (v i) := by
  rw [holds_withTags b _ v i hi, Option.map_some, toNat_ofNat_tag hn hv]

theorem checkGenerated_withTags_of_leastOffender {f : Nat} (hf : LeastOffender v (seqLen n) f) (b : Buf Word32)
    (sp : Space) (which : Nat) (s : State) :
    checkGenerated sp (withTags b (seqLen n) v) (seqLen n) which s = .next (raiseIntegrity .generate f which s) :=
  checkGenerated_of_leastOffender (holds_withTags b _ v) (by simpa only [toNat_ofNat_tag hn hv] using hf) sp which s

end

theorem checkGenerated_withTags_of_bijective {n : Nat} {v : Nat → Nat} (hn : n ≤ 18) (h : Bijective v (seqLen n))
    (b : Buf Word32) (sp : Space) (which : Nat) (s : State) :
    checkGenerated sp (withTags b (seqLen n) v) (seqLen n) which s = .next (finish s) :=
  checkGenerated_of_checkedTags (checkedTags_withTags b hn h) sp which s

/-- Settles O30: GENTAGS writes the windows, which fit a tag, and ends by their check. -/
theorem gentagsWritesTheWindows : Obligations.GentagsWritesTheWindows := by
  unfold Obligations.GentagsWritesTheWindows
  intro s x n p hn1 hn18 hseqn hmls
  have hexec := execGentags_of_holds (supported_iff.mpr ⟨hn1, hn18⟩) hseqn hmls
  have hle := windowSum_le x n
  exact ⟨_, read_withTags hn18 hle s.mem.tags, sameFrom_withTags _ _ _,
    fun hbij => hexec.trans (checkGenerated_withTags_of_bijective hn18 hbij _ _ _ _),
    fun f hf => hexec.trans (checkGenerated_withTags_of_leastOffender hn18 hle hf _ _ _ _)⟩

/-- Settles O31: with every unit position found, GENTAGL writes the inverse tags, which fit a tag, and ends by their check. -/
theorem gentaglWritesTheInverseTags : Obligations.GentaglWritesTheInverseTags := by
  unfold Obligations.GentaglWritesTheInverseTags
  intro s x index n p hn1 hn18 hseqn hmls hindex
  have hexec := execGentagl_of_holds (supported_iff.mpr ⟨hn1, hn18⟩) hseqn hmls hindex
  have hle := inverseSum_le x index n
  exact ⟨_, read_withTags hn18 hle s.mem.tagl, sameFrom_withTags _ _ _,
    fun hbij => hexec.trans (checkGenerated_withTags_of_bijective hn18 hbij _ _ _ _),
    fun f hf => hexec.trans (checkGenerated_withTags_of_leastOffender hn18 hle hf _ _ _ _)⟩

/-! ### A failing unit search -/

theorem unitPosition_of_positionsFrom {x : Nat → Bit} {n j q : Nat}
    (h : positionsFrom (2 ^ j) 0 ((List.range' 0 (seqLen n)).map (windowSum x n)) = [q]) : UnitPosition x n j q := by
  have hmem : ∀ k, k < seqLen n ∧ windowSum x n k = 2 ^ j ↔ k = q := fun k => by
    have hk : k ∈ [q] ↔ k = q := List.mem_singleton
    rw [← h, positionsFrom_map_range'] at hk
    simpa using hk
  obtain ⟨hq, hval⟩ := (hmem q).mpr rfl
  exact ⟨hq, hval, fun i hi hi2 => (hmem i).mp ⟨hi, hi2⟩⟩

/-- The search stops at the first unit value without exactly one position. -/
theorem unitIndexFrom_eq_error {colSum : List Nat} {j k : Nat} (w : Nat) (hjk : j ≤ k) (hkw : k < j + w)
    (hfail : ∀ q, positionsFrom (2 ^ k) 0 colSum ≠ [q])
    (hbelow : ∀ i, j ≤ i → i < k → ∃ q, positionsFrom (2 ^ i) 0 colSum = [q]) :
    unitIndexFrom colSum j w = .error k := by
  induction w generalizing j with
  | zero => omega
  | succ w ih =>
    rw [unitIndexFrom]
    rcases hjk.eq_or_lt with rfl | hlt
    · split
      · next q hq => exact absurd hq (hfail q)
      · rfl
    · obtain ⟨q, hq⟩ := hbelow j (Nat.le_refl j) hlt
      simp only [hq, ih hlt (by omega) fun i hi hik => hbelow i (by omega) hik]

theorem execGentagl_of_unitIndexFrom_error {s : State} {x : Nat → Bit} {j : Nat} (hs : supported s.curN.toNat = true)
    (hseqn : s.seqn = s.curN) (h : Holds s.mem.mls (seqLen s.curN.toNat) x)
    (hj : unitIndexFrom ((List.range' 0 (seqLen s.curN.toNat)).map (windowSum x s.curN.toNat)) 0 s.curN.toNat =
      .error j) :
    execGentagl s = .next (raiseIntegrity .generate j 2 s) := by
  simp [execGentagl, hs, hseqn, windows_eq_ok h (supported_iff.mp hs).1, hj]

/-- Settles O32: the search answers the least failing bit position, before any write. -/
theorem gentaglUnitSearchFails : Obligations.GentaglUnitSearchFails := by
  unfold Obligations.GentaglUnitSearchFails
  intro s x j n hn1 hn18 hseqn hmls hj hnone hbelow
  refine execGentagl_of_unitIndexFrom_error (supported_iff.mpr ⟨hn1, hn18⟩) hseqn hmls
    (unitIndexFrom_eq_error n (Nat.zero_le j) (by omega) (fun q hq => hnone q (unitPosition_of_positionsFrom hq)) ?_)
  intro k _ hk
  obtain ⟨q, hq⟩ := hbelow k hk
  exact ⟨q, positionsFrom_of_unitPosition hq⟩

end Sys2Proof.Machine
end

section
/-!
SUPPORT. Two laws of the tags as sums over the samples: the window is incremental (41_tags.md R133), and a maximal mask gives
bijections (R135).
-/

namespace Sys2Proof.Machine

theorem bitSum_succ (z : Nat → Bit) (n : Nat) : bitSum z (n + 1) = bitSum z n + (z n).toNat * 2 ^ n :=
  Finset.sum_range_succ _ n

/-- Halving drops the lowest bit. -/
theorem bitSum_succ_div_two (z : Nat → Bit) (n : Nat) : bitSum z (n + 1) / 2 = bitSum (fun j => z (j + 1)) n := by
  have hdouble : bitSum z (n + 1) = bitSum (fun j => z (j + 1)) n * 2 + (z 0).toNat := by
    simp only [bitSum, Finset.sum_range_succ', Finset.sum_mul, pow_succ, mul_assoc, pow_zero, mul_one]
  have hbit : (z 0).toNat < 2 := (z 0).isLt
  omega

theorem bitSum_congr {z z' : Nat → Bit} {n : Nat} (h : ∀ j, j < n → z j = z' j) : bitSum z n = bitSum z' n :=
  Finset.sum_congr rfl fun j hj => by rw [h j (Finset.mem_range.mp hj)]

theorem backMod_zero {p i : Nat} (h : i < p) : backMod p i 0 = i := by
  rw [backMod_eq_mod (Nat.zero_le _), Nat.sub_zero, Nat.add_mod_right, Nat.mod_eq_of_lt h]

theorem backMod_succ_succ (p i k : Nat) : backMod p (i + 1) (k + 1) = backMod p i k := by
  rw [backMod, backMod, Nat.cast_succ, Nat.cast_succ, add_sub_add_right_eq_sub]

/-- Settles O33: all bits of W(i) but the highest, which is the sample at i, are those of W(i − 1) one place lower. -/
theorem windowIsIncremental : Obligations.WindowIsIncremental := by
  unfold Obligations.WindowIsIncremental
  intro x n i hn hi hip
  obtain ⟨n, rfl⟩ := Nat.exists_eq_add_of_le' hn
  obtain ⟨i, rfl⟩ := Nat.exists_eq_add_of_le' hi
  rw [windowSum_eq_bitSum, windowSum_eq_bitSum, bitSum_succ, bitSum_succ_div_two, Nat.add_sub_cancel, Nat.add_sub_cancel,
    Nat.sub_self, backMod_zero (p := seqLen (n + 1)) hip]
  congr 1
  refine bitSum_congr fun j hj => ?_
  rw [show n - j = n - (j + 1) + 1 by omega, backMod_succ_succ]

/-- Settles O34: the generated sequence has period P, so its windows, and the inverse tags from their unit positions, all
differ. -/
theorem maximalMasksGiveBijectiveTags : Obligations.MaximalMasksGiveBijectiveTags := by
  unfold Obligations.MaximalMasksGiveBijectiveTags
  intro n m hmax
  have hwindows := hmax.bijective_windowSum
  choose! index hindex using fun j (hj : j < n) => hwindows.exists_unitPosition hj
  exact ⟨hwindows, index, hindex, hmax.bijective_inverseSum hindex⟩

end Sys2Proof.Machine
end

section
/-!
SUPPORT. The SHAPE error, which FHT and ESTIMATE report before they look at a buffer (42_transform.md R151; 43_pipeline.md R161).
-/

namespace Sys2Proof.Machine

theorem execFht_of_wrong_length {s : State} (hs : supported s.curN.toNat = true)
    (hlen : s.curWorklen.toNat ≠ workLen s.curN.toNat) :
    execFht s = .next (raiseShape s.curWorklen (workLen s.curN.toNat) s) := by
  simp [execFht, hs, hlen]

theorem estimatePermute_of_wrong_length {s : State} (hs : supported s.curN.toNat = true)
    (hlen : s.curReclen.toNat ≠ seqLen s.curN.toNat) :
    estimatePermute s = .next (raiseShape s.curReclen (seqLen s.curN.toNat) s) := by
  simp [estimatePermute, hs, hlen]

/-- Settles O24: the order is supported, so the test of the length decides. -/
theorem wrongLengthReportsShape : Obligations.WrongLengthReportsShape := by
  unfold Obligations.WrongLengthReportsShape
  intro s hn1 hn18
  have hs : supported s.curN.toNat = true := supported_iff.mpr ⟨hn1, hn18⟩
  refine ⟨fun hlen => ?_, fun hstate hlen => ?_⟩
  · exact execFht_of_wrong_length hs hlen
  · rw [exec_estimate_permute hstate]
    exact estimatePermute_of_wrong_length hs hlen

end Sys2Proof.Machine
end

section
/-!
SUPPORT. What the transform kernel computes, element by element, in any number format (42_transform.md R150). A stage at
distance h acts on each block of 2h elements alone, and the draws are numbered by the element (log 5).
-/

namespace Sys2Proof.Machine

/-! ### One stage -/

/-- Element `k` of one stage at distance `h` from the elements `x`, the draws numbered from `d` on. -/
def stageValue {α : Type} (num : Num α) (d h : Nat) (x : Nat → α) (k : Nat) : α :=
  if k / h % 2 = 0 then num.add (d + k) (x k) (x (k + h)) else num.sub (d + k) (x (k - h)) (x k)

theorem htValue_succ {α : Type} (num : Num α) (n d : Nat) (x : Nat → α) (j : Nat) :
    htValue num n d x (j + 1) = stageValue num (d + j * 2 ^ n) (2 ^ (n - (j + 1))) (htValue num n d x j) := rfl

section
variable {α : Type} (num : Num α) (d : Nat) {h : Nat} (x : Nat → α) (c : Nat) {r : Nat} (hr : r < h)
include hr

/-- The lower element of a pair holds the sum. -/
theorem stageValue_even : stageValue num d h x (2 * c * h + r) =
    num.add (d + (2 * c * h + r)) (x (2 * c * h + r)) (x ((2 * c + 1) * h + r)) := by
  have hdiv : (2 * c * h + r) / h = 2 * c :=
    Nat.div_eq_of_lt_le (Nat.le_add_right _ _) (by rw [Nat.add_one_mul (2 * c) h]; omega)
  rw [stageValue, hdiv, if_pos (Nat.mul_mod_right 2 c), Nat.add_one_mul (2 * c) h, Nat.add_right_comm]

/-- The higher element holds the difference. -/
theorem stageValue_odd : stageValue num d h x ((2 * c + 1) * h + r) =
    num.sub (d + ((2 * c + 1) * h + r)) (x (2 * c * h + r)) (x ((2 * c + 1) * h + r)) := by
  have hdiv : ((2 * c + 1) * h + r) / h = 2 * c + 1 :=
    Nat.div_eq_of_lt_le (Nat.le_add_right _ _) (by rw [Nat.add_one_mul (2 * c + 1) h]; omega)
  have hback : (2 * c + 1) * h + r - h = 2 * c * h + r := by rw [Nat.add_one_mul (2 * c) h]; omega
  rw [stageValue, hdiv, if_neg (by omega), hback]

end

theorem zipDraws_map_range' {α : Type} (f : Nat → α → α → α) (d : Nat) (a b : Nat → α) (s n : Nat) :
    zipDraws f (d + s) ((List.range' s n).map a) ((List.range' s n).map b) =
      (List.range' s n).map fun k => f (d + k) (a k) (b k) := by
  induction n generalizing s with
  | zero => rfl
  | succ n ih => simp only [List.range'_succ, List.map_cons, zipDraws, Nat.add_assoc, ih]

theorem map_range'_add {α : Type} (x : Nat → α) (s h n : Nat) :
    (List.range' (s + h) n).map x = (List.range' s n).map fun k => x (k + h) := by
  rw [Nat.add_comm s h, ← List.map_add_range', List.map_map]
  exact List.map_congr_left fun k _ => congrArg x (Nat.add_comm h k)

/-- One block is one block of the stage's elements. -/
theorem butterflies_map_range' {α : Type} (num : Num α) (d h : Nat) (x : Nat → α) (c : Nat) :
    butterflies num (d + 2 * c * h) ((List.range' (2 * c * h) h).map x) ((List.range' ((2 * c + 1) * h) h).map x) =
      (List.range' (2 * c * h) (2 * h)).map (stageValue num d h x) := by
  have hmid : (2 * c + 1) * h = 2 * c * h + h := Nat.succ_mul _ _
  have hsum : zipDraws num.add (d + 2 * c * h) ((List.range' (2 * c * h) h).map x)
      ((List.range' (2 * c * h) h).map fun k => x (k + h)) = (List.range' (2 * c * h) h).map (stageValue num d h x) := by
    rw [zipDraws_map_range']
    refine List.map_congr_left fun k hk => ?_
    obtain ⟨r, rfl⟩ := Nat.exists_eq_add_of_le (List.mem_range'_1.mp hk).1
    rw [stageValue_even num d x c (by simpa using hk), hmid, Nat.add_right_comm]
  have hdiff : zipDraws num.sub (d + 2 * c * h + h) ((List.range' (2 * c * h) h).map x)
      ((List.range' (2 * c * h) h).map fun k => x (k + h)) =
      (List.range' (2 * c * h) h).map fun k => stageValue num d h x (k + h) := by
    rw [Nat.add_right_comm, zipDraws_map_range']
    refine List.map_congr_left fun k hk => ?_
    obtain ⟨r, rfl⟩ := Nat.exists_eq_add_of_le (List.mem_range'_1.mp hk).1
    have hodd := stageValue_odd num d x c (r := r) (by simpa using hk)
    rw [hmid] at hodd
    rw [Nat.add_right_comm _ r h, hodd]
    congr 1
    omega
  rw [hmid, map_range'_add, butterflies, List.length_map, List.length_range', hsum, hdiff, Nat.two_mul h,
    ← List.range'_append_1, List.map_append, map_range'_add]

theorem htStage_append {α : Type} (num : Num α) {h : Nat} (blocks d : Nat) {lo hi : List α} (hlo : lo.length = h)
    (hhi : hi.length = h) (rest : List α) :
    htStage num h (blocks + 1) d (lo ++ (hi ++ rest)) =
      butterflies num d lo hi ++ htStage num h blocks (d + 2 * h) rest := by
  rw [htStage, List.take_left' hlo, List.drop_left' hlo, List.take_left' hhi, ← List.append_assoc,
    List.drop_left' (by rw [List.length_append]; omega)]

/-- A stage over the blocks from block `c` on. -/
theorem htStage_map_range' {α : Type} (num : Num α) (d h : Nat) (x : Nat → α) (blocks c : Nat) :
    htStage num h blocks (d + 2 * c * h) ((List.range' (2 * c * h) (blocks * (2 * h))).map x) =
      (List.range' (2 * c * h) (blocks * (2 * h))).map (stageValue num d h x) := by
  induction blocks generalizing c with
  | zero => simp [htStage]
  | succ blocks ih =>
    have hmid : (2 * c + 1) * h = 2 * c * h + h := Nat.add_one_mul _ _
    have hnext : 2 * (c + 1) * h = 2 * c * h + 2 * h := by ring
    have hblock : List.range' (2 * c * h) (2 * h) = List.range' (2 * c * h) h ++ List.range' ((2 * c + 1) * h) h := by
      rw [hmid, List.range'_append_1, Nat.two_mul h]
    have hsplit : List.range' (2 * c * h) ((blocks + 1) * (2 * h)) =
        List.range' (2 * c * h) (2 * h) ++ List.range' (2 * (c + 1) * h) (blocks * (2 * h)) := by
      rw [hnext, List.range'_append_1, Nat.succ_mul blocks, Nat.add_comm]
    rw [hsplit, List.map_append, List.map_append, ← butterflies_map_range', ← ih, hblock, List.map_append, List.append_assoc,
      htStage_append num blocks _ (by simp) (by simp), Nat.add_assoc, ← hnext]

/-! ### All stages -/

/-- The last `stages` stages, from the elements that the first `j` leave. -/
theorem htStages_map_range' {α : Type} (num : Num α) (d n : Nat) (x : Nat → α) (stages j : Nat) (hn : j + stages = n) :
    htStages num stages (2 ^ j) (d + j * 2 ^ n) ((List.range' 0 (2 ^ n)).map (htValue num n d x j)) =
      (List.range' 0 (2 ^ n)).map (htValue num n d x n) := by
  induction stages generalizing j with
  | zero =>
    obtain rfl : j = n := hn
    rfl
  | succ stages ih =>
    have hstage := htStage_map_range' num (d + j * 2 ^ n) (2 ^ stages) (htValue num n d x j) (2 ^ j) 0
    have hlen : 2 ^ j * (2 * 2 ^ stages) = 2 ^ n := by rw [← Nat.pow_succ', ← Nat.pow_add, hn]
    have hdist : n - (j + 1) = stages := by omega
    rw [hlen, Nat.mul_zero, Nat.zero_mul, Nat.add_zero] at hstage
    rw [htStages, hstage, List.length_map, List.length_range', Nat.add_assoc, ← Nat.add_one_mul, ← Nat.pow_succ', ← hdist,
      ← htValue_succ, hdist, ih (j + 1) (by omega)]

/-- HT leaves in each element what the n stages of butterflies give it. -/
theorem hadamard_map_range' {α : Type} (num : Num α) (n d : Nat) (x : Nat → α) :
    hadamard num n d ((List.range' 0 (2 ^ n)).map x) = (List.range' 0 (2 ^ n)).map (htValue num n d x n) := by
  have hall := htStages_map_range' num d n x n 0 (Nat.zero_add n)
  rwa [Nat.zero_mul, Nat.add_zero] at hall

end Sys2Proof.Machine
end

section
/-!
SUPPORT. HT on the working buffer, and the two steps that run it: FHT and ESTIMATE's second step (42_transform.md R150, R151;
43_pipeline.md R162).
-/

namespace Sys2Proof.Machine

/-! ### The reads of the first stage -/

theorem readHalves_eq_ok {α : Type} {b : Buf α} {h : Nat} {x : Nat → α} (hb : Holds b (2 * h) x) :
    readHalves b h = .ok ((List.range' 0 h).map fun k => (x k, x (k + h))) := by
  refine forRange_eq_ok h 0 fun k _ hk => ?_
  rw [bufRead_ok_iff.mpr (hb k (by omega))]
  simp only [bufRead_ok_iff.mpr (hb (k + h) (by omega))]

/-- The first stage reads every element. -/
theorem written_of_readHalves_ok {α : Type} {b : Buf α} {h : Nat} {ps : List (α × α)} (hps : readHalves b h = .ok ps) :
    Written b (2 * h) := by
  obtain ⟨hlen, hread⟩ := forRange_ok_iff.mp hps
  have hpair : ∀ k, k < h → (Buf.read b k).isSome = true ∧ (Buf.read b (k + h)).isSome = true := fun k hk => by
    have hk' := hread k (by omega)
    rw [Nat.zero_add] at hk'
    split at hk'
    · cases hk'
    · next v hv =>
      split at hk'
      · cases hk'
      · next w hw => simp [bufRead_ok_iff.mp hv, bufRead_ok_iff.mp hw]
  intro i hi
  by_cases hlt : i < h
  · exact (hpair i hlt).1
  · have := (hpair (i - h) (by omega)).2
    rwa [Nat.sub_add_cancel (by omega)] at this

/-- A fault of the reads is that of an unwritten element. -/
theorem unwritten_of_readHalves_error {α : Type} {b : Buf α} {h : Nat} {e : Fault} (he : readHalves b h = .error e) :
    ∃ q, q < 2 * h ∧ Buf.read b q = none ∧ e = .unwrittenRead .work q := by
  obtain ⟨k, hk, hread, -⟩ := forRange_error_iff.mp he
  rw [Nat.zero_add] at hread
  split at hread
  · next e' hfirst =>
    obtain ⟨hnone, rfl⟩ := bufRead_error_iff.mp hfirst
    exact ⟨k, by omega, hnone, (Except.error.inj hread).symm⟩
  · split at hread
    · next e' hsecond =>
      obtain ⟨hnone, rfl⟩ := bufRead_error_iff.mp hsecond
      exact ⟨k + h, by omega, hnone, (Except.error.inj hread).symm⟩
    · cases hread

/-! ### The transform of a buffer -/

/-- On a written buffer HT leaves the stages' values in elements 0 to L − 1 and keeps the rest. -/
theorem transform_eq_ok {α : Type} (num : Num α) (d : Nat) {n : Nat} (hn : 1 ≤ n) {work : Buf α} {x : Nat → α}
    (h : Holds work (2 ^ n) x) :
    transform num d work n = .ok (work.writeRun 0 ((List.range' 0 (2 ^ n)).map (htValue num n d x n))) := by
  obtain ⟨k, rfl⟩ := Nat.exists_eq_add_of_le' hn
  have hlen : 2 ^ (k + 1) = 2 ^ k + 2 ^ k := by omega
  rw [Nat.pow_succ'] at h
  have hinput : (List.range' 0 (2 ^ k)).map x ++ (List.range' 0 (2 ^ k)).map (fun i => x (i + 2 ^ k)) =
      (List.range' 0 (2 ^ (k + 1))).map x := by
    rw [hlen, ← List.range'_append_1, List.map_append, map_range'_add]
  rw [transform, readHalves_eq_ok h]
  simp only [List.map_map, Function.comp_def, hinput, hadamard_map_range']

/-- With an element below L unwritten, HT faults on one that is unwritten. -/
theorem transform_eq_error {α : Type} (num : Num α) (d : Nat) {n k : Nat} (hn : 1 ≤ n) {work : Buf α} (hk : k < 2 ^ n)
    (hnone : Buf.read work k = none) :
    ∃ q, q < 2 ^ n ∧ Buf.read work q = none ∧ transform num d work n = .error (.unwrittenRead .work q) := by
  obtain ⟨m, rfl⟩ := Nat.exists_eq_add_of_le' hn
  rw [Nat.pow_succ'] at hk ⊢
  cases hread : readHalves work (2 ^ m) with
  | ok ps =>
    have hsome := written_of_readHalves_ok hread k hk
    rw [hnone] at hsome
    cases hsome
  | error e =>
    obtain ⟨q, hq, hqnone, rfl⟩ := unwritten_of_readHalves_error hread
    exact ⟨q, hq, hqnone, by rw [transform, hread]⟩

/-! ### FHT -/

/-- With a supported order and the right length, FHT is HT on WORK (R151). -/
theorem execFht_of_length {s : State} (hs : supported s.curN.toNat = true)
    (hlen : s.curWorklen.toNat = workLen s.curN.toNat) :
    execFht s = withRead (transform binary64 s.env.draws s.mem.work s.curN.toNat) fun work =>
      .next (finish (useDraws (transformDraws s.curN.toNat) { s with mem := { s.mem with work := work } })) := by
  simp [execFht, hs, hlen]

/-- Settles O35: the reads give the elements, and the kernel gives each its value after N stages. -/
theorem fhtTransformsTheWorkingBuffer : Obligations.FhtTransformsTheWorkingBuffer := by
  unfold Obligations.FhtTransformsTheWorkingBuffer
  intro s v n hn1 hn18 hlen hwork
  refine ⟨_, s.env.draws + transformDraws n, ?_, holds_writeRun_map s.mem.work _ _, sameFrom_writeRun_map _ _ _⟩
  rw [exec, execFht_of_length (supported_iff.mpr ⟨hn1, hn18⟩) hlen, transform_eq_ok binary64 _ hn1 hwork]
  rfl

/-- Settles O36: the first stage reads every element, so it meets one that is unwritten. -/
theorem fhtOnUnwrittenWorkFaults : Obligations.FhtOnUnwrittenWorkFaults := by
  unfold Obligations.FhtOnUnwrittenWorkFaults
  intro s k hn1 hn18 hlen hk hnone
  obtain ⟨q, hq, hqnone, herror⟩ := transform_eq_error binary64 s.env.draws hn1 hk hnone
  refine ⟨q, hq, hqnone, ?_⟩
  rw [exec, execFht_of_length (supported_iff.mpr ⟨hn1, hn18⟩) hlen, herror, withRead_error]

/-! ### ESTIMATE's second step -/

theorem exec_estimate_transform {s : State} (h : s.status.state = .transform) :
    exec .estimate s = estimateTransform s := by
  simp [exec, execEstimate, h]

theorem estimateTransform_of_ok {s : State} {work : Buf Real64} (hc : s.cancel = false)
    (h : transform binary64 s.env.draws s.mem.work s.curN.toNat = .ok work) :
    estimateTransform s = .next (setState .permuteScale
      (useDraws (transformDraws s.curN.toNat) { s with mem := { s.mem with work := work } })) := by
  simp [estimateTransform, hc, h]

/-- Settles O40: not cancelled, the step is HT on WORK, and STATE moves on. -/
theorem estimateSecondStepTransforms : Obligations.EstimateSecondStepTransforms := by
  unfold Obligations.EstimateSecondStepTransforms
  intro s v n hn1 hn18 hstate hcancel hwork
  refine ⟨_, s.env.draws + transformDraws n, ?_, holds_writeRun_map s.mem.work _ _, sameFrom_writeRun_map _ _ _⟩
  rw [exec_estimate_transform hstate, estimateTransform_of_ok hcancel (transform_eq_ok binary64 _ hn1 hwork)]
  rfl

end Sys2Proof.Machine
end

section
/-!
SUPPORT. The kernel in exact arithmetic is the Walsh–Hadamard transform, and applied twice it multiplies by L (42_transform.md
R152, R153). Both rest on one recursion: the transform of order n + 1 is that of the elements of even index plus or minus that of
the elements of odd index.
-/

namespace Sys2Proof.Machine

/-! ### The Walsh–Hadamard transform -/

/-- The sign of order n + 1 is that of order n one bit up, turned where both numbers are odd. -/
theorem hadamardSign_succ (n u v : Nat) : hadamardSign (n + 1) u v =
    (if u % 2 = 1 ∧ v % 2 = 1 then -1 else 1) * hadamardSign n (u / 2) (v / 2) := by
  have hbit : (u &&& v) % 2 = 1 ↔ u % 2 = 1 ∧ v % 2 = 1 := Nat.and_mod_two_eq_one
  have hlow : parity n (u / 2 &&& v / 2) < 2 := parity_lt _ _
  simp only [hadamardSign, parity, Nat.and_div_two, ← hbit]
  split_ifs <;> omega

/-- Σ_v (−1)^popcount(u AND v) · x(v) over v < 2^n (R152), in any commutative ring. -/
def walshHadamard {R : Type} [CommRing R] (n : Nat) (x : Nat → R) (u : Nat) : R :=
  ∑ v ∈ Finset.range (2 ^ n), (hadamardSign n u v : R) * x v

theorem sum_range_two_mul {M : Type} [AddCommMonoid M] (f : Nat → M) (m : Nat) :
    ∑ i ∈ Finset.range (2 * m), f i = ∑ i ∈ Finset.range m, (f (2 * i) + f (2 * i + 1)) := by
  induction m with
  | zero => rfl
  | succ m ih => rw [Nat.mul_succ, Finset.sum_range_succ, Finset.sum_range_succ, ih, Finset.sum_range_succ, add_assoc]

section
variable {R : Type} [CommRing R] (n : Nat) (x : Nat → R) (u : Nat)

theorem walshHadamard_zero : walshHadamard 0 x u = x 0 := by
  simp [walshHadamard, hadamardSign, parity]

theorem walshHadamard_succ_even : walshHadamard (n + 1) x (2 * u) =
    walshHadamard n (fun v => x (2 * v)) u + walshHadamard n (fun v => x (2 * v + 1)) u := by
  have hhalf : ∀ v, (2 * v + 1) / 2 = v := fun v => by omega
  simp [walshHadamard, Nat.pow_succ', sum_range_two_mul, Finset.sum_add_distrib, hadamardSign_succ, hhalf]

theorem walshHadamard_succ_odd : walshHadamard (n + 1) x (2 * u + 1) =
    walshHadamard n (fun v => x (2 * v)) u - walshHadamard n (fun v => x (2 * v + 1)) u := by
  have hhalf : ∀ v, (2 * v + 1) / 2 = v := fun v => by omega
  simp [walshHadamard, Nat.pow_succ', sum_range_two_mul, Finset.sum_add_distrib, hadamardSign_succ, hhalf, sub_eq_add_neg]

theorem walshHadamard_add (y : Nat → R) :
    walshHadamard n (fun v => x v + y v) u = walshHadamard n x u + walshHadamard n y u := by
  simp [walshHadamard, mul_add, Finset.sum_add_distrib]

theorem walshHadamard_sub (y : Nat → R) :
    walshHadamard n (fun v => x v - y v) u = walshHadamard n x u - walshHadamard n y u := by
  simp [walshHadamard, mul_sub, Finset.sum_sub_distrib]

end

/-- Twice the transform is L times the identity (R153). -/
theorem walshHadamard_walshHadamard {R : Type} [CommRing R] {n u : Nat} (hu : u < 2 ^ n) (x : Nat → R) :
    walshHadamard n (walshHadamard n x) u = 2 ^ n * x u := by
  induction n generalizing x u with
  | zero =>
    obtain rfl : u = 0 := by omega
    simp [walshHadamard_zero]
  | succ n ih =>
    rw [Nat.pow_succ'] at hu
    obtain ⟨q, rfl | rfl⟩ := Nat.even_or_odd' u
    · simp only [walshHadamard_succ_even, walshHadamard_succ_odd, walshHadamard_add, walshHadamard_sub]
      rw [ih (by omega), ih (by omega)]
      ring
    · simp only [walshHadamard_succ_even, walshHadamard_succ_odd, walshHadamard_add, walshHadamard_sub]
      rw [ih (by omega), ih (by omega)]
      ring

/-! ### The kernel -/

/-- A number format whose sums and differences are those of a ring, whatever the draw. -/
def Num.ExactSums {R : Type} [CommRing R] (num : Num R) : Prop :=
  ∀ d a b, num.add d a b = a + b ∧ num.sub d a b = a - b

theorem exactInt_exactSums : exactInt.ExactSums := fun _ _ _ => ⟨rfl, rfl⟩

/-- After `j` stages, the elements at one place of their blocks hold a transform of order `j` over the blocks. -/
theorem htValue_eq_walshHadamard {R : Type} [CommRing R] {num : Num R} (hnum : num.ExactSums) (d : Nat) (x : Nat → R)
    {n j q r : Nat} (hj : j ≤ n) (hq : q < 2 ^ j) (hr : r < 2 ^ (n - j)) :
    htValue num n d x j (q * 2 ^ (n - j) + r) = walshHadamard j (fun w => x (w * 2 ^ (n - j) + r)) q := by
  induction j generalizing q r with
  | zero =>
    obtain rfl : q = 0 := by omega
    rw [walshHadamard_zero, htValue]
  | succ j ih =>
    rw [Nat.pow_succ'] at hq
    have hdist : 2 ^ (n - j) = 2 * 2 ^ (n - (j + 1)) := by rw [← Nat.pow_succ']; congr 1; omega
    generalize hh : 2 ^ (n - (j + 1)) = h at hr hdist
    have hlow : ∀ w, w * (2 * h) + r = 2 * w * h + r := fun w => by ring
    have hhigh : ∀ w, w * (2 * h) + (h + r) = (2 * w + 1) * h + r := fun w => by ring
    have hhalves : ∀ c, c < 2 ^ j →
        htValue num n d x j (2 * c * h + r) = walshHadamard j (fun w => x (2 * w * h + r)) c ∧
        htValue num n d x j ((2 * c + 1) * h + r) = walshHadamard j (fun w => x ((2 * w + 1) * h + r)) c := fun c hc => by
      have heven := ih (r := r) (by omega) hc (by omega)
      have hodd := ih (r := h + r) (by omega) hc (by omega)
      simp only [hdist, hlow, hhigh] at heven hodd
      exact ⟨heven, hodd⟩
    rw [htValue_succ, hh]
    obtain ⟨c, rfl | rfl⟩ := Nat.even_or_odd' q
    · obtain ⟨heven, hodd⟩ := hhalves c (by omega)
      rw [stageValue_even _ _ _ _ hr, (hnum _ _ _).1, heven, hodd, walshHadamard_succ_even]
    · obtain ⟨heven, hodd⟩ := hhalves c (by omega)
      rw [stageValue_odd _ _ _ _ hr, (hnum _ _ _).2, heven, hodd, walshHadamard_succ_odd]

/-- In exact arithmetic the kernel is the Walsh–Hadamard transform (R152). -/
theorem hadamard_eq_walshHadamard {R : Type} [CommRing R] {num : Num R} (hnum : num.ExactSums) (n d : Nat) (x : Nat → R) :
    hadamard num n d ((List.range' 0 (2 ^ n)).map x) = (List.range' 0 (2 ^ n)).map (walshHadamard n x) := by
  rw [hadamard_map_range']
  refine List.map_congr_left fun k hk => ?_
  have hvalue := htValue_eq_walshHadamard hnum d x (Nat.le_refl n) (q := k) (r := 0) (by simpa using hk) (by simp)
  simpa using hvalue

theorem eq_map_getD {α : Type} (v : List α) (a : α) : v = (List.range' 0 v.length).map fun k => v.getD k a := by
  refine List.ext_getElem (by simp) fun k hk _ => ?_
  simp [List.getElem?_eq_getElem hk]

/-- Settles O37: after the last stage a block is one element, and the transform over the blocks is that of R152. -/
theorem exactTransformIsWalshHadamard : Obligations.ExactTransformIsWalshHadamard := by
  unfold Obligations.ExactTransformIsWalshHadamard
  intro n d v hv u hu
  have hlist := eq_map_getD v 0
  rw [hv] at hlist
  have hht := hadamard_eq_walshHadamard exactInt_exactSums n d fun k => v.getD k 0
  rw [← hlist] at hht
  rw [hht, List.getElem?_map, List.getElem?_range' hu]
  simp only [Nat.zero_add, Nat.one_mul, Option.map_some, walshHadamard, Int.cast_id]
  rfl

/-- Settles O38: the list's transform is the Walsh–Hadamard transform, which applied twice gives L times the list. -/
theorem exactTransformTwiceScalesByLength : Obligations.ExactTransformTwiceScalesByLength := by
  unfold Obligations.ExactTransformTwiceScalesByLength
  intro n d e v hv
  have hlist := eq_map_getD v 0
  rw [hv] at hlist
  rw [hlist, hadamard_eq_walshHadamard exactInt_exactSums, hadamard_eq_walshHadamard exactInt_exactSums, List.map_map]
  exact List.map_congr_left fun k hk => walshHadamard_walshHadamard (by simpa using hk) _

end Sys2Proof.Machine
end

section
/-!
SUPPORT. What stage 1 of ESTIMATE writes and where it faults (43_pipeline.md R161), and the two cancellation points (R162, R163).
-/

namespace Sys2Proof.Machine

/-! ### The sum of the recording -/

/-- The sum of the first i of the samples `r`, from zero in index order, the draws numbered from `d` on (R161). -/
def partialSum {α : Type} (num : Num α) (d : Nat) (r : Nat → α) : Nat → α
  | 0 => num.zero
  | i + 1 => num.add (d + i) (partialSum num d r i) (r i)

theorem sumFrom_map_range' {α : Type} (num : Num α) (d : Nat) (r : Nat → α) (i n : Nat) :
    sumFrom num (d + i) (partialSum num d r i) ((List.range' i n).map r) = partialSum num d r (i + n) := by
  induction n generalizing i with
  | zero => rfl
  | succ n ih =>
    have hrest := ih (i + 1)
    rw [Nat.succ_add_eq_add_succ] at hrest
    rw [List.range'_succ, List.map_cons, sumFrom]
    exact hrest

/-! ### The permutation -/

theorem readPermutation_eq_ok {α : Type} {tags : Buf Word32} {recd : Buf α} {p : Nat} {v : Nat → Word32} {r : Nat → α}
    (htags : Holds tags p v) (hrecd : Holds recd p r) :
    readPermutation tags recd p = .ok ((List.range' 0 p).map fun i => ((v i).toNat, r i)) := by
  refine forRange_eq_ok p 0 fun k _ hk => ?_
  rw [Nat.zero_add] at hk
  rw [bufRead_ok_iff.mpr (htags k hk)]
  simp only [bufRead_ok_iff.mpr (hrecd k hk)]

/-- WORK after stage 1 has written `a` at 0 and the samples `r` at the addresses `v` (R161). -/
def permuted {α : Type} (work : Buf α) (a : α) (p : Nat) (v : Nat → Nat) (r : Nat → α) : Buf α :=
  (work.write 0 a).writeAll ((List.range' 0 p).map fun i => (v i, r i))

section
variable {α : Type} (work : Buf α) (a : α) {p : Nat} {v : Nat → Nat} (r : Nat → α) (hv : Bijective v p)
include hv

/-- The addresses lie in [1, P]. -/
theorem Bijective.address_mem {c : Nat × α} (hc : c ∈ (List.range' 0 p).map fun i => (v i, r i)) : 1 ≤ c.1 ∧ c.1 ≤ p := by
  obtain ⟨i, hi, rfl⟩ := List.mem_map.mp hc
  exact hv.1 i (by simpa using hi)

theorem read_permuted_zero : Buf.read (permuted work a p v r) 0 = some a := by
  rw [permuted, Buf.read_writeAll_other _ _ fun c hc => Nat.one_le_iff_ne_zero.mp (hv.address_mem r hc).1,
    Buf.read_write_same]

theorem read_permuted {i : Nat} (hi : i < p) : Buf.read (permuted work a p v r) (v i) = some (r i) := by
  refine Buf.read_writeAll_mem _ _ ?_ (List.mem_map.mpr ⟨i, by simpa using hi, rfl⟩)
  rw [List.map_map]
  exact List.Nodup.map_on (fun i hi j hj => hv.2 i j (by simpa using hi) (by simpa using hj)) List.nodup_range'

theorem sameFrom_permuted : SameFrom (p + 1) work (permuted work a p v r) := fun k hk => by
  rw [permuted, Buf.read_writeAll_other _ _ fun c hc => by have := hv.address_mem r hc; omega,
    Buf.read_write_other _ _ (by omega)]

end

theorem permuteStage_eq_ok {α : Type} (num : Num α) (d : Nat) {tags : Buf Word32} {recd : Buf α} (work : Buf α) {p : Nat}
    {v : Nat → Word32} {r : Nat → α} (htags : Holds tags p v) (hrecd : Holds recd p r) :
    permuteStage num d tags recd work p =
      .ok (permuted work (num.neg (partialSum num d r p)) p (fun i => (v i).toNat) r) := by
  have hread : forRange (bufRead .recd recd) 0 p = .ok ((List.range' 0 p).map r) :=
    forRange_eq_ok p 0 fun k _ hk => bufRead_ok_iff.mpr (hrecd k (by omega))
  have hsum := sumFrom_map_range' num d r 0 p
  rw [Nat.add_zero, Nat.zero_add, partialSum] at hsum
  rw [permuteStage, hread]
  simp only [readPermutation_eq_ok htags hrecd, hsum, permuted]

/-- Once both arrays have passed their check, ESTIMATE's first step is stage 1 (R161). -/
theorem estimatePermute_of_checkedTags {s : State} (hs : supported s.curN.toNat = true)
    (hlen : s.curReclen.toNat = seqLen s.curN.toNat) (htags : CheckedTags s.mem.tags (seqLen s.curN.toNat))
    (htagl : CheckedTags s.mem.tagl (seqLen s.curN.toNat)) :
    estimatePermute s =
      withRead (permuteStage binary64 s.env.draws s.mem.tags s.mem.recd s.mem.work (seqLen s.curN.toNat)) fun work =>
        .next (setState .transform (useDraws (seqLen s.curN.toNat) { s with mem := { s.mem with work := work } })) := by
  rw [estimatePermute_of_length hs hlen, checkSupplied_of_checkedTags htags, checkSupplied_of_checkedTags htagl]

/-- Settles O39: both checks pass, and stage 1 in binary64 puts each sample at its tag. -/
theorem estimateFirstStepPermutes : Obligations.EstimateFirstStepPermutes := by
  unfold Obligations.EstimateFirstStepPermutes
  intro s v w r p hn1 hn18 hstate hlen htags hv htagl hw hrecd
  have hs : supported s.curN.toNat = true := supported_iff.mpr ⟨hn1, hn18⟩
  refine ⟨_, s.env.draws + p, partialSum binary64 s.env.draws r, ?_, rfl, fun _ _ => rfl, read_permuted_zero _ _ r hv,
    fun i hi => read_permuted _ _ r hv hi, sameFrom_permuted _ _ r hv⟩
  rw [exec_estimate_permute hstate, estimatePermute_of_checkedTags hs hlen ⟨v, htags, hv⟩ ⟨w, htagl, hw⟩,
    permuteStage_eq_ok (p := seqLen s.curN.toNat) binary64 s.env.draws s.mem.work htags hrecd]
  rfl

/-! ### The faults of stage 1 -/

/-- A loop that reads the elements of a buffer faults on the least that is unwritten. -/
theorem forRange_bufRead_of_unwritten {α : Type} (sp : Space) {b : Buf α} {p k : Nat} (hk : k < p)
    (hbelow : Written b k) (hnone : Buf.read b k = none) :
    forRange (bufRead sp b) 0 p = .error (.unwrittenRead sp k) := by
  refine forRange_error_iff.mpr ⟨k, hk, ?_, fun j hj => ?_⟩
  · rw [Nat.zero_add]
    exact bufRead_error_iff.mpr ⟨hnone, rfl⟩
  · obtain ⟨v, hv⟩ := Option.isSome_iff_exists.mp (hbelow j hj)
    exact ⟨v, by rw [Nat.zero_add]; exact bufRead_ok_iff.mpr hv⟩

theorem checkSupplied_of_unwritten (sp : Space) {b : Buf Word32} {p k : Nat} (hk : k < p) (hbelow : Written b k)
    (hnone : Buf.read b k = none) (which : Nat) (s : State) (go : Result) :
    checkSupplied sp b p which s go = .fault (.unwrittenRead sp k) := by
  rw [checkSupplied, firstBad, forRange_bufRead_of_unwritten sp hk hbelow hnone, withRead_error]

theorem permuteStage_of_unwritten {α : Type} (num : Num α) (d : Nat) (tags : Buf Word32) {recd : Buf α} (work : Buf α)
    {p k : Nat} (hk : k < p) (hbelow : Written recd k) (hnone : Buf.read recd k = none) :
    permuteStage num d tags recd work p = .error (.unwrittenRead .recd k) := by
  rw [permuteStage, forRange_bufRead_of_unwritten .recd hk hbelow hnone]

/-- Settles O57: TAGS is read whole first, then TAGL, then REC, each in index order. -/
theorem estimateFirstStepFaultsOnUnwritten : Obligations.EstimateFirstStepFaultsOnUnwritten := by
  unfold Obligations.EstimateFirstStepFaultsOnUnwritten
  intro s k p hn1 hn18 hstate hlen hk
  have hs : supported s.curN.toNat = true := supported_iff.mpr ⟨hn1, hn18⟩
  rw [exec_estimate_permute hstate]
  refine ⟨fun hbelow hnone => ?_, fun htags hbelow hnone => ?_, fun htags htagl hbelow hnone => ?_⟩
  · rw [estimatePermute_of_length hs hlen]
    exact checkSupplied_of_unwritten .tags hk hbelow hnone _ _ _
  · rw [estimatePermute_of_length hs hlen]
    exact (checkSupplied_of_checkedTags htags _ _ _ _).trans (checkSupplied_of_unwritten .tagl hk hbelow hnone _ _ _)
  · rw [estimatePermute_of_checkedTags hs hlen htags htagl,
      permuteStage_of_unwritten (p := seqLen s.curN.toNat) binary64 _ _ _ hk hbelow hnone, withRead_error]

/-! ### The cancellation points -/

theorem takeCancel_eq_errorState (stage : ErrStage) (s : State) :
    takeCancel stage s = errorState { s with cancel := false } .cancelled stage 0 0 := by
  rw [takeCancel_eq, raiseError_eq_errorState]

theorem estimateTransform_of_cancel {s : State} (h : s.cancel = true) :
    estimateTransform s = .next (takeCancel .transform s) := by
  simp [estimateTransform, h]

theorem estimateScale_of_cancel {s : State} (h : s.cancel = true) :
    estimateScale s = .next (takeCancel .permuteScale s) := by
  simp [estimateScale, h]

/-- Settles O42: both steps test CANCEL before they read a buffer. -/
theorem cancelIsTakenBetweenStages : Obligations.CancelIsTakenBetweenStages := by
  unfold Obligations.CancelIsTakenBetweenStages
  refine fun s hcancel => ⟨fun hstate => ?_, fun hstate => ?_⟩
  · rw [exec_estimate_transform hstate, estimateTransform_of_cancel hcancel, takeCancel_eq_errorState]
  · rw [exec_estimate_permuteScale hstate, estimateScale_of_cancel hcancel, takeCancel_eq_errorState]

end Sys2Proof.Machine
end

section
/-!
SUPPORT. The three stages of ESTIMATE in exact arithmetic compute the correlation with the probe (43_pipeline.md R164). The
parity of the bits that TAGL[k] and TAGS[i] share is the sample (i − k) mod P, so the transform's sign at these two numbers is
that sample's value of R115.
-/

namespace Sys2Proof.Machine

/-! ### Exact arithmetic -/

theorem exactRat_exactSums : exactRat.ExactSums := fun _ _ _ => ⟨rfl, rfl⟩

theorem partialSum_exactRat (d : Nat) (x : Nat → Rat) (p : Nat) :
    partialSum exactRat d x p = ((List.range p).map x).sum := by
  induction p with
  | zero => rfl
  | succ p ih =>
    rw [List.sum_range_succ, ← ih]
    rfl

/-- On a written buffer, HT in exact arithmetic leaves the Walsh–Hadamard transform. -/
theorem transform_eq_walshHadamard {R : Type} [CommRing R] {num : Num R} (hnum : num.ExactSums) (d : Nat) {n : Nat}
    (hn : 1 ≤ n) {work : Buf R} {x : Nat → R} (h : Holds work (2 ^ n) x) :
    ∃ b, transform num d work n = .ok b ∧ Holds b (2 ^ n) (walshHadamard n x) := by
  refine ⟨_, transform_eq_ok num d hn h, ?_⟩
  rw [← hadamard_map_range', hadamard_eq_walshHadamard hnum]
  exact holds_writeRun_map work _ _

/-! ### The sign at a tag and an inverse tag -/

/-- The parity of the bits that TAGL[k] and TAGS[i] share is the sample (i − k) mod P. -/
theorem MaximalMask.parity_tags {n m : Nat} (h : MaximalMask n m) {index : Nat → Nat}
    (hindex : ∀ j, j < n → UnitPosition (sample n m) n j (index j)) {k : Nat} (hk : k < seqLen n) (i : Nat) :
    (parity n (inverseSum (sample n m) index n k &&& windowSum (sample n m) n i) : Bit) =
      sample n m (backMod (seqLen n) i k) := by
  have hle := le_seqLen n
  have hand : ∀ a b : Bool, BitVec.ofBool (a && b) = BitVec.ofBool b * BitVec.ofBool a := by decide
  calc (parity n (inverseSum (sample n m) index n k &&& windowSum (sample n m) n i) : Bit)
      = ∑ j ∈ Finset.range n, stream n m (i + seqLen n - (n - 1) + j) *
          BitVec.ofBool ((inverseSum (sample n m) index n k).testBit j) := by
        rw [natCast_parity]
        refine Finset.sum_congr rfl fun j hj => ?_
        rw [Nat.testBit_and, hand, h.ofBool_testBit_windowSum (Finset.mem_range.mp hj)]
    _ = stream n m (i + seqLen n - k + seqLen n) := by
        rw [← h.stream_eq_sum_inverse hindex hk]
        congr 1
        omega
    _ = sample n m (backMod (seqLen n) i k) := by
        rw [h.stream_add_seqLen, h.sample_backMod (by omega)]

/-- The sign of R152 is the value of R115 for the parity of the bits that both numbers have. -/
theorem bipolar_parity (n u v : Nat) : bipolar exactRat (parity n (u &&& v) : Bit) = (hadamardSign n u v : Rat) := by
  have hlt : parity n (u &&& v) < 2 := parity_lt _ _
  rw [hadamardSign]
  interval_cases parity n (u &&& v) <;> simp [bipolar, exactRat]

/-- The transform's sign at TAGL[k] and TAGS[i] is the probe at (i − k) mod P. -/
theorem MaximalMask.hadamardSign_tags {n m : Nat} (h : MaximalMask n m) {index : Nat → Nat}
    (hindex : ∀ j, j < n → UnitPosition (sample n m) n j (index j)) {k : Nat} (hk : k < seqLen n) (i : Nat) :
    (hadamardSign n (inverseSum (sample n m) index n k) (windowSum (sample n m) n i) : Rat) =
      bipolar exactRat (sample n m (backMod (seqLen n) i k)) := by
  rw [← h.parity_tags hindex hk, bipolar_parity]

/-! ### The pipeline -/

/-- A sum over [0, P] is the term at 0 and those at the values of a bijection onto {1, …, P}. -/
theorem Bijective.sum_range_succ {M : Type} [AddCommMonoid M] {v : Nat → Nat} {p : Nat} (h : Bijective v p) (f : Nat → M) :
    ∑ k ∈ Finset.range (p + 1), f k = f 0 + ∑ i ∈ Finset.range p, f (v i) := by
  have himage : (Finset.range p).image v = Finset.Ico 1 (p + 1) := by
    ext y
    simp only [Finset.mem_image, Finset.mem_range, Finset.mem_Ico]
    constructor
    · rintro ⟨i, hi, rfl⟩
      have := h.1 i hi
      omega
    · exact fun hy => h.surjective hy.1 (by omega)
  have hinj : Set.InjOn v (Finset.range p) := fun i hi j hj => h.2 i j (by simpa using hi) (by simpa using hj)
  rw [← Finset.sum_image hinj, himage, Finset.sum_range_eq_add_Ico f (Nat.succ_pos p)]

theorem Written.exists_holds {α : Type} [Nonempty α] {b : Buf α} {n : Nat} (h : Written b n) : ∃ v, Holds b n v := by
  choose! v hv using fun i hi => Option.isSome_iff_exists.mp (h i hi)
  exact ⟨v, hv⟩

/-- Stage 1 with generated tags, in exact arithmetic: the elements it leaves in WORK[0..P]. -/
theorem MaximalMask.permuteStage_exactRat {n m : Nat} (h : MaximalMask n m) (hn : n ≤ 18) (d : Nat) {x : Nat → Rat}
    {tags : Buf Word32} {recd : Buf Rat} (work : Buf Rat)
    (htags : Holds tags (seqLen n) fun i => BitVec.ofNat 32 (windowSum (sample n m) n i)) (hrecd : Holds recd (seqLen n) x) :
    ∃ w y, permuteStage exactRat d tags recd work (seqLen n) = .ok w ∧ Holds w (2 ^ n) y ∧
      y 0 = -((List.range (seqLen n)).map x).sum ∧ ∀ i, i < seqLen n → y (windowSum (sample n m) n i) = x i := by
  have hbij := h.bijective_windowSum
  have htag : ∀ i, (BitVec.ofNat 32 (windowSum (sample n m) n i)).toNat = windowSum (sample n m) n i :=
    toNat_ofNat_tag hn (windowSum_le _ n)
  have hstage := permuteStage_eq_ok exactRat d work htags hrecd
  simp only [htag, partialSum_exactRat] at hstage
  obtain ⟨y, hy⟩ := (permuteStage_written ⟨_, htags, by simpa only [htag] using hbij⟩ hstage).exists_holds
  have hlen : seqLen n + 1 = 2 ^ n := seqLen_add_one n
  refine ⟨_, y, hstage, hlen ▸ hy, ?_, fun i hi => ?_⟩
  · exact Option.some.inj ((hy 0 (Nat.succ_pos _)).symm.trans (read_permuted_zero _ _ x hbij))
  · have hle := (hbij.1 i hi).2
    exact Option.some.inj ((hy _ (by omega)).symm.trans (read_permuted _ _ x hbij hi))

/-- The transform at TAGL[k] of −Σ REC at 0 and REC[i] at TAGS[i] is the correlation at k less the sum. -/
theorem MaximalMask.walshHadamard_permuted {n m : Nat} (h : MaximalMask n m) {index : Nat → Nat}
    (hindex : ∀ j, j < n → UnitPosition (sample n m) n j (index j)) {k : Nat} (hk : k < seqLen n) (x y : Nat → Rat)
    (hzero : y 0 = -((List.range (seqLen n)).map x).sum)
    (hperm : ∀ i, i < seqLen n → y (windowSum (sample n m) n i) = x i) :
    walshHadamard n y (inverseSum (sample n m) index n k) =
      ((List.range (seqLen n)).map fun i => x i * bipolar exactRat (sample n m (backMod (seqLen n) i k))).sum
        - ((List.range (seqLen n)).map x).sum := by
  have hsign : hadamardSign n (inverseSum (sample n m) index n k) 0 = 1 := by
    rw [hadamardSign, Nat.and_zero, parity_zero, if_pos rfl]
  have hterm : ∀ i ∈ Finset.range (seqLen n),
      (hadamardSign n (inverseSum (sample n m) index n k) (windowSum (sample n m) n i) : Rat) *
        y (windowSum (sample n m) n i) = x i * bipolar exactRat (sample n m (backMod (seqLen n) i k)) := fun i hi => by
    rw [h.hadamardSign_tags hindex hk, hperm i (Finset.mem_range.mp hi), mul_comm]
  have hsum : ∀ f : Nat → Rat, ((List.range (seqLen n)).map f).sum = ∑ i ∈ Finset.range (seqLen n), f i := fun _ => rfl
  rw [walshHadamard, show 2 ^ n = seqLen n + 1 from (seqLen_add_one n).symm, h.bijective_windowSum.sum_range_succ,
    Finset.sum_congr rfl hterm, hsign, hzero, Int.cast_one, one_mul, hsum, hsum, ← sub_eq_neg_add]

/-- Settles O43: stage 1 places the recording by its tags, the transform's signs are the probe's, and stage 3 divides by P + 1. -/
theorem exactPipelineComputesTheCorrelation : Obligations.ExactPipelineComputesTheCorrelation := by
  unfold Obligations.ExactPipelineComputesTheCorrelation
  intro n m d x index tags tagl recd work ir hn18 h p hindex htags htagl hrecd
  have hpow : p + 1 = 2 ^ n := seqLen_add_one n
  have hscale : exactRat.pow2neg n = ((p : Rat) + 1)⁻¹ := by
    rw [← Nat.cast_add_one, hpow, Nat.cast_pow, ← one_div]
    rfl
  have hinv : ∀ i, (BitVec.ofNat 32 (inverseSum (sample n m) index n i)).toNat = inverseSum (sample n m) index n i :=
    toNat_ofNat_tag hn18 (inverseSum_le _ index n)
  obtain ⟨w1, y, hstage1, hy, hzero, hperm⟩ := h.permuteStage_exactRat hn18 d work htags hrecd
  obtain ⟨w2, hstage2, htrans⟩ := transform_eq_walshHadamard exactRat_exactSums d h.1 hy
  have hread : ∀ i, i < p → Buf.read w2 (BitVec.ofNat 32 (inverseSum (sample n m) index n i)).toNat =
      some (walshHadamard n y (inverseSum (sample n m) index n i)) := fun i _ => by
    rw [hinv]
    exact htrans _ (hpow ▸ Nat.lt_succ_of_le (inverseSum_le _ index n i))
  obtain ⟨r, hstage3, hresp, hlast, -⟩ := scaleStage_eq_ok exactRat d n ir htagl hread
  refine ⟨w1, w2, r, hstage1, hstage2, hstage3, fun k hk => ?_, hlast⟩
  rw [hresp k hk]
  beta_reduce
  rw [h.walshHadamard_permuted hindex hk x y hzero hperm, hscale, div_eq_mul_inv]
  rfl

end Sys2Proof.Machine
end

section
/-!
SUPPORT. What each host transaction answers in every state (44_host_interface.md R181 to R200). Inversion lemmas for the steps
that go on stand in Laws/Ops.lean; here the shared operations are given as equations, and an instruction is one of them by
definition.
-/

namespace Sys2Proof.Machine

/-! ### The DATA lines -/

/-- DATA carries a shorter value zero-extended (R96). -/
theorem zextData_eq {w : Nat} : (zextData : BitVec w → Word64) = fun v => BitVec.ofNat 64 v.toNat :=
  funext fun _ => (BitVec.ofNat_toNat ..).symm

theorem lowData_eq (d : Word64) : lowData d = BitVec.ofNat 32 d.toNat := rfl

@[simp] theorem lowData_getLsbD_zero (d : Word64) : (lowData d).getLsbD 0 = d.getLsbD 0 := by
  simp [lowData]

/-! ### Registers -/

theorem exec_rdReg (idx : Nat) (s : State) :
    exec (.rdReg idx) s = .next (respond (BitVec.ofNat 64 (regRead idx s).toNat) s) := by
  rw [BitVec.ofNat_toNat]
  rfl

theorem exec_wrReg (idx : Nat) (dat : Word64) (s : State) :
    exec (.wrReg idx dat) s = .next (regWrite idx (lowData dat) s) := rfl

theorem ctrlWord_toNat (cancel : Bool) : (ctrlWord cancel).toNat = cancel.toNat := by
  cases cancel <;> rfl

/-- Reserved and out-of-range registers read 0 (R182, R183). -/
theorem regRead_of_reserved {idx : Nat} (h : 10 ≤ idx) (s : State) : regRead idx s = 0 := by
  obtain ⟨n, rfl⟩ := Nat.exists_eq_add_of_le' h
  rfl

theorem exec_rdReg_of_reserved {idx : Nat} (h : 10 ≤ idx) (s : State) :
    exec (.rdReg idx) s = .next (respond 0 s) := by
  rw [exec_rdReg, regRead_of_reserved h]
  rfl

/-- Read-only, reserved and out-of-range registers keep their value (R182, R184). -/
theorem regWrite_of_readOnly {idx : Nat} (h : idx = 1 ∨ 6 ≤ idx) (v : Word32) (s : State) : regWrite idx v s = s := by
  rcases h with rfl | h
  · rfl
  · obtain ⟨n, rfl⟩ := Nat.exists_eq_add_of_le' h
    rfl

/-- Settles O13: the answer is `regRead`, index by index. -/
theorem registerReadReturnsTheRegister : Obligations.RegisterReadReturnsTheRegister := by
  unfold Obligations.RegisterReadReturnsTheRegister
  intro s
  have hctrl : exec (.rdReg 2) s = .next (respond (BitVec.ofNat 64 s.cancel.toNat) s) := by
    rw [exec_rdReg, regRead, ctrlWord_toNat]
  exact ⟨exec_rdReg 0 s, exec_rdReg 1 s, hctrl, exec_rdReg 3 s, exec_rdReg 4 s, exec_rdReg 5 s, exec_rdReg 6 s,
    exec_rdReg 7 s, exec_rdReg 8 s, exec_rdReg 9 s, fun _ h => exec_rdReg_of_reserved h s⟩

/-- Settles O14: the write is `regWrite` of DATA[31:0], index by index. -/
theorem registerWriteStoresOrIsIgnored : Obligations.RegisterWriteStoresOrIsIgnored := by
  unfold Obligations.RegisterWriteStoresOrIsIgnored
  intro s dat
  have hctrl : exec (.wrReg 2 dat) s = .next { s with cancel := dat.getLsbD 0 } := by
    rw [exec_wrReg, regWrite, writeCtrl, lowData_getLsbD_zero]
  refine ⟨hctrl, exec_wrReg 3 dat s, exec_wrReg 4 dat s, exec_wrReg 5 dat s, fun idx h => ?_⟩
  rw [exec_wrReg, regWrite_of_readOnly h]

/-- Settles O15: a CMD write is `accept` of DATA[31:0], by an idle engine. -/
theorem acceptStartsTheCommand : Obligations.AcceptStartsTheCommand := by
  unfold Obligations.AcceptStartsTheCommand
  intro s dat hb
  exact congrArg Host.Outcome.next (accept_of_idle hb (lowData dat))

/-! ### Buffer transactions -/

/-- Settles O17: each of the fourteen is a `bufferTxn`, which tests BUSY first. -/
theorem bufferAccessWhileBusyIsRefused : Obligations.BufferAccessWhileBusyIsRefused := by
  unfold Obligations.BufferAccessWhileBusyIsRefused
  intro s idx dat hb i hi
  fin_cases hi <;> exact bufferTxn_of_busy hb ..

/-- Out of range BUSY alone decides (R181, R182). -/
theorem bufferTxn_outside {sp : Space} {idx : Nat} (hi : capacity sp ≤ idx) (s : State) (out inn : Result) :
    bufferTxn sp idx s out inn = if s.status.busy then .refused .bufferAccessWhileBusy else out := by
  cases hb : s.status.busy with
  | true => exact bufferTxn_of_busy hb ..
  | false => exact bufferTxn_of_ge hb hi ..

/-- Settles O18: registers from 256 on are reserved ones, and a buffer transaction out of range is decided by BUSY. -/
theorem outOfRangeHasNoEffect : Obligations.OutOfRangeHasNoEffect := by
  unfold Obligations.OutOfRangeHasNoEffect
  intro s idx dat
  refine ⟨fun hreg => ⟨?_, ?_⟩, fun hseq => ⟨fun i hi => ?_, fun i hi => ?_⟩,
    fun hwork => ⟨fun i hi => ?_, fun i hi => ?_⟩⟩
  · exact exec_rdReg_of_reserved (by omega) s
  · rw [exec_wrReg, regWrite_of_readOnly (by omega)]
  · fin_cases hi <;> exact bufferTxn_outside hseq ..
  · fin_cases hi <;> exact bufferTxn_outside hseq ..
  · fin_cases hi <;> exact bufferTxn_outside hwork ..
  · fin_cases hi <;> exact bufferTxn_outside hwork ..

/-- What a read of an element answers: the value that DATA carries, or the model fault where there is none. -/
def elementAnswer (sp : Space) (idx : Nat) (s : State) : Option Word64 → Result
  | some d => .next (respond d s)
  | none => .fault (.unwrittenRead sp idx)

theorem hostRead_of_lt {α : Type} {sp : Space} {b : Buf α} {f : α → Word64} {idx : Nat} {s : State}
    {element : Option Word64} (hb : s.status.busy = false) (hi : idx < capacity sp)
    (he : (Buf.read b idx).map f = element) : hostRead sp b f idx s = elementAnswer sp idx s element := by
  rw [hostRead, bufferTxn_of_lt hb hi, bufRead, ← he]
  cases Buf.read b idx <;> rfl

/-- Settles O19: the seven reads are `hostRead`, MLS and the tags through `zextData` and the reals as they are. -/
theorem bufferReadReturnsTheElement : Obligations.BufferReadReturnsTheElement := by
  unfold Obligations.BufferReadReturnsTheElement
  intro s idx hb
  refine ⟨fun hseq => ⟨?_, ?_, ?_, ?_, ?_⟩, fun hwork => ⟨?_, ?_⟩⟩
  · exact hostRead_of_lt hb hseq (by rw [zextData_eq])
  · exact hostRead_of_lt hb hseq (Option.map_id_apply ..)
  · exact hostRead_of_lt hb hseq (by rw [zextData_eq])
  · exact hostRead_of_lt hb hseq (by rw [zextData_eq])
  · exact hostRead_of_lt hb hseq (Option.map_id_apply ..)
  · exact hostRead_of_lt hb hwork (Option.map_id_apply ..)
  · exact hostRead_of_lt hb hwork (Option.map_id_apply ..)

/-- A write to a read-only buffer does nothing within range and beyond it. -/
theorem hostIgnore_of_idle {s : State} (hb : s.status.busy = false) (sp : Space) (idx : Nat) :
    hostIgnore sp idx s = .next s := by
  rcases Nat.lt_or_ge idx (capacity sp) with hi | hi
  · exact bufferTxn_of_lt hb hi ..
  · exact bufferTxn_of_ge hb hi ..

/-- Settles O20: the three writes are `hostIgnore`. -/
theorem readOnlyBufferWriteIsIgnored : Obligations.ReadOnlyBufferWriteIsIgnored := by
  unfold Obligations.ReadOnlyBufferWriteIsIgnored
  intro s idx dat hb i hi
  fin_cases hi <;> exact hostIgnore_of_idle hb ..

/-- A write within range to the buffer that `put` places in the memory stores one element of it. -/
theorem hostWrite_stores {α : Type} {sp : Space} {idx : Nat} {s : State} (hb : s.status.busy = false)
    (hi : idx < capacity sp) (old : Buf α) (v : α) (put : Buf α → Memory) :
    ∃ b, hostWrite sp idx (put (old.write idx v)) s = .next { s with mem := put b } ∧
      Buf.read b idx = some v ∧ ∀ j, j ≠ idx → Buf.read b j = Buf.read old j :=
  ⟨_, bufferTxn_of_lt hb hi .., Buf.read_write_same .., fun _ => Buf.read_write_other old v⟩

/-- Settles O21: the four writes are `hostWrite` of one `Buf.write`. -/
theorem bufferWriteStoresOneElement : Obligations.BufferWriteStoresOneElement := by
  unfold Obligations.BufferWriteStoresOneElement
  intro s idx dat hb
  simp only [← lowData_eq]
  refine ⟨fun hseq => ⟨?_, ?_, ?_⟩, fun hwork => ?_⟩
  · exact hostWrite_stores hb hseq s.mem.tags (lowData dat) fun b => { s.mem with tags := b }
  · exact hostWrite_stores hb hseq s.mem.tagl (lowData dat) fun b => { s.mem with tagl := b }
  · exact hostWrite_stores hb hseq s.mem.recd dat fun b => { s.mem with recd := b }
  · exact hostWrite_stores hb hwork s.mem.work dat fun b => { s.mem with work := b }

end Sys2Proof.Machine
end

section
/-!
SUPPORT. What an engine step can answer from a state that meets the invariant (60_exceptions.md R217): the invariant holds MLS,
and between ESTIMATE's steps what its first step has checked and written, so that only the host's own data can be unwritten.
-/

namespace Sys2Proof.Machine

/-! ### The commands that read no host data -/

theorem exec_genseq_goes_on (s : State) : ∃ t, exec .genseq s = .next t := by
  cases hm : supportedMask s.curN.toNat with
  | none => exact ⟨_, execGenseq_of_unsupported (by simp [supported, hm])⟩
  | some m => exact ⟨_, execGenseq_of_mask hm⟩

/-- The commands that read MLS do so only once SEQN says that it holds their order's sequence. -/
theorem Inv.exec_mlsReader_goes_on {s : State} (hi : Inv s) {i : Instr}
    (hreader : i ∈ [Instr.bipolar, .gentags, .gentagl]) : ∃ t, exec i s = .next t := by
  have hcases : i = .bipolar ∨ i = .gentags ∨ i = .gentagl := by simpa using hreader
  cases hs : supported s.curN.toNat with
  | false => rcases hcases with rfl | rfl | rfl <;> exact ⟨_, exec_of_unsupported hs rfl nofun⟩
  | true =>
    by_cases hseqn : s.seqn = s.curN
    · obtain ⟨hn1, hn18⟩ := supported_iff.mp hs
      obtain ⟨⟨_, htags, -⟩, _, htagl, -⟩ := romTagsNeverFailIntegrity s hi hn1 hn18 hseqn
      rcases hcases with rfl | rfl | rfl
      · obtain ⟨m, -, hmls⟩ := hi.holds_sample hn1 hseqn
        exact ⟨_, execBipolar_of_holds hs hseqn hmls⟩
      · exact ⟨_, htags⟩
      · exact ⟨_, htagl⟩
    · exact ⟨_, exec_of_stale hs hseqn hreader⟩

/-! ### ESTIMATE after its first step -/

theorem Inv.estimateTransform_goes_on {s : State} (hi : Inv s) (hstate : s.status.state = .transform) :
    ∃ t, estimateTransform s = .next t := by
  cases hc : s.cancel with
  | true => exact ⟨_, estimateTransform_of_cancel hc⟩
  | false =>
    obtain ⟨hs, -, -, hwork⟩ := hi.pipeline (.inl hstate)
    obtain ⟨x, hx⟩ := hwork.exists_holds
    exact ⟨_, estimateTransform_of_ok hc (transform_eq_ok binary64 _ (supported_iff.mp hs).1 hx)⟩

/-- The addresses of stage 3 are inverse tags, which lie in [1, P], and WORK[0..P] is written. -/
theorem Inv.estimateScale_goes_on {s : State} (hi : Inv s) (hstate : s.status.state = .permuteScale) :
    ∃ t, estimateScale s = .next t := by
  cases hc : s.cancel with
  | true => exact ⟨_, estimateScale_of_cancel hc⟩
  | false =>
    obtain ⟨-, -, ⟨w, hw, hrange, -⟩, hwork⟩ := hi.pipeline (.inr hstate)
    obtain ⟨x, hx⟩ := hwork.exists_holds
    have hread : ∀ i, i < seqLen s.curN.toNat → Buf.read s.mem.work (w i).toNat = some (x (w i).toNat) := fun i hip =>
      hx _ (seqLen_add_one s.curN.toNat ▸ Nat.lt_succ_of_le (hrange i hip).2)
    obtain ⟨ir, hir, -⟩ := scaleStage_eq_ok binary64 s.env.draws s.curN.toNat s.mem.ir hw hread
    exact ⟨_, estimateScale_of_ok hc hir⟩

/-! ### The reads of host data -/

/-- The result goes on, or is the model fault on a space that `ok` allows. -/
def GoesOnOrFaultsOn (ok : Space → Prop) (r : Result) : Prop :=
  (∃ t, r = .next t) ∨ ∃ sp i, r = .fault (.unwrittenRead sp i) ∧ ok sp

theorem GoesOnOrFaultsOn.mono {ok ok' : Space → Prop} {r : Result} (h : GoesOnOrFaultsOn ok r)
    (himp : ∀ sp, ok sp → ok' sp) : GoesOnOrFaultsOn ok' r :=
  h.imp_right fun ⟨sp, i, hr, hsp⟩ => ⟨sp, i, hr, himp sp hsp⟩

theorem written_or_least_unwritten {α : Type} (b : Buf α) (n : Nat) :
    Written b n ∨ ∃ k, k < n ∧ Written b k ∧ Buf.read b k = none := by
  induction n with
  | zero => exact .inl fun i hi => absurd hi (Nat.not_lt_zero i)
  | succ n ih =>
    rcases ih with hw | ⟨k, hk, hleast⟩
    · cases hn : Buf.read b n with
      | none => exact .inr ⟨n, Nat.lt_succ_self n, hw, hn⟩
      | some v =>
        refine .inl fun i hi => ?_
        rcases Nat.lt_succ_iff_lt_or_eq.mp hi with hlt | rfl
        · exact hw i hlt
        · rw [hn]
          rfl
    · exact .inr ⟨k, Nat.lt_succ_of_lt hk, hleast⟩

/-- FHT reads WORK only, and only after its tests of the order and the length. -/
theorem execFht_goes_on_or_faults (s : State) : GoesOnOrFaultsOn (· = .work) (execFht s) := by
  cases hs : supported s.curN.toNat with
  | false => exact .inl ⟨_, exec_of_unsupported (i := .fht) hs rfl nofun⟩
  | true =>
    by_cases hlen : s.curWorklen.toNat = workLen s.curN.toNat
    · rw [execFht_of_length hs hlen]
      have hn1 := (supported_iff.mp hs).1
      rcases written_or_least_unwritten s.mem.work (2 ^ s.curN.toNat) with hw | ⟨k, hk, -, hnone⟩
      · obtain ⟨x, hx⟩ := hw.exists_holds
        rw [transform_eq_ok binary64 _ hn1 hx]
        exact .inl ⟨_, rfl⟩
      · obtain ⟨q, -, -, herror⟩ := transform_eq_error binary64 s.env.draws hn1 hk hnone
        rw [herror]
        exact .inr ⟨.work, q, rfl, rfl⟩
    · exact .inl ⟨_, execFht_of_wrong_length hs hlen⟩

/-- The check of a supplied array adds only the fault on that array, and goes on to the rest only past a checked one. -/
theorem checkSupplied_goes_on_or_faults {ok : Space → Prop} {sp : Space} (hok : ok sp) {b : Buf Word32} {p : Nat}
    (which : Nat) (s : State) {go : Result} (hgo : CheckedTags b p → GoesOnOrFaultsOn ok go) :
    GoesOnOrFaultsOn ok (checkSupplied sp b p which s go) := by
  rcases written_or_least_unwritten b p with hw | ⟨k, hk, hbelow, hnone⟩
  · obtain ⟨v, hv⟩ := hw.exists_holds
    rw [checkSupplied, firstBad_of_holds hv, withRead_ok]
    cases hf : firstOffender p [] 0 ((List.range' 0 p).map v) with
    | none => exact hgo (checkedTags_of_firstBad (sp := sp) (by rw [firstBad_of_holds hv, hf]))
    | some f => exact .inl ⟨_, rfl⟩
  · exact .inr ⟨sp, k, checkSupplied_of_unwritten sp hk hbelow hnone which s go, hok⟩

/-- The arrays that ESTIMATE's first step reads (R161). -/
def SuppliedArray (sp : Space) : Prop := sp = .tags ∨ sp = .tagl ∨ sp = .recd

/-- ESTIMATE's first step reads TAGS, TAGL and REC whole; stage 1 reads no other buffer. -/
theorem estimatePermute_goes_on_or_faults {s : State} (hstate : s.status.state = .permute) :
    GoesOnOrFaultsOn SuppliedArray (estimatePermute s) := by
  cases hs : supported s.curN.toNat with
  | false =>
    rw [← exec_estimate_permute hstate]
    exact .inl ⟨_, exec_of_unsupported hs rfl fun _ => hstate⟩
  | true =>
    by_cases hlen : s.curReclen.toNat = seqLen s.curN.toNat
    · rw [estimatePermute_of_length hs hlen]
      refine checkSupplied_goes_on_or_faults (.inl rfl) 0 s fun ⟨v, hv, _⟩ => ?_
      refine checkSupplied_goes_on_or_faults (.inr (.inl rfl)) 1 s fun _ => ?_
      rcases written_or_least_unwritten s.mem.recd (seqLen s.curN.toNat) with hw | ⟨k, hk, hbelow, hnone⟩
      · obtain ⟨r, hr⟩ := hw.exists_holds
        rw [permuteStage_eq_ok binary64 _ _ hv hr]
        exact .inl ⟨_, rfl⟩
      · rw [permuteStage_of_unwritten binary64 _ _ _ hk hbelow hnone]
        exact .inr ⟨.recd, k, rfl, .inr (.inr rfl)⟩
    · exact .inl ⟨_, estimatePermute_of_wrong_length hs hlen⟩

/-! ### The engine's step -/

/-- A running ESTIMATE is at one of its three STATEs. -/
theorem Inv.state_of_estimate {s : State} (hi : Inv s) (hb : s.status.busy = true) (hcmd : s.curCmd = 0x00000006#32) :
    s.status.state = .permute ∨ s.status.state = .transform ∨ s.status.state = .permuteScale := by
  obtain ⟨-, -, -, hrunning⟩ := hi.status
  rcases hrunning.mp hb with h | h | h | hexec
  · exact .inl h
  · exact .inr (.inl h)
  · exact .inr (.inr h)
  · exact absurd hcmd ((hi.command hb).mp hexec)

/-- What the running command may find unwritten: the data that the host supplies to it. -/
def HostData (s : State) (sp : Space) : Prop :=
  s.curCmd = 0x00000005 ∧ sp = .work ∨ s.curCmd = 0x00000006 ∧ s.status.state = .permute ∧ SuppliedArray sp

theorem Inv.exec_estimate_goes_on_or_faults {s : State} (hi : Inv s) (hb : s.status.busy = true)
    (hcmd : s.curCmd = 0x00000006) : GoesOnOrFaultsOn (HostData s) (exec .estimate s) := by
  rcases hi.state_of_estimate hb hcmd with hstate | hstate | hstate
  · rw [exec_estimate_permute hstate]
    exact (estimatePermute_goes_on_or_faults hstate).mono fun _ hsp => .inr ⟨hcmd, hstate, hsp⟩
  · rw [exec_estimate_transform hstate]
    exact .inl (hi.estimateTransform_goes_on hstate)
  · rw [exec_estimate_permuteScale hstate]
    exact .inl (hi.estimateScale_goes_on hstate)

theorem Inv.exec_command_goes_on_or_faults {s : State} (hi : Inv s) (hb : s.status.busy = true) {i : Instr}
    (hd : decodeCommand s.curCmd = .ok i) : GoesOnOrFaultsOn (HostData s) (exec i s) := by
  obtain ⟨hencode, -⟩ := encodeOfDecodeIsIdentity.1 _ _ hd
  cases i with
  | genseq => exact .inl (exec_genseq_goes_on s)
  | bipolar => exact .inl (hi.exec_mlsReader_goes_on (by decide))
  | gentags => exact .inl (hi.exec_mlsReader_goes_on (by decide))
  | gentagl => exact .inl (hi.exec_mlsReader_goes_on (by decide))
  | fht => exact (execFht_goes_on_or_faults s).mono fun _ hsp => .inl ⟨(Encoded.command.inj hencode).symm, hsp⟩
  | estimate => exact hi.exec_estimate_goes_on_or_faults hb (Encoded.command.inj hencode).symm
  | _ => cases hencode

/-- Settles O49: the step is that of the command in CUR_CMD, or the report of ILLEGAL_CMD, which reads nothing. -/
theorem engineFaultsOnlyOnHostData : Obligations.EngineFaultsOnlyOnHostData := by
  unfold Obligations.EngineFaultsOnlyOnHostData
  intro s hi hm
  have hturn : Inv (takeTurn s) := hi.of_agrees hi.status rfl rfl rfl rfl rfl rfl
  cases hd : decodeCommand s.curCmd with
  | error e => exact .inl ⟨_, step_of_engine_illegal hm hd⟩
  | ok i =>
    have hb := busy_of_engine hm
    rw [step_of_engine hm hd]
    exact hturn.exec_command_goes_on_or_faults hb hd

end Sys2Proof.Machine
end

section
/-!
SUPPORT. A running command under the host's transactions and under every schedule (70_reset_and_hazards.md R244, R251). The
measure `stepsLeft` bounds the steps that a running command may still take: every step ends the command, stops at a model fault
or a refusal, or lowers the measure.
-/

namespace Sys2Proof.Machine

/-- Settles O16: a CMD write is `accept` of DATA[31:0], which a busy engine turns away with OVR set. -/
theorem commandWhileBusyIsDropped : Obligations.CommandWhileBusyIsDropped := by
  unfold Obligations.CommandWhileBusyIsDropped
  intro s dat hb
  exact congrArg Host.Outcome.next (accept_of_busy hb (lowData dat))

/-! ### How a running command ends -/

/-- The command has ended, by `finish` or by an error (R212). -/
def CommandEnded (t : State) : Prop := t.status.busy = false ∧ t.status.done = true ∧ t.status.state = .done

/-- The command has ended, or the machine stopped at a model fault or at the refusal of a host's buffer access. -/
def EndsOrStops (r : Result) : Prop :=
  (∃ t, r = .next t ∧ CommandEnded t) ∨ (∃ sp i, r = .fault (.unwrittenRead sp i)) ∨ r = .refused .bufferAccessWhileBusy

theorem commandEnded_finish (s : State) : CommandEnded (finish s) := ⟨rfl, rfl, rfl⟩

theorem commandEnded_raiseError (code : ErrCode) (stage : ErrStage) (a0 a1 : Word32) (s : State) :
    CommandEnded (raiseError code stage a0 a1 s) := ⟨rfl, rfl, rfl⟩

/-- Every command but ESTIMATE is one engine step. -/
theorem exec_command_commandEnded {i : Instr} {s t : State} (hi : i.isCommand = true) (hne : i ≠ .estimate)
    (h : exec i s = .next t) : CommandEnded t := by
  cases i with
  | genseq =>
    rcases execGenseq_next h with ⟨-, rfl⟩ | ⟨m, -, rfl⟩
    · exact commandEnded_raiseError ..
    · exact commandEnded_finish _
  | bipolar =>
    rcases execBipolar_next h with ⟨-, rfl⟩ | ⟨-, -, rfl⟩ | ⟨-, -, vs, -, rfl⟩
    · exact commandEnded_raiseError ..
    · exact commandEnded_raiseError ..
    · exact commandEnded_finish _
  | gentags =>
    rcases execGentags_next h with ⟨-, rfl⟩ | ⟨-, -, rfl⟩ | ⟨-, -, ws, -, rfl | ⟨f, rfl⟩⟩
    · exact commandEnded_raiseError ..
    · exact commandEnded_raiseError ..
    · exact commandEnded_finish _
    · exact commandEnded_raiseError ..
  | gentagl =>
    rcases execGentagl_next h with
      ⟨-, rfl⟩ | ⟨-, -, rfl⟩ | ⟨-, -, cs, -, ⟨j, -, rfl⟩ | ⟨index, ts, -, -, rfl | ⟨f, rfl⟩⟩⟩
    · exact commandEnded_raiseError ..
    · exact commandEnded_raiseError ..
    · exact commandEnded_raiseError ..
    · exact commandEnded_finish _
    · exact commandEnded_raiseError ..
  | fht =>
    rcases execFht_next h with ⟨-, rfl⟩ | ⟨-, -, rfl⟩ | ⟨-, -, work, -, rfl⟩
    · exact commandEnded_raiseError ..
    · exact commandEnded_raiseError ..
    · exact commandEnded_finish _
  | estimate => exact absurd rfl hne
  | _ => simp [Instr.isCommand] at hi

/-! ### How many steps are left -/

/-- The engine steps left to a command at this STATE (R26, R160): ESTIMATE has three, every other command one. -/
def stagesLeft : EngineState → Nat
  | .permute => 3
  | .transform => 2
  | .permuteScale | .exec => 1
  | .idle | .done => 0

theorem stagesLeft_le (e : EngineState) : stagesLeft e ≤ 3 := by
  cases e <;> decide

theorem Inv.stagesLeft_pos {s : State} (hi : Inv s) (hb : s.status.busy = true) : 0 < stagesLeft s.status.state := by
  obtain ⟨-, -, -, hrunning⟩ := hi.status
  rcases hrunning.mp hb with h | h | h | h <;> rw [h] <;> decide

/-- The turns listed, and after them the engine's turns that the list leaves missing. -/
def stepsLeft (s : State) : Nat :=
  s.env.turns.length + (stagesLeft s.status.state - s.env.turns.count .engine)

theorem Inv.stepsLeft_pos {s : State} (hi : Inv s) (hb : s.status.busy = true) : 0 < stepsLeft s := by
  have hpos := hi.stagesLeft_pos hb
  unfold stepsLeft
  cases s.env.turns with
  | nil => simpa using hpos
  | cons turn turns => simp

/-- An engine step lowers the measure, whoever's turn it used up. -/
theorem stepsLeft_lt_of_engine {s t : State} (ht : t.env.turns = s.env.turns.tail)
    (hstage : stagesLeft t.status.state < stagesLeft s.status.state) : stepsLeft t < stepsLeft s := by
  rw [stepsLeft, stepsLeft, ht]
  cases s.env.turns with
  | nil => simpa using hstage
  | cons turn turns =>
    simp only [List.tail_cons, List.length_cons, List.count_cons]
    split <;> omega

/-- A host step lowers the measure by the host's own turn. -/
theorem stepsLeft_lt_of_host {s t : State} {turns : List Turn} (hs : s.env.turns = .host :: turns)
    (ht : t.env.turns = turns) (hstate : t.status.state = s.status.state) : stepsLeft t < stepsLeft s := by
  have hcount : (Turn.host :: turns).count .engine = turns.count .engine := List.count_cons_of_ne (by decide)
  rw [stepsLeft, stepsLeft, hs, ht, hstate, hcount, List.length_cons]
  omega

/-! ### The engine's step -/

/-- ESTIMATE moved from `s` to a later step, with turns and program as they were. -/
structure Advances (s t : State) : Prop where
  busy : t.status.busy = s.status.busy
  stage : stagesLeft t.status.state < stagesLeft s.status.state
  turns : t.env.turns = s.env.turns
  program : t.env.program = s.env.program

theorem exec_estimate_ends_or_advances {s t : State} (h : exec .estimate s = .next t) :
    CommandEnded t ∨ Advances s t := by
  rcases execEstimate_next h with ⟨hstate, h⟩ | ⟨hstate, h⟩ | ⟨-, h⟩
  · rcases estimatePermute_next h with ⟨-, rfl⟩ | ⟨-, -, rfl⟩ | ⟨f, which, -, rfl⟩ | ⟨-, -, -, -, work, -, rfl⟩
    · exact .inl (commandEnded_raiseError ..)
    · exact .inl (commandEnded_raiseError ..)
    · exact .inl (commandEnded_raiseError ..)
    · exact .inr ⟨rfl, by simp [hstate, stagesLeft], rfl, rfl⟩
  · rcases estimateTransform_next h with ⟨-, rfl⟩ | ⟨-, work, -, rfl⟩
    · exact .inl (commandEnded_raiseError ..)
    · exact .inr ⟨rfl, by simp [hstate, stagesLeft], rfl, rfl⟩
  · rcases estimateScale_next h with ⟨-, rfl⟩ | ⟨-, ir, -, rfl⟩
    · exact .inl (commandEnded_raiseError ..)
    · exact .inl (commandEnded_finish _)

/-- An engine step that goes on ends the command, by ILLEGAL_CMD for an illegal word, or moves ESTIMATE on. -/
theorem step_of_engine_ends_or_advances {s t : State} (hm : nextMove s = .engine) (h : step s = .next t) :
    CommandEnded t ∨ Advances (takeTurn s) t := by
  cases hd : decodeCommand s.curCmd with
  | error e =>
    rw [step_of_engine_illegal hm hd] at h
    obtain rfl := next_inj h
    exact .inl (commandEnded_raiseError ..)
  | ok i =>
    rw [step_of_engine hm hd] at h
    by_cases hest : i = .estimate
    · subst hest
      exact exec_estimate_ends_or_advances h
    · exact .inl (exec_command_commandEnded (decodeCommand_isCommand hd) hest h)

/-! ### The host's step -/

/-- While a command runs, a register transaction goes on and a buffer transaction is refused (R181). -/
theorem exec_host_of_busy {i : Instr} {s : State} (hi : i.isCommand = false) (hb : s.status.busy = true) :
    (∃ t, exec i s = .next t ∧ AgreesWhileBusy s t) ∨ exec i s = .refused .bufferAccessWhileBusy := by
  cases i with
  | genseq | bipolar | gentags | gentagl | fht | estimate => simp [Instr.isCommand] at hi
  | rdReg idx => exact .inl ⟨_, rfl, _, _, _, _, _, some _, rfl⟩
  | wrReg idx v => exact .inl ⟨_, rfl, regWrite_agreesWhileBusy hb idx _⟩
  | _ => exact .inr (bufferTxn_of_busy hb ..)

/-- With no reset in the program, the host's step runs a transaction and leaves no line in the program that was not there. -/
theorem step_of_host_runs_transaction {s : State} (hm : nextMove s = .host) (hne : s.env.program ≠ [])
    (hreset : HostOp.reset ∉ s.env.program) :
    ∃ i ops, i.isCommand = false ∧ ops ⊆ s.env.program ∧ step s = exec i (setProgram ops (takeTurn s)) := by
  cases hp : s.env.program with
  | nil => exact absurd hp hne
  | cons op ops =>
    cases op with
    | txn x => exact ⟨_, ops, decodeTxn_isCommand x, List.subset_cons_self .., step_of_host_txn hm hp⟩
    | wait =>
      have hs := step_of_host_wait hm hp
      rw [afterWait_eq] at hs
      have hself : setProgram (.wait :: ops) (takeTurn s) = takeTurn s := hp ▸ rfl
      cases hb : s.status.busy
      · exact ⟨.rdReg 1, ops, rfl, List.subset_cons_self .., by simp [hs, hb]⟩
      · exact ⟨.rdReg 1, .wait :: ops, rfl, List.Subset.refl _, by simp [hs, hb, hself]⟩
    | reset => simp [hp] at hreset

/-! ### Every step of a running command -/

/-- A command runs from a state that meets the invariant, and no reset is to come. -/
structure Running (s : State) : Prop where
  inv : Inv s
  busy : s.status.busy = true
  turns : Turn.reset ∉ s.env.turns
  program : HostOp.reset ∉ s.env.program

theorem Running.of_step {s t : State} (h : Running s) (hs : step s = .next t) (hb : t.status.busy = true)
    (ht : t.env.turns = s.env.turns.tail) (hp : t.env.program ⊆ s.env.program) : Running t where
  inv := stepKeepsTheInvariant s t h.inv hs
  busy := hb
  turns := fun hmem => h.turns (List.mem_of_mem_tail (ht ▸ hmem))
  program := fun hmem => h.program (hp hmem)

/-- The host moves in its own turn while its program lasts; every other turn is the engine's. -/
theorem Running.nextMove_cases {s : State} (h : Running s) :
    nextMove s = .engine ∨
      nextMove s = .host ∧ s.env.program ≠ [] ∧ ∃ turns, s.env.turns = .host :: turns := by
  cases ht : s.env.turns with
  | nil => exact .inl (nextMove_engine (.inr ht) h.busy)
  | cons turn turns =>
    cases turn with
    | engine => exact .inl (nextMove_engine (.inl (by simp [ht])) h.busy)
    | host =>
      by_cases hp : s.env.program = []
      · exact .inl (by simp [nextMove_of_exhausted ht hp, h.busy])
      · exact .inr ⟨nextMove_host ht hp, hp, turns, rfl⟩
    | reset => exact absurd (by simp [ht]) h.turns

/-- A running command's step ends it or stops, or leaves it running with fewer steps left. -/
def EndsOrGetsCloser (s : State) : Prop :=
  EndsOrStops (step s) ∨ ∃ t, step s = .next t ∧ Running t ∧ stepsLeft t < stepsLeft s

theorem Running.engine_step {s : State} (h : Running s) (hm : nextMove s = .engine) : EndsOrGetsCloser s := by
  rcases engineFaultsOnlyOnHostData s h.inv hm with ⟨t, hs⟩ | ⟨sp, i, hs, -⟩
  · rcases step_of_engine_ends_or_advances hm hs with hend | hadv
    · exact .inl (.inl ⟨t, hs, hend⟩)
    · have hrun := h.of_step hs (hadv.busy.trans h.busy) hadv.turns (hadv.program ▸ List.Subset.refl _)
      exact .inr ⟨t, hs, hrun, stepsLeft_lt_of_engine hadv.turns hadv.stage⟩
  · exact .inl (.inr (.inl ⟨sp, i, hs⟩))

theorem Running.host_step {s : State} (h : Running s) (hm : nextMove s = .host) (hne : s.env.program ≠ [])
    {turns : List Turn} (ht : s.env.turns = .host :: turns) : EndsOrGetsCloser s := by
  obtain ⟨i, ops, hi, hops, hs⟩ := step_of_host_runs_transaction hm hne h.program
  rcases exec_host_of_busy (s := setProgram ops (takeTurn s)) hi h.busy with ⟨t, ht', hagrees⟩ | hrefused
  · obtain ⟨o, c, n, r, w, d, rfl⟩ := hagrees
    have hnext := hs.trans ht'
    exact .inr ⟨_, hnext, h.of_step hnext h.busy rfl hops, stepsLeft_lt_of_host ht (by simp [ht]) rfl⟩
  · exact .inl (.inr (.inr (hs.trans hrefused)))

theorem Running.ends_or_gets_closer {s : State} (h : Running s) : EndsOrGetsCloser s := by
  rcases h.nextMove_cases with hm | ⟨hm, hne, turns, ht⟩
  · exact h.engine_step hm
  · exact h.host_step hm hne ht

/-! ### Runs -/

theorem run_one (M : Host.Core) (s : M.State) : M.run 1 s = M.step s := by
  rw [Host.Core.run]
  cases M.step s <;> rfl

theorem run_succ_of_step (M : Host.Core) {s t : M.State} (h : M.step s = .next t) (k : Nat) :
    M.run (k + 1) s = M.run k t := by
  rw [Host.Core.run, h]

/-- By induction over the measure: after a step that neither ends nor stops, the rest of the run is shorter. -/
theorem Running.ends_within {s : State} (h : Running s) :
    ∃ k, 1 ≤ k ∧ k ≤ stepsLeft s ∧ EndsOrStops (core.run k s) := by
  induction hn : stepsLeft s using Nat.strong_induction_on generalizing s with
  | h n ih =>
    subst hn
    rcases h.ends_or_gets_closer with hover | ⟨t, hs, hrun, hlt⟩
    · exact ⟨1, le_rfl, h.inv.stepsLeft_pos h.busy, (run_one core s).symm ▸ hover⟩
    · obtain ⟨k, -, hk, hover⟩ := ih _ hlt hrun rfl
      exact ⟨k + 1, Nat.le_add_left .., Nat.lt_of_le_of_lt hk hlt, (run_succ_of_step core hs k).symm ▸ hover⟩

/-- Settles O50: a running command ends within `stepsLeft`, and no command has more than three engine steps left. -/
theorem acceptedCommandEnds : Obligations.AcceptedCommandEnds := by
  unfold Obligations.AcceptedCommandEnds
  intro s hi hb hturns hprogram
  obtain ⟨k, hk1, hk, hover⟩ := Running.ends_within ⟨hi, hb, hturns, hprogram⟩
  have hbound : stepsLeft s ≤ s.env.turns.length + (3 - s.env.turns.count .engine) :=
    Nat.add_le_add_left (Nat.sub_le_sub_right (stagesLeft_le _) _) _
  exact ⟨k, hk1, hk.trans hbound, hover⟩

end Sys2Proof.Machine
end
